-- ==== Sys2Proof/Word.lean ====
section
/-! DEFINITION. The word types: bytes of the buffer memory, 32-bit registers (R7), byte sequences (R9). -/

namespace Sys2Proof

/-- One byte of the buffer memory `M`, and the width of the `DELIM` field (R31, R72). -/
abbrev Byte := BitVec 8

/-- A register of the block, an address or a length: 32 bits, unsigned (R7). -/
abbrev Word := BitVec 32

/-- A byte sequence (R9). -/
abbrev Bytes := List Byte

end Sys2Proof
end

