-- ==== Sys2Proof/Syntax.lean ====
section
/-! DEFINITION. The commands of the block (R74), one constructor per row of spec/opcode_table.json, and the three fields
of a command word (R70). -/

namespace Sys2Proof

/-- The eleven commands (R74). Operands come from the captured argument registers (R77), so only the span commands carry
one in the word: the delimiter byte `d` (R72). -/
inductive Instr where
  /-- `ENC`, OP 0x01 (R103): raw stuffing encode. -/
  | enc
  /-- `DEC`, OP 0x02 (R104): raw unstuffing decode. -/
  | dec
  /-- `ENCPKT`, OP 0x03 (R105): frame encode. -/
  | encpkt
  /-- `DECPKT`, OP 0x04 (R107): frame decode. -/
  | decpkt
  /-- `CRC16`, OP 0x10 (R161): checksum of a byte range. -/
  | crc16
  /-- `RB_INIT`, OP 0x20 (R135): initialise the ring. -/
  | rbInit
  /-- `RB_EMPTY`, OP 0x21 (R136): emptiness test. -/
  | rbEmpty
  /-- `RB_ADD`, OP 0x22 (R137): append bytes. -/
  | rbAdd
  /-- `RB_DEQ`, OP 0x23 (R138): FIFO dequeue. -/
  | rbDeq
  /-- `RB_HASSPAN`, OP 0x24 (R139): delimited-span test for delimiter `d`. -/
  | rbHasspan (d : Byte)
  /-- `RB_DEQSPAN`, OP 0x25 (R140): delimited-span extraction for delimiter `d`. -/
  | rbDeqspan (d : Byte)
  deriving DecidableEq, Repr

/-- The fields of a command word (R70), in the order the table of R70 lists them. -/
structure CmdFields where
  /-- `OP = w[7:0]` (R71). -/
  op : BitVec 8
  /-- `DELIM = w[15:8]` (R72). -/
  delim : BitVec 8
  /-- `RSVD = w[31:16]` (R73). -/
  rsvd : BitVec 16
  deriving DecidableEq, Repr

/-- The fields an instruction is written with: its opcode of R74, its delimiter operand or `0x00`, reserved bits 0. -/
def Instr.fields : Instr → CmdFields
  | .enc => ⟨0x01, 0, 0⟩
  | .dec => ⟨0x02, 0, 0⟩
  | .encpkt => ⟨0x03, 0, 0⟩
  | .decpkt => ⟨0x04, 0, 0⟩
  | .crc16 => ⟨0x10, 0, 0⟩
  | .rbInit => ⟨0x20, 0, 0⟩
  | .rbEmpty => ⟨0x21, 0, 0⟩
  | .rbAdd => ⟨0x22, 0, 0⟩
  | .rbDeq => ⟨0x23, 0, 0⟩
  | .rbHasspan d => ⟨0x24, d, 0⟩
  | .rbDeqspan d => ⟨0x25, d, 0⟩

end Sys2Proof
end

