-- ==== Sys2Proof/WellFormed.lean ====
section
/-! DEFINITION. Which command-word fields are legal (R75), check by check, and the same of an instruction. -/

namespace Sys2Proof

/-- The opcodes of the map of R74. -/
def opcodeMap : List (BitVec 8) := [0x01, 0x02, 0x03, 0x04, 0x10, 0x20, 0x21, 0x22, 0x23, 0x24, 0x25]

/-- R75 (a): `OP` is in the opcode map. -/
def CmdFields.opKnown (f : CmdFields) : Bool := opcodeMap.contains f.op

/-- R75 (b), R73: `RSVD` is 0. -/
def CmdFields.rsvdZero (f : CmdFields) : Bool := f.rsvd == 0

/-- R75 (c), R72: `DELIM` is `0x00` unless the command is a span command. -/
def CmdFields.delimAllowed (f : CmdFields) : Bool := f.op == 0x24 || f.op == 0x25 || f.delim == 0

/-- A command word is legal when none of R75 (a), (b), (c) holds of it. -/
def CmdFields.legal (f : CmdFields) : Bool := f.opKnown && f.rsvdZero && f.delimAllowed

/-- An instruction is well formed when the fields it is written with are legal. -/
def Instr.wellFormed (i : Instr) : Bool := i.fields.legal

end Sys2Proof
end

