-- ==== Sys2Proof/Decode.lean ====
section
/-! DEFINITION. The decoder, total on every 32-bit word and rejecting by name (R70 to R76), and after it the encoder. -/

namespace Sys2Proof

/-- Why a word is illegal (R75). The engine's fault is the same, `ILLEGAL_CMD`, for all three. -/
inductive DecodeError where
  /-- R75 (b): `RSVD` is not 0. -/
  | reservedNotZero
  /-- R75 (a): `OP` is not in the opcode map. -/
  | unknownOpcode
  /-- R75 (c): `DELIM` is not 0 and the command is no span command. -/
  | delimiterNotZero
  deriving DecidableEq, Repr

/-- The fields of a command word (R70). -/
def cmdFields (w : Word) : CmdFields :=
  { op := w.extractLsb' 0 8, delim := w.extractLsb' 8 8, rsvd := w.extractLsb' 16 16 }

/-- A command whose `DELIM` field must be `0x00` (R72, R75 (c)). -/
def plainCommand (delim : Byte) (i : Instr) : Except DecodeError Instr :=
  if delim = 0 then .ok i else .error .delimiterNotZero

/-- The command of a word's fields by exact match on `OP` (R71, R74), or the reason why there is none (R75). -/
def decodeFields (f : CmdFields) : Except DecodeError Instr :=
  if f.rsvd ≠ 0 then .error .reservedNotZero
  else if f.op = 0x01 then plainCommand f.delim .enc
  else if f.op = 0x02 then plainCommand f.delim .dec
  else if f.op = 0x03 then plainCommand f.delim .encpkt
  else if f.op = 0x04 then plainCommand f.delim .decpkt
  else if f.op = 0x10 then plainCommand f.delim .crc16
  else if f.op = 0x20 then plainCommand f.delim .rbInit
  else if f.op = 0x21 then plainCommand f.delim .rbEmpty
  else if f.op = 0x22 then plainCommand f.delim .rbAdd
  else if f.op = 0x23 then plainCommand f.delim .rbDeq
  else if f.op = 0x24 then .ok (.rbHasspan f.delim)
  else if f.op = 0x25 then .ok (.rbDeqspan f.delim)
  else .error .unknownOpcode

/-- The decoder: every command is one 32-bit word (R70). -/
def decode (w : Word) : Except DecodeError Instr := decodeFields (cmdFields w)

/-- The word with the given fields (R70): `OP` in bits 7:0, `DELIM` in bits 15:8, `RSVD` in bits 31:16. -/
def wordOfFields (f : CmdFields) : Word :=
  f.op.setWidth 32 ||| (f.delim.setWidth 32 <<< 8) ||| (f.rsvd.setWidth 32 <<< 16)

/-- The encoder: the command word of R74. -/
def encode (i : Instr) : Word := wordOfFields i.fields

/-- The instruction the decoder reads from a table row's bits. A command is one 32-bit word, written to `CMD` whole
(R70, R55), so bits above `nbits` are 0 and nothing longer than 32 bits is a command. -/
def decodeTableWord (nbits w : Nat) : Option Instr :=
  if nbits ≤ 32 then
    match decode (BitVec.ofNat 32 (w % 2 ^ nbits)) with
    | .ok i => some i
    | .error _ => none
  else none

end Sys2Proof
end

