-- ==== Sys2Proof/Config.lean ====
section
/-! DEFINITION. What an implementation fixes (the parameters of R5) and the free values the spec leaves open. -/

namespace Sys2Proof

/-- The named parameters of the block (R5), which a model takes as arguments. They stand in `State`, so that every
statement holds for every legal choice of them (log entry 1). -/
structure Params where
  /-- `MEM_SIZE`: bytes of the buffer memory `M`. -/
  memSize : Nat
  /-- `RB_CAP_MAX`: the largest capacity `RB_INIT` accepts. -/
  rbCapMax : Nat
  /-- `REG_BASE`: host bus address of the register window. No step reads it. -/
  regBase : Nat
  /-- `BUF_BASE`: host bus address of the buffer-memory window. No step reads it. -/
  bufBase : Nat
  deriving DecidableEq, Repr

/-- The constraints of R5: `1 <= MEM_SIZE <= 2^32`, `1 <= RB_CAP_MAX <= MEM_SIZE`, `REG_BASE` 64-byte aligned,
`BUF_BASE` aligned to a power of two that is at least `MEM_SIZE`. -/
def Params.legal (p : Params) : Bool :=
  decide (1 ≤ p.memSize) && decide (p.memSize ≤ 2 ^ 32) && decide (1 ≤ p.rbCapMax) && decide (p.rbCapMax ≤ p.memSize)
    && decide (p.regBase % 64 = 0)
    && (List.range 33).any (fun k => decide (p.memSize ≤ 2 ^ k) && decide (p.bufBase % 2 ^ k = 0))

/-- The example values of R5: `MEM_SIZE = RB_CAP_MAX = 4096`; the window bases, which no example uses, are 0
(DESIGN CHOICE, log entry 1). -/
def Params.sample : Params := { memSize := 4096, rbCapMax := 4096, regBase := 0, bufBase := 0 }

/-- The order of the two bytes of a packet's `sequence_id`: the open parameter `SEQ_ORDER` (R66, D41). The block never
reads the field; host programs take it as an argument. -/
inductive SeqOrder where
  | littleEndian
  | bigEndian
  deriving DecidableEq, Repr

/-- FREE VALUE (R210, log entry 2). The latency draw of the command accepted when `draws` commands have been accepted
before it: how many further host accesses happen before its engine step. -/
opaque Config.latency : (draws : Nat) → Nat

/-- FREE VALUE (R103, R105 with R7, log entry 7). What `RES0` holds where the spec says "the output length" and that
length does not fit in 32 bits. By R34 it can depend on nothing but the operands and the bytes read, which `output` tells. -/
opaque Config.overlongLength : (a0 a1 a2 a3 : Word) → (output : Bytes) → Word

end Sys2Proof
end

