-- ==== Sys2Proof/Machine/State.lean ====
section
/-! DEFINITION. The state of the block as plain data (10_state.md), the host events it is driven by, and reset (R35). -/

namespace Sys2Proof.Machine

/-- The model-only faults of R178. They are RECORDED in `State.modelFaults` by a next state, as R57 and R32 say; no step
ends in one, so the machine goes on (log entries 4 and 5). Safe or unsafe: a run with a non-empty record has no final
state (R211), and nothing is claimed of the hardware after it. -/
inductive Fault where
  /-- `UndefinedRead` (R57): raised by an engine command or a host read that includes an undefined byte of `M`. Unsafe:
  the hardware goes on with some value (log entry 4). -/
  | undefinedRead
  /-- `HostAccessWhileBusy` (R205): raised by a host access to `M` while `BUSY = 1`. Unsafe: the hardware stores or
  returns bytes in an order the spec does not give (log entry 5). -/
  | hostAccessWhileBusy
  deriving DecidableEq, Repr

/-- Why a step has no meaning. No arm of `exec` answers one: every command is modelled. -/
inductive Refusal where
  /-- An instruction that is not modelled yet, by its mnemonic (safe). -/
  | notModelled (mnemonic : String)
  deriving DecidableEq, Repr

/-- The codes of class *outcome* (R170, R171): answers, not faults. -/
inductive OutcomeCode where
  | ok
  | decodingFailed
  | dstOverflow
  | noSpan
  deriving DecidableEq, Repr

/-- The codes of class *fault* (R170, R171). -/
inductive FaultCode where
  | rbOverflow
  | badRange
  | rbUninit
  | badCap
  | illegalCmd
  | badAccess
  | cmdWhileBusy
  deriving DecidableEq, Repr

/-- The content of `STATUS.CODE` (R170): the codes of R170 and no others. -/
inductive Code where
  | outcome (c : OutcomeCode)
  | fault (c : FaultCode)
  deriving DecidableEq, Repr

/-- The decoder status `DSTAT`, `STATUS[27:24]` (R23). -/
structure Dstat where
  dzero : Bool
  dtrunc : Bool
  dframe : Bool
  dshort : Bool
  deriving DecidableEq, Repr

/-- All four `DSTAT` bits 0: what every command but `DEC` and `DECPKT` writes (R23). -/
def Dstat.zero : Dstat := ⟨false, false, false, false⟩

/-- Four argument values: the captured operands of R30. -/
structure Args where
  a0 : Word
  a1 : Word
  a2 : Word
  a3 : Word
  deriving DecidableEq, Repr

/-- The pending command slot when it is not `none` (R30): the accepted word and the argument values at acceptance. -/
structure Pending where
  /-- The accepted command word `w`. -/
  word : Word
  /-- `a0..a3`, captured at acceptance. -/
  args : Args
  /-- The model's own: host accesses still to come before the engine step (the draw of R210, log entry 2). -/
  wait : Nat
  deriving DecidableEq, Repr

/-- The named registers of the window (R21); the two reserved slots have no name. -/
inductive Reg where
  | cmd
  | status
  | arg0
  | arg1
  | arg2
  | arg3
  | res0
  | res1
  | rbBase
  | rbCap
  | rbHead
  | rbTail
  | rbCount
  | rbFlags
  deriving DecidableEq, Repr

/-- What the outside does to the block between two engine steps (R20, R79, R200). A width is a number of bytes; an offset
of the register window is 6 bits, the 64 bytes of R50 (log entry 12); an address in `M` is an unbounded number (R9). -/
inductive HostEvent where
  /-- A register write of `width` bytes at `offset` (R51). -/
  | regWrite (width : Nat) (offset : BitVec 6) (data : Word)
  /-- A register read (R51). -/
  | regRead (width : Nat) (offset : BitVec 6)
  /-- A buffer-memory write (R52); a width below 4 uses the low bytes of `data`. -/
  | memWrite (width : Nat) (addr : Nat) (data : Word)
  /-- A buffer-memory read (R52). -/
  | memRead (width : Nat) (addr : Nat)
  /-- The line `wait` of R79: read `STATUS` until bit 0 reads 0 (one event, DESIGN CHOICE, log entry 16). -/
  | wait
  /-- The reset input is asserted (R200). -/
  | reset
  deriving DecidableEq, Repr

/-- What the last host event got back from the bus (the model's own field, log entry 3). -/
inductive Response where
  /-- Nothing yet, or a reset. -/
  | idle
  /-- A write was taken off the bus (with or without an effect). -/
  | written
  /-- A read returned this value, zero-extended to 32 bits. -/
  | data (v : Word)
  /-- A read for which the spec gives no value (R57, R205). -/
  | noValue
  deriving DecidableEq, Repr

/-- The buffer memory `M` (R31): the DEFINED bytes, as (address, byte) pairs with strictly rising addresses. An unlisted
address is undefined; it reads as no value at all (DESIGN CHOICE for the form, log entry 14). -/
abbrev Memory := List Host.Cell

/-- The state of the block, and with it the host events still to come. `BUSY`, `RB_COUNT` and `RB_FLAGS` are computed
from it (R30, R28, R29) and have no field of their own. -/
structure State where
  /-- The parameters of R5; no step changes them. -/
  params : Params
  /-- `CMD` (R22). -/
  cmd : Word
  /-- `ARG0` to `ARG3` (R24). -/
  arg0 : Word
  arg1 : Word
  arg2 : Word
  arg3 : Word
  /-- `STATUS.CODE` (R23, R170). -/
  code : Code
  /-- `STATUS.DSTAT` (R23). -/
  dstat : Dstat
  /-- `STATUS.FAULT` (R23, R174). -/
  fault : Bool
  /-- `STATUS.FCAUSE` (R23, R174): the first fault since reset, if any. -/
  fcause : Option FaultCode
  /-- `RES0`, `RES1` (R25). -/
  res0 : Word
  res1 : Word
  /-- `RB_BASE`, `RB_CAP`, `RB_HEAD`, `RB_TAIL` (R27). -/
  rbBase : Word
  rbCap : Word
  rbHead : Word
  rbTail : Word
  /-- `full` and `init` (R27). -/
  full : Bool
  init : Bool
  /-- The pending command slot (R30); `BUSY = 1` exactly when it is not `none`. -/
  pending : Option Pending
  /-- The buffer memory `M` (R31). -/
  mem : Memory
  /-- The model-only fault record (R32, R178), no repeats, oldest first. -/
  modelFaults : List Fault
  /-- The model's own: commands accepted so far, the argument of the latency draw (log entry 2). -/
  draws : Nat
  /-- The model's own: the host events still to come, first one first (log entry 3). -/
  host : List HostEvent
  /-- The model's own: what the last host event got back. -/
  response : Response
  deriving DecidableEq, Repr

/-- `STATUS.BUSY` (R23, R30). -/
def State.busy (s : State) : Bool := s.pending.isSome

/-- The block right after reset (R35, R200), for any parameters: every byte of `M` undefined, the slot empty. -/
def State.resetWith (p : Params) : State where
  params := p
  cmd := 0
  arg0 := 0
  arg1 := 0
  arg2 := 0
  arg3 := 0
  code := .outcome .ok
  dstat := Dstat.zero
  fault := false
  fcause := none
  res0 := 0
  res1 := 0
  rbBase := 0
  rbCap := 0
  rbHead := 0
  rbTail := 0
  full := false
  init := false
  pending := none
  mem := []
  modelFaults := []
  draws := 0
  host := []
  response := .idle

/-- The machine right after reset, with the example parameters of R5 (log entry 1). -/
def State.reset : State := State.resetWith Params.sample

end Sys2Proof.Machine
end

