-- ==== Sys2Proof/Machine/Ops.lean ====
section
/-! DEFINITION. The named operations the meanings share: bytes and ranges of `M`, the two completions of a command
(R172, R173), and the recording of faults (R174, R176, R178). -/

namespace Sys2Proof.Machine

/-! ### The buffer memory -/

/-- The canonical form of a memory: addresses strictly rising. (An unlisted address reads as no value, so no entry can
equal what an unlisted address reads as.) -/
def Memory.wf : Memory → Bool
  | [] => true
  | c :: m => m.all (fun c' => decide (c.1 < c'.1)) && Memory.wf m

/-- The byte at an address: `none` where the byte is undefined (R31, R57). -/
def Memory.read : Memory → Nat → Option Byte
  | [], _ => none
  | c :: m, a => if c.1 = a then some c.2 else Memory.read m a

/-- Store one byte (R53); it becomes defined (R31). -/
def Memory.write : Memory → Nat → Byte → Memory
  | [], a, b => [(a, b)]
  | c :: m, a, b =>
    if a < c.1 then (a, b) :: c :: m
    else if a = c.1 then (a, b) :: m
    else c :: Memory.write m a b

/-- `MemRead(a, n)` (R10): the bytes `M[a..a+n)`, or `none` when one of them is undefined (R57). -/
def Memory.readRange (m : Memory) : Nat → Nat → Option Bytes
  | _, 0 => some []
  | a, n + 1 =>
    match m.read a, Memory.readRange m (a + 1) n with
    | some b, some bs => some (b :: bs)
    | _, _ => none

/-- `MemWrite(a, s)` (R10), in increasing address order (R58). -/
def Memory.writeRange (m : Memory) : Nat → Bytes → Memory
  | _, [] => m
  | a, b :: bs => Memory.writeRange (m.write a b) (a + 1) bs

/-! ### Completing a command -/

/-- `finish(code, res0, res1)` (R172): the non-fault completion; `d` is the decoder status the command's rule set. `BUSY`
is cleared by emptying the slot (R30). -/
def finish (c : OutcomeCode) (r0 r1 : Word) (d : Dstat) (s : State) : State :=
  { s with code := .outcome c, res0 := r0, res1 := r1, dstat := d, pending := none }

/-- `FCAUSE` after a fault: the code of the FIRST fault since reset (R174). -/
def firstCause (old : Option FaultCode) (c : FaultCode) : Option FaultCode :=
  match old with
  | none => some c
  | some f => some f

/-- Set the sticky `FAULT` and, if there is none yet, `FCAUSE` (R173, R174, R176, R177). -/
def recordFault (c : FaultCode) (s : State) : State :=
  { s with fault := true, fcause := firstCause s.fcause c }

/-- `raise Fault(code)` (R173), the one way a command takes a fault: no write to `M`, no change to ring state. The block
has no traps, so nothing else is saved and there is no return (R180, R181). -/
def raiseFault (c : FaultCode) (s : State) : State :=
  { recordFault c s with code := .fault c, res0 := 0, res1 := 0, dstat := Dstat.zero, pending := none }

/-- Record a model-only fault (R32, R178), once. -/
def recordModelFault (f : Fault) (s : State) : State :=
  { s with modelFaults := if f ∈ s.modelFaults then s.modelFaults else s.modelFaults ++ [f] }

/-- An engine command met an undefined byte (R57): `UndefinedRead` is recorded "with no other effect of the command". The
engine step has been taken, so the slot is emptied (R30, R58; DEDUCED, log entry 4). -/
def undefinedRead (s : State) : State :=
  { recordModelFault .undefinedRead s with pending := none }

/-! ### Whose turn it is -/

/-- The engine moves when the drawn number of host accesses has gone by (R210), or when the host has none left: the
engine step of a pending command is eventually taken (weak fairness, R210; DEDUCED, log entry 8). -/
def engineTurn (p : Pending) (s : State) : Bool := p.wait == 0 || s.host.isEmpty

/-- One host event is consumed: the rest of the list is left, and the pending command, if any, has one host access less
to wait for. -/
def advanceHost (rest : List HostEvent) (s : State) : State :=
  { s with
    host := rest
    pending := s.pending.map fun p => { p with wait := p.wait - 1 } }

/-- One more host access while the host stays at a `wait` (R79). -/
def stayAtWait (s : State) : State := advanceHost s.host s

/-- Accept the command word `w` (R22): `CMD` takes it and the slot takes it with the argument values as they are now and
a fresh latency draw (R210). -/
def acceptCommand (w : Word) (s : State) : State :=
  { s with
    cmd := w
    pending := some { word := w, args := ⟨s.arg0, s.arg1, s.arg2, s.arg3⟩, wait := Config.latency s.draws }
    draws := s.draws + 1 }

/-- The reset input (R200, R35): every piece of the block's state to its reset value; a pending command is abandoned. The
host's remaining events and the draw counter are not the block's (log entry 10). -/
def resetBlock (s : State) : State :=
  { State.resetWith s.params with host := s.host, draws := s.draws }

end Sys2Proof.Machine
end

