-- ==== Sys2Proof/Machine/Operands.lean ====
section
/-! DEFINITION. Operands: the captured arguments (R30, R77), ranges of `M` (R54), the places of the registers in the
window (R21), and the ways a command's source and destination are used. -/

namespace Sys2Proof.Machine

/-- The operands `a0..a3` of the command being performed: the values captured at acceptance (R30, R77), used unsigned
(R78). The engine never performs a command with an empty slot; the value given there, the argument registers as they
are, is what an acceptance now would capture (DESIGN CHOICE, log entry 9). -/
def State.operands (s : State) : Args :=
  match s.pending with
  | some p => p.args
  | none => ⟨s.arg0, s.arg1, s.arg2, s.arg3⟩

/-- The range `(a, n)` is valid (R54): `a + n <= MEM_SIZE` on unbounded integers. -/
def rangeValid (s : State) (a n : Word) : Bool := decide (a.toNat + n.toNat ≤ s.params.memSize)

/-- Read the source range `(a0, a1)` and go on with its bytes: the snapshot of R58. A range with an undefined byte is the
model fault of R57. -/
def readSource (s : State) (k : Bytes → State) : State :=
  match s.mem.readRange s.operands.a0.toNat s.operands.a1.toNat with
  | some src => k src
  | none => undefinedRead s

/-- A command with a source range `(a0, a1)` only: `BAD_RANGE`, then the read (R175 items 3 and 6). -/
def withSource (s : State) (k : Bytes → State) : State :=
  if rangeValid s s.operands.a0 s.operands.a1 then readSource s k else raiseFault .badRange s

/-- A command with a source range `(a0, a1)` and a destination range `(a2, a3)` (R77): both ranges are checked, the source
first, before any byte is read (R54, R175). -/
def withSourceAndDest (s : State) (k : Bytes → State) : State :=
  if rangeValid s s.operands.a0 s.operands.a1 && rangeValid s s.operands.a2 s.operands.a3 then readSource s k
  else raiseFault .badRange s

/-- The length of an output as a 32-bit register value: exact where it fits (R7, R25). Where it does not, the spec states no
value and the register holds a free one of the operands and the output (R34, log entry 7). -/
def lengthWord (a : Args) (out : Bytes) : Word :=
  if out.length < 2 ^ 32 then BitVec.ofNat 32 out.length else Config.overlongLength a.a0 a.a1 a.a2 a.a3 out

/-- Deliver `out` into the destination `(a2, a3)` and complete: `DST_OVERFLOW` with nothing written when it does not fit,
else the bytes go to the prefix of the destination and the code is `c` (R103 to R107). -/
def deliver (out : Bytes) (c : OutcomeCode) (r1 : Word) (d : Dstat) (s : State) : State :=
  if s.operands.a3.toNat < out.length then finish .dstOverflow (lengthWord s.operands out) r1 d s
  else finish c (lengthWord s.operands out) r1 d { s with mem := s.mem.writeRange s.operands.a2.toNat out }

/-- The register at an offset of the window (R21): none at an offset that is not a multiple of 4 (R51) or is one of the
reserved slots `0x38` and `0x3C`. -/
def regAt (offset : BitVec 6) : Option Reg :=
  if offset = 0x00 then some .cmd
  else if offset = 0x04 then some .status
  else if offset = 0x08 then some .arg0
  else if offset = 0x0C then some .arg1
  else if offset = 0x10 then some .arg2
  else if offset = 0x14 then some .arg3
  else if offset = 0x18 then some .res0
  else if offset = 0x1C then some .res1
  else if offset = 0x20 then some .rbBase
  else if offset = 0x24 then some .rbCap
  else if offset = 0x28 then some .rbHead
  else if offset = 0x2C then some .rbTail
  else if offset = 0x30 then some .rbCount
  else if offset = 0x34 then some .rbFlags
  else none

/-- The offset of a register in the window (R21). -/
def Reg.offset : Reg → BitVec 6
  | .cmd => 0x00
  | .status => 0x04
  | .arg0 => 0x08
  | .arg1 => 0x0C
  | .arg2 => 0x10
  | .arg3 => 0x14
  | .res0 => 0x18
  | .res1 => 0x1C
  | .rbBase => 0x20
  | .rbCap => 0x24
  | .rbHead => 0x28
  | .rbTail => 0x2C
  | .rbCount => 0x30
  | .rbFlags => 0x34

/-- A host buffer-memory access that R52 allows: width 1, 2 or 4, naturally aligned, every byte below `MEM_SIZE`. -/
def memAccessLegal (s : State) (width addr : Nat) : Bool :=
  (width == 1 || width == 2 || width == 4) && decide (addr % width = 0)
    && decide (addr + width ≤ s.params.memSize)

/-- The low `width` bytes of a value, least significant first (R52). -/
def littleEndianBytes (v : Word) : Nat → Bytes
  | 0 => []
  | n + 1 => v.extractLsb' 0 8 :: littleEndianBytes (v >>> 8) n

/-- The value of bytes read least significant first (R52), zero-extended to 32 bits. -/
def littleEndianValue : Bytes → Word
  | [] => 0
  | b :: bs => b.setWidth 32 ||| (littleEndianValue bs <<< 8)

end Sys2Proof.Machine
end

