-- ==== Sys2Proof/Machine/Checksum.lean ====
section
/-! DEFINITION. The checksum unit (42_checksum.md): `Crc16` (R160) and the command `CRC16` (R161). -/

namespace Sys2Proof.Machine

/-- The initial value of the CRC register (R6, R160). -/
def crcInit : BitVec 16 := 0xFFFF

/-- The reflected polynomial (R6, R160). -/
def crcPoly : BitVec 16 := 0xA001

/-- One bit-shift of the CRC register (R160): XOR with the polynomial when the shifted-out bit was 1. -/
def crcShift (crc : BitVec 16) : BitVec 16 :=
  if crc.getLsbD 0 then (crc >>> 1) ^^^ crcPoly else crc >>> 1

/-- `n` bit-shifts. -/
def crcShifts : Nat → BitVec 16 → BitVec 16
  | 0, crc => crc
  | n + 1, crc => crcShifts n (crcShift crc)

/-- One byte (R160): it enters the low 8 bits by exclusive-or (the spec's general knowledge, D40, log entry 11), then 8
shifts. -/
def crcByte (crc : BitVec 16) (b : Byte) : BitVec 16 := crcShifts 8 (crc ^^^ b.setWidth 16)

/-- `Crc16(data)` (R160): no final XOR. -/
def crc16 (data : Bytes) : BitVec 16 := data.foldl crcByte crcInit

/-- `CRC16` (R161): `RES0` is the CRC, zero-extended. -/
def execCrc16 (s : State) : Host.Outcome State Fault Refusal :=
  .next (withSource s fun data => finish .ok ((crc16 data).setWidth 32) 0 Dstat.zero s)

end Sys2Proof.Machine
end

