-- ==== Sys2Proof/Machine/Codec.lean ====
section
/-! DEFINITION. The codec unit (40_codec.md): the byte-stuffing transforms (R100, R101, R106) and the commands `ENC`,
`DEC`, `ENCPKT`, `DECPKT` (R103, R104, R105, R107). -/

namespace Sys2Proof.Machine

/-- The delimiter of the codec, fixed at `0x00` (R6). -/
def codecDelim : Byte := 0x00

/-- The largest number of literal bytes in one stuffed block (R6). -/
def maxLiterals : Nat := 254

/-- `FRAME_HEADER_SIZE` (R6). -/
def frameHeaderSize : Nat := 2

/-- A stuffed block that is not full: the count byte `|blk| + 1`, then the literal bytes (R100). -/
def stuffedBlock (blk : Bytes) : Bytes := BitVec.ofNat 8 (blk.length + 1) :: blk

/-- A full block: the sentinel `0xFF`, then 254 literal bytes (R100). -/
def fullBlock (blk : Bytes) : Bytes := 0xFF :: blk

/-- The loop of `EncodeRaw` (R100): `blk` holds the literal bytes of the open block, the list is what is left of the
payload; the final block is always emitted. -/
def encodeBlocks (blk : Bytes) : Bytes → Bytes
  | [] => stuffedBlock blk
  | b :: p =>
    if b = codecDelim then stuffedBlock blk ++ encodeBlocks [] p
    else if (blk ++ [b]).length = maxLiterals then fullBlock (blk ++ [b]) ++ encodeBlocks [] p
    else encodeBlocks (blk ++ [b]) p

/-- `EncodeRaw(p)` (R100). -/
def encodeRaw (p : Bytes) : Bytes := encodeBlocks [] p

/-- How raw decoding stopped: `END`, `ZERO`, `TRUNC` (R101). -/
inductive DecodeOutcome where
  | ended
  | zero
  | trunc
  deriving DecidableEq, Repr

/-- What `DecodeRaw` returns (R101). -/
structure RawDecode where
  out : Bytes
  outcome : DecodeOutcome
  stop : Nat
  artifact : Bool
  deriving DecidableEq, Repr

/-- The loop of `DecodeRaw` (R101): `rest` is the input from index `k` on. Each turn takes at least one byte, so `fuel`
above the length of `rest` never runs out. -/
def decodeBlocks : (fuel : Nat) → (rest : Bytes) → (k : Nat) → (out : Bytes) → (artifact : Bool) → RawDecode
  | 0, _, k, out, artifact => ⟨out, .ended, k, artifact⟩
  | _ + 1, [], k, out, artifact => ⟨out, .ended, k, artifact⟩
  | fuel + 1, c :: tl, k, out, artifact =>
    if c = codecDelim then ⟨out, .zero, k, artifact⟩
    else if tl.length < c.toNat - 1 then ⟨out ++ tl, .trunc, k + 1 + tl.length, false⟩
    else if tl.drop (c.toNat - 1) ≠ [] ∧ c ≠ 0xFF then
      decodeBlocks fuel (tl.drop (c.toNat - 1)) (k + 1 + (c.toNat - 1)) (out ++ tl.take (c.toNat - 1) ++ [codecDelim]) true
    else decodeBlocks fuel (tl.drop (c.toNat - 1)) (k + 1 + (c.toNat - 1)) (out ++ tl.take (c.toNat - 1)) false

/-- `DecodeRaw(in)` (R101). -/
def decodeRaw (input : Bytes) : RawDecode := decodeBlocks (input.length + 1) input 0 [] false

/-- The frame of a packet: `DELIM`, the stuffed body, `DELIM` (R105). -/
def frameOf (p : Bytes) : Bytes := codecDelim :: (encodeRaw p ++ [codecDelim])

/-- What `PacketDecode` returns (R106): the packet (empty when rejected), the raw decoded length, the decoder status. -/
structure PacketDecode where
  ok : Bool
  pkt : Bytes
  rawLength : Nat
  dstat : Dstat
  deriving DecidableEq, Repr

/-- The decoder status of `PacketDecode` (R106) on an input of length `n` whose raw decode is `r`. -/
def packetStatus (n : Nat) (r : RawDecode) : Dstat :=
  let trunc := r.outcome == .trunc
  let frame := !trunc && (r.outcome == .ended || !(decide (r.stop + 1 = n)) || !r.artifact)
  { dzero := r.outcome == .zero
    dtrunc := trunc
    dframe := frame
    dshort := !trunc && !frame && decide (r.out.length < frameHeaderSize + 1) }

/-- `PacketDecode(in)` (R106). -/
def packetDecode (input : Bytes) : PacketDecode :=
  let r := decodeRaw input
  let d := packetStatus input.length r
  let ok := !(d.dtrunc || d.dframe || d.dshort)
  { ok := ok, pkt := if ok then r.out.dropLast else [], rawLength := r.out.length, dstat := d }

/-- The decoder status of `DEC` (R104). -/
def rawStatus (r : RawDecode) : Dstat :=
  { dzero := r.outcome == .zero, dtrunc := r.outcome == .trunc, dframe := false, dshort := false }

/-- `ENC` (R103). -/
def execEnc (s : State) : Host.Outcome State Fault Refusal :=
  .next (withSourceAndDest s fun p => deliver (encodeRaw p) .ok 0 Dstat.zero s)

/-- `DEC` (R104): "everything decoded so far" is delivered on a failure too. -/
def execDec (s : State) : Host.Outcome State Fault Refusal :=
  .next (withSourceAndDest s fun input =>
    let r := decodeRaw input
    deliver r.out (if r.outcome = .ended then .ok else .decodingFailed) (BitVec.ofNat 32 r.stop) (rawStatus r) s)

/-- `ENCPKT` (R105). -/
def execEncpkt (s : State) : Host.Outcome State Fault Refusal :=
  .next (withSourceAndDest s fun p => deliver (frameOf p) .ok 0 Dstat.zero s)

/-- `DECPKT` (R107): nothing is written on a failure. -/
def execDecpkt (s : State) : Host.Outcome State Fault Refusal :=
  .next (withSourceAndDest s fun input =>
    let d := packetDecode input
    if d.ok then deliver d.pkt .ok (BitVec.ofNat 32 d.rawLength) d.dstat s
    else finish .decodingFailed 0 (BitVec.ofNat 32 d.rawLength) d.dstat s)

end Sys2Proof.Machine
end

