-- ==== Sys2Proof/Machine/Flags.lean ====
section
/-! DEFINITION. The status words: the numbers of the codes (R170), `STATUS` (R23), the derived ring quantities (R28) and
`RB_FLAGS` (R29), and what a host read of each register returns (R21). -/

namespace Sys2Proof.Machine

/-- The number of an outcome code (R170). -/
def OutcomeCode.bits : OutcomeCode → BitVec 8
  | .ok => 0x00
  | .decodingFailed => 0x01
  | .dstOverflow => 0x02
  | .noSpan => 0x03

/-- The number of a fault code (R170). -/
def FaultCode.bits : FaultCode → BitVec 8
  | .rbOverflow => 0x10
  | .badRange => 0x11
  | .rbUninit => 0x12
  | .badCap => 0x13
  | .illegalCmd => 0x14
  | .badAccess => 0x15
  | .cmdWhileBusy => 0x16

/-- `STATUS.CODE` as bits (R170). -/
def Code.bits : Code → BitVec 8
  | .outcome c => c.bits
  | .fault c => c.bits

/-- `STATUS.FCAUSE` as bits: `0x00` if there was no fault since reset (R23). -/
def fcauseBits : Option FaultCode → BitVec 8
  | none => 0x00
  | some c => c.bits

/-- A one-bit field at bit `k` of a register, zero elsewhere. -/
def bitField (b : Bool) (k : Nat) : Word := (BitVec.ofBool b).setWidth 32 <<< k

/-- An eight-bit field from bit `k` of a register on, zero elsewhere. -/
def byteField (v : BitVec 8) (k : Nat) : Word := v.setWidth 32 <<< k

/-- The word a read of `STATUS` returns (R23); the reserved bits 7:2 and 31:28 read 0. -/
def statusWord (s : State) : Word :=
  bitField s.busy 0 ||| bitField s.fault 1 ||| byteField s.code.bits 8 ||| byteField (fcauseBits s.fcause) 16
    ||| bitField s.dstat.dzero 24 ||| bitField s.dstat.dtrunc 25 ||| bitField s.dstat.dframe 26
    ||| bitField s.dstat.dshort 27

/-- `count`, the bytes the ring holds (R28): `cap` if full, else `(head - tail) mod cap` on integers. -/
def State.count (s : State) : Nat :=
  if s.full then s.rbCap.toNat
  else (((s.rbHead.toNat : Int) - (s.rbTail.toNat : Int)) % (s.rbCap.toNat : Int)).toNat

/-- `free = cap - count` (R28). -/
def State.free (s : State) : Nat := s.rbCap.toNat - s.count

/-- `empty = (head == tail) and not full` (R28). -/
def State.empty (s : State) : Bool := s.rbHead == s.rbTail && !s.full

/-- The word a read of `RB_COUNT` returns (R28): `count`, and 0 when `init = 0`. -/
def rbCountWord (s : State) : Word := if s.init then BitVec.ofNat 32 s.count else 0

/-- The word a read of `RB_FLAGS` returns (R29): bit 0 `FULL`, bit 1 `EMPTY`, bit 2 `INIT`; the rest read 0. -/
def rbFlagsWord (s : State) : Word :=
  bitField s.full 0 ||| bitField (!s.init || s.empty) 1 ||| bitField s.init 2

/-- What a host read of a register returns (R21). -/
def readReg (s : State) : Reg → Word
  | .cmd => s.cmd
  | .status => statusWord s
  | .arg0 => s.arg0
  | .arg1 => s.arg1
  | .arg2 => s.arg2
  | .arg3 => s.arg3
  | .res0 => s.res0
  | .res1 => s.res1
  | .rbBase => s.rbBase
  | .rbCap => s.rbCap
  | .rbHead => s.rbHead
  | .rbTail => s.rbTail
  | .rbCount => rbCountWord s
  | .rbFlags => rbFlagsWord s

end Sys2Proof.Machine
end

