-- ==== Sys2Proof/Machine/Ring.lean ====
section
/-! DEFINITION. The ring buffer (41_ringbuffer.md): logical positions (R130), `Push` and `Pop` (R131), `FindSpan` (R132),
the initialisation gate (R133), and the six ring commands (R135 to R140). -/

namespace Sys2Proof.Machine

/-- `pos(k)`, the address of logical index `k` (R130). -/
def ringPos (s : State) (k : Nat) : Nat := s.rbBase.toNat + (s.rbTail.toNat + k) % s.rbCap.toNat

/-- The bytes at logical indices `k .. k+n-1` (R130), or `none` when one is undefined (R57). -/
def ringBytes (s : State) : (k n : Nat) → Option Bytes
  | _, 0 => some []
  | k, n + 1 =>
    match s.mem.read (ringPos s k), ringBytes s (k + 1) n with
    | some b, some bs => some (b :: bs)
    | _, _ => none

/-- All the bytes the ring holds, oldest first (R130). -/
def heldBytes (s : State) : Option Bytes := ringBytes s 0 s.count

/-- An index moved on by one, modulo the capacity (R131). -/
def nextIndex (s : State) (i : Word) : Word := BitVec.ofNat 32 ((i.toNat + 1) % s.rbCap.toNat)

/-- `Push(b)` (R131). -/
def ringPush (b : Byte) (s : State) : State :=
  { s with
    mem := s.mem.write (s.rbBase.toNat + s.rbHead.toNat) b
    rbHead := nextIndex s s.rbHead
    full := if nextIndex s s.rbHead = s.rbTail then true else s.full }

/-- `Push` of each byte, in order (R137). -/
def ringPushAll : Bytes → State → State
  | [], s => s
  | b :: bs, s => ringPushAll bs (ringPush b s)

/-- `Pop()` (R131), as far as it changes state; the byte it returns is byte 0 of the ring. -/
def ringPop (s : State) : State := { s with rbTail := nextIndex s s.rbTail, full := false }

/-- `Pop()` `n` times (R138, R140). -/
def ringPopN : Nat → State → State
  | 0, s => s
  | n + 1, s => ringPopN n (ringPop s)

/-- The scan of `FindSpan(d)` (R132) from logical index `k` on, with the last occurrence of `d` before it. -/
def findSpanFrom (d : Byte) : (k : Nat) → (prev : Option Nat) → Bytes → Option (Nat × Nat)
  | _, _, [] => none
  | k, prev, b :: bs =>
    if b = d then
      match prev with
      | some i => if 2 ≤ k - i then some (i, k) else findSpanFrom d (k + 1) (some k) bs
      | none => findSpanFrom d (k + 1) (some k) bs
    else findSpanFrom d (k + 1) prev bs

/-- `FindSpan(d)` (R132) on the held bytes. -/
def findSpan (d : Byte) (held : Bytes) : Option (Nat × Nat) := findSpanFrom d 0 none held

/-- The initialisation gate (R133). -/
def withRing (s : State) (k : State) : State := if s.init then k else raiseFault .rbUninit s

/-- `RB_INIT` (R135). Not gated. -/
def execRbInit (s : State) : Host.Outcome State Fault Refusal :=
  .next (
    if s.operands.a1.toNat < 1 ∨ s.params.rbCapMax < s.operands.a1.toNat
        ∨ s.params.memSize < s.operands.a0.toNat + s.operands.a1.toNat then
      raiseFault .badCap s
    else
      finish .ok 0 0 Dstat.zero
        { s with rbBase := s.operands.a0, rbCap := s.operands.a1, rbHead := 0, rbTail := 0, full := false, init := true })

/-- `RB_EMPTY` (R136). -/
def execRbEmpty (s : State) : Host.Outcome State Fault Refusal :=
  .next (withRing s (finish .ok (if s.empty then 1 else 0) (BitVec.ofNat 32 s.count) Dstat.zero s))

/-- `RB_ADD` past its checks: append the bytes and complete (R137). -/
def appendBytes (bs : Bytes) (s : State) : State :=
  finish .ok s.operands.a1 (BitVec.ofNat 32 (ringPushAll bs s).count) Dstat.zero (ringPushAll bs s)

/-- `RB_ADD` (R137): `RB_UNINIT`, `BAD_RANGE`, `RB_OVERFLOW`, then the read of the source (R175). -/
def execRbAdd (s : State) : Host.Outcome State Fault Refusal :=
  .next (withRing s (
    if rangeValid s s.operands.a0 s.operands.a1 then
      if s.free < s.operands.a1.toNat then raiseFault .rbOverflow s
      else readSource s fun bs => appendBytes bs s
    else raiseFault .badRange s))

/-- Remove the first `n` held bytes, store `bs` at `dst` and complete (R138, R140). -/
def extractBytes (n : Nat) (bs : Bytes) (dst : Word) (r0 r1 : Word) (s : State) : State :=
  finish .ok r0 r1 Dstat.zero { ringPopN n s with mem := s.mem.writeRange dst.toNat bs }

/-- `RB_DEQ` (R138): the whole destination `(a2, a1)` must be valid. -/
def execRbDeq (s : State) : Host.Outcome State Fault Refusal :=
  .next (withRing s (
    if rangeValid s s.operands.a2 s.operands.a1 then
      match ringBytes s 0 (min s.operands.a1.toNat s.count) with
      | some bs =>
        extractBytes bs.length bs s.operands.a2 (BitVec.ofNat 32 bs.length)
          (BitVec.ofNat 32 (ringPopN bs.length s).count) s
      | none => undefinedRead s
    else raiseFault .badRange s))

/-- `RB_HASSPAN` (R139). The snapshot is every held byte (R57, R58; DEDUCED, log entry 13). -/
def execRbHasspan (d : Byte) (s : State) : Host.Outcome State Fault Refusal :=
  .next (withRing s (
    match heldBytes s with
    | some held =>
      match findSpan d held with
      | some (i, j) => finish .ok 1 (BitVec.ofNat 32 (j - i + 1)) Dstat.zero s
      | none => finish .ok 0 0 Dstat.zero s
    | none => undefinedRead s))

/-- `RB_DEQSPAN` (R140). The snapshot is every held byte (R57, R58; DEDUCED, log entry 13). -/
def execRbDeqspan (d : Byte) (s : State) : Host.Outcome State Fault Refusal :=
  .next (withRing s (
    if rangeValid s s.operands.a2 s.operands.a3 then
      match heldBytes s with
      | some held =>
        match findSpan d held with
        | some (i, j) =>
          if s.operands.a3.toNat < j - i + 1 then
            finish .dstOverflow (BitVec.ofNat 32 (j - i + 1)) (BitVec.ofNat 32 i) Dstat.zero s
          else
            extractBytes (j + 1) ((held.drop i).take (j - i + 1)) s.operands.a2 (BitVec.ofNat 32 (j - i + 1))
              (BitVec.ofNat 32 i) s
        | none => finish .noSpan 0 0 Dstat.zero s
      | none => undefinedRead s
    else raiseFault .badRange s))

end Sys2Proof.Machine
end

