-- ==== Sys2Proof/Machine/Dispatch.lean ====
section
/-! DEFINITION. One arm per command: the engine's performance of it. -/

namespace Sys2Proof.Machine

def exec (i : Instr) (s : State) : Host.Outcome State Fault Refusal :=
  match i with
  | .enc => Sys2Proof.Machine.execEnc s
  | .dec => Sys2Proof.Machine.execDec s
  | .encpkt => Sys2Proof.Machine.execEncpkt s
  | .decpkt => Sys2Proof.Machine.execDecpkt s
  | .crc16 => Sys2Proof.Machine.execCrc16 s
  | .rbInit => Sys2Proof.Machine.execRbInit s
  | .rbEmpty => Sys2Proof.Machine.execRbEmpty s
  | .rbAdd => Sys2Proof.Machine.execRbAdd s
  | .rbDeq => Sys2Proof.Machine.execRbDeq s
  | .rbHasspan d => Sys2Proof.Machine.execRbHasspan d s
  | .rbDeqspan d => Sys2Proof.Machine.execRbDeqspan d s

end Sys2Proof.Machine
end

