-- ==== Sys2Proof/Machine/Engine.lean ====
section
/-! DEFINITION. The engine's step for the pending command (R30, R58): the accepted word decoded and performed, or
`ILLEGAL_CMD` (R75). -/

namespace Sys2Proof.Machine

/-- The engine step of the slot's command `p` (R30, R58, R75, R175 item 1). -/
def engineStep (p : Pending) (s : State) : Host.Outcome State Fault Refusal :=
  match decode p.word with
  | .ok i => exec i s
  | .error _ => .next (raiseFault .illegalCmd s)

/-- A command word `w` put into the slot with its engine step due now, as an accepted write to `CMD` would leave it with a
latency draw of 0 (R22, R210). -/
def placeCommand (w : Word) (s : State) : State :=
  { s with cmd := w, pending := some { word := w, args := ⟨s.arg0, s.arg1, s.arg2, s.arg3⟩, wait := 0 } }

end Sys2Proof.Machine
end

