-- ==== Sys2Proof/Machine/HostBus.lean ====
section
/-! DEFINITION. The host's side of the bus: register accesses (R21, R22, R24, R51), buffer-memory accesses (R52, R57,
R205), their faults (R176, R177), the `wait` line (R79) and the reset input (R200). -/

namespace Sys2Proof.Machine

/-- What the host gets back is put on the bus. -/
def respond (r : Response) (s : State) : State := { s with response := r }

/-- A host access that the block refuses (R176): no effect but `FAULT` and `FCAUSE`. -/
def badAccess (r : Response) (s : State) : State := respond r (recordFault .badAccess s)

/-- A host write to `CMD` (R22): accepted while `BUSY = 0`; else `CMD_WHILE_BUSY`, with no other effect (R177). -/
def hostWriteCmd (w : Word) (s : State) : State :=
  if s.busy then recordFault .cmdWhileBusy s else acceptCommand w s

/-- A host write to a named register (R21, R24): only `CMD` and `ARG0` to `ARG3` take one. -/
def hostWriteReg (r : Reg) (v : Word) (s : State) : State :=
  match r with
  | .cmd => hostWriteCmd v s
  | .arg0 => { s with arg0 := v }
  | .arg1 => { s with arg1 := v }
  | .arg2 => { s with arg2 := v }
  | .arg3 => { s with arg3 := v }
  | .status => recordFault .badAccess s
  | .res0 => recordFault .badAccess s
  | .res1 => recordFault .badAccess s
  | .rbBase => recordFault .badAccess s
  | .rbCap => recordFault .badAccess s
  | .rbHead => recordFault .badAccess s
  | .rbTail => recordFault .badAccess s
  | .rbCount => recordFault .badAccess s
  | .rbFlags => recordFault .badAccess s

/-- The register a register access of `width` bytes at `offset` reaches, if R51 and R21 allow the access at all. -/
def regAccess (width : Nat) (offset : BitVec 6) : Option Reg :=
  if width = 4 then regAt offset else none

/-- A register write (R51, R176). -/
def hostRegWrite (width : Nat) (offset : BitVec 6) (v : Word) (s : State) : State :=
  match regAccess width offset with
  | some r => respond .written (hostWriteReg r v s)
  | none => badAccess .written s

/-- A register read (R51, R59, R176): no side effect; a refused one returns 0. -/
def hostRegRead (width : Nat) (offset : BitVec 6) (s : State) : State :=
  match regAccess width offset with
  | some r => respond (.data (readReg s r)) s
  | none => badAccess (.data 0) s

/-- The model fault of a host access to `M` while `BUSY = 1`, at any address (R205). -/
def noteBusyAccess (s : State) : State :=
  if s.busy then recordModelFault .hostAccessWhileBusy s else s

/-- A buffer-memory write (R52). Refused: `BAD_ACCESS`, nothing stored. While busy: the model fault, and the model stores
nothing (log entries 5 and 6). -/
def hostMemWrite (width addr : Nat) (v : Word) (s : State) : State :=
  if memAccessLegal s width addr then
    if s.busy then respond .written (noteBusyAccess s)
    else respond .written { s with mem := s.mem.writeRange addr (littleEndianBytes v width) }
  else badAccess .written (noteBusyAccess s)

/-- A buffer-memory read (R52). Refused: `BAD_ACCESS`, 0. With an undefined byte: the model fault `UndefinedRead` and no
value (R57). While busy: the model fault and no value (R205). -/
def hostMemRead (width addr : Nat) (s : State) : State :=
  if memAccessLegal s width addr then
    match s.mem.readRange addr width with
    | some bs => respond (if s.busy then .noValue else .data (littleEndianValue bs)) (noteBusyAccess s)
    | none => respond .noValue (recordModelFault .undefinedRead (noteBusyAccess s))
  else badAccess (.data 0) (noteBusyAccess s)

/-- The line `wait` (R79): a read of `STATUS`; the host stays at the line while bit 0 reads 1. -/
def hostWait (rest : List HostEvent) (s : State) : State :=
  respond (.data (statusWord s)) (if s.busy then stayAtWait s else advanceHost rest s)

/-- One host event. The accesses take effect one at a time, in order (R60). -/
def hostStep (s : State) : State :=
  match s.host with
  | [] => s
  | .regWrite width offset v :: rest => hostRegWrite width offset v (advanceHost rest s)
  | .regRead width offset :: rest => hostRegRead width offset (advanceHost rest s)
  | .memWrite width addr v :: rest => hostMemWrite width addr v (advanceHost rest s)
  | .memRead width addr :: rest => hostMemRead width addr (advanceHost rest s)
  | .wait :: rest => hostWait rest s
  | .reset :: rest => resetBlock (advanceHost rest s)

end Sys2Proof.Machine
end

