-- ==== Sys2Proof/Machine/Step.lean ====
section
/-! DEFINITION. One step of the block: the engine's, when a command is pending and its time has come (R58, R210), or else
one host event (R60); a block with neither keeps its state (R186). -/

namespace Sys2Proof.Machine

/-- One step (R20, R58, R60). With an empty slot and no host event it answers the same state (R186; DEDUCED, log entry 15). -/
def step (s : State) : Host.Outcome State Fault Refusal :=
  match s.pending with
  | some p => if engineTurn p s then engineStep p s else .next (hostStep s)
  | none => .next (hostStep s)

/-- `s` with the command word `w` as the engine's next command: the very next step decodes and performs it. The argument
registers are captured as they stand (R22); how a program comes to run from reset is log entry 3. -/
def State.withFetchWord (s : State) (nbits w : Nat) : State :=
  placeCommand (BitVec.ofNat 32 (w % 2 ^ nbits)) s

end Sys2Proof.Machine
end

