-- ==== Sys2Proof/Machine/HostProgram.lean ====
section
/-! DEFINITION. Host programs as the spec writes them: the lines of R79 and the pseudo-instructions of R80 as lists of host
events, the addresses of the accesses on the host bus (R50), and the packet bytes host programs build (R66, R163). The
block itself reads none of this. -/

namespace Sys2Proof.Machine

/-- A line of a host program (R79). `rdSlot` and `cmdWord` are the two forms 95_test_vectors.md P4 uses beside them: a
read of a slot by its offset, and a command word written out. -/
inductive HostLine where
  | wr (r : Reg) (v : Word)
  | rd (r : Reg)
  | sb (addr : Nat) (bs : Bytes)
  | lb (addr : Nat) (n : Nat)
  | cmd (i : Instr)
  | wait
  | rdSlot (offset : BitVec 6)
  | cmdWord (w : Word)
  deriving DecidableEq, Repr

/-- One-byte writes of `bs` at rising addresses, unbounded (R79, `sb`; R9). -/
def byteWrites (addr : Nat) : Bytes → List HostEvent
  | [] => []
  | b :: bs => .memWrite 1 addr (b.setWidth 32) :: byteWrites (addr + 1) bs

/-- `n` one-byte reads at rising addresses, unbounded (R79, `lb`; R9). -/
def byteReads (addr : Nat) : Nat → List HostEvent
  | 0 => []
  | n + 1 => .memRead 1 addr :: byteReads (addr + 1) n

/-- The bus accesses of a line, in order (R79). -/
def HostLine.events : HostLine → List HostEvent
  | .wr r v => [.regWrite 4 r.offset v]
  | .rd r => [.regRead 4 r.offset]
  | .sb addr bs => byteWrites addr bs
  | .lb addr n => byteReads addr n
  | .cmd i => [.regWrite 4 Reg.cmd.offset (encode i)]
  | .wait => [.wait]
  | .rdSlot offset => [.regRead 4 offset]
  | .cmdWord w => [.regWrite 4 Reg.cmd.offset w]

/-- The pseudo-instructions (R80). -/
inductive PseudoInstr where
  | enc (src len dst dcap : Word)
  | dec (src len dst dcap : Word)
  | encpkt (src len dst dcap : Word)
  | decpkt (src len dst dcap : Word)
  | crc16 (src len : Word)
  | rbInit (base cap : Word)
  | rbEmpty
  | rbAdd (src len : Word)
  | rbDeq (dst max : Word)
  | rbHasspan (d : Byte)
  | rbDeqspan (d : Byte) (dst dcap : Word)
  deriving DecidableEq, Repr

/-- Write the operands of a codec command, start it and wait (R80). -/
def codecLines (i : Instr) (src len dst dcap : Word) : List HostLine :=
  [.wr .arg0 src, .wr .arg1 len, .wr .arg2 dst, .wr .arg3 dcap, .cmd i, .wait]

/-- The expansion of a pseudo-instruction (R80). -/
def PseudoInstr.lines : PseudoInstr → List HostLine
  | .enc src len dst dcap => codecLines .enc src len dst dcap
  | .dec src len dst dcap => codecLines .dec src len dst dcap
  | .encpkt src len dst dcap => codecLines .encpkt src len dst dcap
  | .decpkt src len dst dcap => codecLines .decpkt src len dst dcap
  | .crc16 src len => [.wr .arg0 src, .wr .arg1 len, .cmd .crc16, .wait]
  | .rbInit base cap => [.wr .arg0 base, .wr .arg1 cap, .cmd .rbInit, .wait]
  | .rbEmpty => [.cmd .rbEmpty, .wait]
  | .rbAdd src len => [.wr .arg0 src, .wr .arg1 len, .cmd .rbAdd, .wait]
  | .rbDeq dst max => [.wr .arg2 dst, .wr .arg1 max, .cmd .rbDeq, .wait]
  | .rbHasspan d => [.cmd (.rbHasspan d), .wait]
  | .rbDeqspan d dst dcap => [.wr .arg2 dst, .wr .arg3 dcap, .cmd (.rbDeqspan d), .wait]

/-- A host program given to the block: its accesses follow those still to come (log entry 3). -/
def loadProgram (lines : List HostLine) (s : State) : State :=
  { s with host := s.host ++ (lines.map HostLine.events).flatten }

/-- The address of an access on the host bus (R50, R5): the window's base and the offset in it. -/
def HostEvent.busAddress (p : Params) : HostEvent → Option Nat
  | .regWrite _ offset _ => some (p.regBase + offset.toNat)
  | .regRead _ offset => some (p.regBase + offset.toNat)
  | .memWrite _ addr _ => some (p.bufBase + addr)
  | .memRead _ addr => some (p.bufBase + addr)
  | .wait => some (p.regBase + Reg.status.offset.toNat)
  | .reset => none

/-- The packet fields a host program fills in (R66). The place of `error_code` is not stated (N7): a result packet's
program puts it into `payload` (DESIGN CHOICE, log entry 17). -/
structure Packet where
  messageId : Byte
  version : Byte
  oldestCompatibleVersion : Byte
  sequenceId : BitVec 16
  payload : Bytes
  deriving DecidableEq, Repr

/-- The two bytes of a 16-bit field, least significant first. -/
def halfWordBytes (v : BitVec 16) : Bytes := [v.extractLsb' 0 8, v.extractLsb' 8 8]

/-- The two bytes of `sequence_id`, in the order the platform chooses (R66, D41). -/
def sequenceBytes (o : SeqOrder) (v : BitVec 16) : Bytes :=
  match o with
  | .littleEndian => halfWordBytes v
  | .bigEndian => (halfWordBytes v).reverse

/-- Every packet byte after the `crc` field (R66): what the packet's CRC covers (R163). -/
def Packet.body (o : SeqOrder) (p : Packet) : Bytes :=
  [p.messageId, p.version, p.oldestCompatibleVersion] ++ sequenceBytes o p.sequenceId ++ p.payload

/-- The packet's bytes (R66, R163): `crc`, little-endian, then the rest. -/
def Packet.bytes (o : SeqOrder) (p : Packet) : Bytes := halfWordBytes (crc16 (p.body o)) ++ p.body o

end Sys2Proof.Machine
end

