-- ==== Sys2Proof/Safety.lean ====
section
/-! DEFINITION. What counts as a safe run of the block (R32, R211) and the terms the statements are written in: whose turn
it is, what a memory holds, the spans of R132 as a relation, and the invariant of the machine. -/

namespace Sys2Proof.Machine

/-! ### The end of a run -/

/-- The fault record of R32 is empty: no fault in `STATUS`, no model-only fault. -/
def State.faultRecordEmpty (s : State) : Prop := s.fault = false ∧ s.fcause = none ∧ s.modelFaults = []

/-- A run has ended (R211): the host program has performed its last access and `BUSY = 0`. -/
def State.ended (s : State) : Prop := s.host = [] ∧ s.busy = false

/-- A final state (R211). -/
def State.final (s : State) : Prop := s.ended ∧ s.faultRecordEmpty

/-! ### Whose turn it is -/

/-- The engine step of the pending command `p` is next: its latency draw has run out, or the host has no access left. -/
def EngineDue (s : State) (p : Pending) : Prop := s.pending = some p ∧ (p.wait = 0 ∨ s.host = [])

/-- The host event `e` is next, with `rest` after it. -/
def HostDue (s : State) (e : HostEvent) (rest : List HostEvent) : Prop :=
  s.host = e :: rest ∧ ∀ p, s.pending = some p → p.wait ≠ 0

/-- The pending slot after one more host access. -/
def State.slotAfterAccess (s : State) : Option Pending := s.pending.map fun p => { p with wait := p.wait - 1 }

/-- `FCAUSE` after a fault `c` (R174): unchanged if there was one already. -/
def State.fcauseAfter (s : State) (c : FaultCode) : Option FaultCode := if s.fcause = none then some c else s.fcause

/-- The fault completion of R173 with code `c`, written out: no write to `M`, no change to ring state. -/
def State.afterFault (s : State) (c : FaultCode) : State :=
  { s with
    code := .fault c
    res0 := 0
    res1 := 0
    dstat := ⟨false, false, false, false⟩
    fault := true
    fcause := s.fcauseAfter c
    pending := none }

/-- The host accesses R176 refuses, written from R21, R51 and R52. -/
def RefusedAccess (p : Params) : HostEvent → Prop
  | .regRead width offset => width ≠ 4 ∨ offset.toNat % 4 ≠ 0 ∨ offset = 0x38 ∨ offset = 0x3C
  | .regWrite width offset _ =>
    width ≠ 4 ∨ offset.toNat % 4 ≠ 0 ∨ offset = 0x38 ∨ offset = 0x3C ∨ offset = 0x04 ∨ 0x18 ≤ offset.toNat
  | .memRead width addr => ¬(width = 1 ∨ width = 2 ∨ width = 4) ∨ addr % width ≠ 0 ∨ p.memSize < addr + width
  | .memWrite width addr _ => ¬(width = 1 ∨ width = 2 ∨ width = 4) ∨ addr % width ≠ 0 ∨ p.memSize < addr + width
  | .wait => False
  | .reset => False

/-- The event is an access to the buffer memory. -/
def HostEvent.touchesMemory : HostEvent → Prop
  | .memRead _ _ => True
  | .memWrite _ _ _ => True
  | _ => False

/-- What the host sees of a refused access (R176): a read returns 0. -/
def HostEvent.refusedResponse : HostEvent → Response
  | .regRead _ _ => .data 0
  | .memRead _ _ => .data 0
  | _ => .written

/-! ### What a memory holds -/

/-- `M[a..a+|bs|) = bs`, every byte of it defined. -/
def Holds (m : Memory) (a : Nat) (bs : Bytes) : Prop := ∀ k (h : k < bs.length), m.read (a + k) = some bs[k]

/-- Some byte of `M[a..a+n)` is undefined. -/
def UndefinedIn (m : Memory) (a n : Nat) : Prop := ∃ k, k < n ∧ m.read (a + k) = none

/-- From `s` to `t` the model fault `UndefinedRead` is recorded, with no other effect of the command (R57). The slot is left
open here: that the model empties it is log entry 4. -/
def RecordsUndefinedRead (s t : State) : Prop :=
  ∃ record slot, .undefinedRead ∈ record ∧ (∀ f ∈ s.modelFaults, f ∈ record)
    ∧ t = { s with modelFaults := record, pending := slot }

/-- `m'` is `m` with `bs` stored at `a`: the stored bytes read as `bs`, every other address reads as before. -/
def StoredAt (m m' : Memory) (a : Nat) (bs : Bytes) : Prop :=
  Holds m' a bs ∧ ∀ x, x < a ∨ a + bs.length ≤ x → m'.read x = m.read x

/-- The address ranges `[a, a+n)` and `[b, b+k)` have no address in common. -/
def Disjoint (a n b k : Nat) : Prop := a + n ≤ b ∨ b + k ≤ a ∨ n = 0 ∨ k = 0

/-! ### The stuffed form -/

/-- `F` of R102 (b): the number of full blocks of a payload, with `n` literal bytes in the open block. -/
def fullBlocksFrom : (n : Nat) → Bytes → Nat
  | _, [] => 0
  | n, b :: p =>
    if b = 0x00 then fullBlocksFrom 0 p
    else if n + 1 = 254 then fullBlocksFrom 0 p + 1
    else fullBlocksFrom (n + 1) p

/-- The count bytes of a stuffed stream, first one first: each tells where the next one is. -/
def countBytes : (fuel : Nat) → Bytes → List Byte
  | 0, _ => []
  | _ + 1, [] => []
  | fuel + 1, c :: tl => c :: countBytes fuel (tl.drop (c.toNat - 1))

/-! ### Delimited spans -/

/-- `(i, j)` bounds a span of `bs` (R132): consecutive occurrences of `d` at least two apart. -/
def IsSpan (d : Byte) (bs : Bytes) (i j : Nat) : Prop :=
  i + 2 ≤ j ∧ bs[i]? = some d ∧ bs[j]? = some d ∧ ∀ k, i < k → k < j → bs[k]? ≠ some d

/-- The span of R132: the first one in FIFO order. -/
def IsFirstSpan (d : Byte) (bs : Bytes) (i j : Nat) : Prop :=
  IsSpan d bs i j ∧ ∀ i' j', IsSpan d bs i' j' → j ≤ j'

/-! ### The invariant of the machine -/

/-- Memory: canonical, and no address at or above `MEM_SIZE` (R50). -/
def State.memInv (s : State) : Prop := s.mem.wf = true ∧ ∀ c ∈ s.mem, c.1 < s.params.memSize

/-- The ring while `init = 1` (R27, R28, R134, R135): a legal region, indices below the capacity, `full` only with equal
indices, every held byte defined. -/
structure State.RingReady (s : State) : Prop where
  init : s.init = true
  cap_pos : 1 ≤ s.rbCap.toNat
  cap_le : s.rbCap.toNat ≤ s.params.rbCapMax
  region : s.rbBase.toNat + s.rbCap.toNat ≤ s.params.memSize
  head_lt : s.rbHead.toNat < s.rbCap.toNat
  tail_lt : s.rbTail.toNat < s.rbCap.toNat
  full_eq : s.full = true → s.rbHead = s.rbTail
  held : ∀ k, k < s.count → (s.mem.read (ringPos s k)).isSome = true

/-- The ring registers while `init = 0` are at their reset values (R35). -/
structure State.RingUnused (s : State) : Prop where
  init : s.init = false
  base : s.rbBase = 0
  cap : s.rbCap = 0
  head : s.rbHead = 0
  tail : s.rbTail = 0
  full : s.full = false

/-- Status: `FAULT` exactly when `FCAUSE` names a fault (R173, R174, R176, R177); a fault in `CODE` is recorded and is no
host-access fault (R170); the model-only record has no repeats. -/
structure State.StatusInv (s : State) : Prop where
  fault_iff : s.fault = true ↔ s.fcause ≠ none
  code_fault : ∀ c, s.code = .fault c → s.fault = true ∧ c ≠ .badAccess ∧ c ≠ .cmdWhileBusy
  nodup : s.modelFaults.Nodup

/-- The invariant every step keeps: legal parameters, memory, ring, status, and the pending word being `CMD`'s (R22). -/
structure State.Inv (s : State) : Prop where
  params : s.params.legal = true
  mem : s.memInv
  ring : s.RingReady ∨ s.RingUnused
  status : s.StatusInv
  slot : ∀ p, s.pending = some p → p.word = s.cmd

/-! ### Sequences of ring commands -/

/-- The ring of `t` is the ring of `s`: same registers and parameters, same storage bytes. What happens between two ring
commands when nobody writes to ring storage. -/
def SameRing (s t : State) : Prop :=
  t.params = s.params ∧ t.rbBase = s.rbBase ∧ t.rbCap = s.rbCap ∧ t.rbHead = s.rbHead ∧ t.rbTail = s.rbTail
    ∧ t.full = s.full ∧ t.init = s.init
    ∧ ∀ k, k < s.rbCap.toNat → t.mem.read (s.rbBase.toNat + k) = s.mem.read (s.rbBase.toNat + k)

/-- From the ring of `s` to the ring of `t` by `RB_ADD`, `RB_DEQ` and `RB_DEQSPAN` commands that end `OK`, with ring storage
left alone between them and by their destinations (R141): `added` is what all the `RB_ADD`s read; `removed` is what the
others took out, in order: for an `RB_DEQ` what it wrote, for an `RB_DEQSPAN` its discarded prefix, the first `RES1` bytes
the ring held, and the span it wrote. -/
inductive RingRun (s : State) : State → Bytes → Bytes → Prop
  | start : RingRun s s [] []
  | between {t u : State} {added removed : Bytes} : RingRun s t added removed → SameRing t u → RingRun s u added removed
  | add {t u : State} {p : Pending} {added removed src : Bytes} : RingRun s t added removed → t.pending = some p →
      exec .rbAdd t = .next u → u.code = .outcome .ok → u.modelFaults = t.modelFaults →
      src.length = p.args.a1.toNat → Holds t.mem p.args.a0.toNat src →
      RingRun s u (added ++ src) removed
  | deq {t u : State} {p : Pending} {added removed out : Bytes} : RingRun s t added removed → t.pending = some p →
      exec .rbDeq t = .next u → u.code = .outcome .ok → u.modelFaults = t.modelFaults →
      Disjoint p.args.a2.toNat p.args.a1.toNat t.rbBase.toNat t.rbCap.toNat →
      out.length = u.res0.toNat → Holds u.mem p.args.a2.toNat out →
      RingRun s u added (removed ++ out)
  | deqspan {t u : State} {p : Pending} {d : Byte} {added removed held out : Bytes} : RingRun s t added removed →
      t.pending = some p → exec (.rbDeqspan d) t = .next u → u.code = .outcome .ok → u.modelFaults = t.modelFaults →
      Disjoint p.args.a2.toNat p.args.a3.toNat t.rbBase.toNat t.rbCap.toNat →
      heldBytes t = some held → out.length = u.res0.toNat → Holds u.mem p.args.a2.toNat out →
      RingRun s u added (removed ++ held.take u.res1.toNat ++ out)

end Sys2Proof.Machine
end

