-- ==== Sys2Proof/Certificates/Slice0/Obligations.lean ====
section
/-! DEFINITION. The statements for the provers, in the order of the spec's files: encoding, step and reset, the host's side
of the bus, completions and faults, codec, checksum, ring, invariants, ordering and latency. Where a statement needs the
slot, its premise is `s.pending = some p`: the engine never performs a command with an empty slot (R30). -/

open Sys2Proof Sys2Proof.Machine

/-! ### Encoding (30_encoding.md) -/

/-- R70, R74, R76: the decoder reads exactly the words the encoder writes. -/
def Obligations.DecodeInvertsEncode : Prop :=
  ∀ (w : Word) (i : Instr), decode w = .ok i ↔ i.wellFormed = true ∧ encode i = w

/-- R74: the opcode map with its match and mask values, row by row. -/
def Obligations.OpcodeMapMatchesByMask : Prop :=
  ∀ w : Word,
    (decode w = .ok .enc ↔ w = 0x00000001) ∧ (decode w = .ok .dec ↔ w = 0x00000002)
      ∧ (decode w = .ok .encpkt ↔ w = 0x00000003) ∧ (decode w = .ok .decpkt ↔ w = 0x00000004)
      ∧ (decode w = .ok .crc16 ↔ w = 0x00000010) ∧ (decode w = .ok .rbInit ↔ w = 0x00000020)
      ∧ (decode w = .ok .rbEmpty ↔ w = 0x00000021) ∧ (decode w = .ok .rbAdd ↔ w = 0x00000022)
      ∧ (decode w = .ok .rbDeq ↔ w = 0x00000023)
      ∧ (∀ d, decode w = .ok (.rbHasspan d) ↔ w &&& 0xFFFF00FF = 0x00000024 ∧ w.extractLsb' 8 8 = d)
      ∧ (∀ d, decode w = .ok (.rbDeqspan d) ↔ w &&& 0xFFFF00FF = 0x00000025 ∧ w.extractLsb' 8 8 = d)

/-- R75: which words are illegal; an illegal word is accepted like any other, and its engine step ends `ILLEGAL_CMD`,
changing nothing else. -/
def Obligations.IllegalWordsFaultAndChangeNothingElse : Prop :=
  (∀ w : Word, (∃ e, decode w = .error e) ↔
      (w.extractLsb' 0 8 ∉ ([0x01, 0x02, 0x03, 0x04, 0x10, 0x20, 0x21, 0x22, 0x23, 0x24, 0x25] : List Byte)
        ∨ w.extractLsb' 16 16 ≠ (0 : BitVec 16)
        ∨ (w.extractLsb' 0 8 ≠ (0x24 : Byte) ∧ w.extractLsb' 0 8 ≠ (0x25 : Byte) ∧ w.extractLsb' 8 8 ≠ (0 : Byte))))
    ∧ (∀ (s : State) (w : Word) (rest : List HostEvent) (e : DecodeError), decode w = .error e →
        s.pending = none → s.host = .regWrite 4 0x00 w :: rest →
        ∃ n, step s = .next { s with
          cmd := w
          pending := some { word := w, args := ⟨s.arg0, s.arg1, s.arg2, s.arg3⟩, wait := n }
          draws := s.draws + 1
          host := rest
          response := .written })
    ∧ (∀ (s : State) (p : Pending) (e : DecodeError), EngineDue s p → decode p.word = .error e →
        step s = .next { s with
            code := .fault .illegalCmd
            res0 := 0
            res1 := 0
            dstat := ⟨false, false, false, false⟩
            fault := true
            fcause := s.fcauseAfter .illegalCmd
            pending := none })

/-- R74, R75: some command words written out bit by bit. -/
def Obligations.SampleWordsDecode : Prop :=
  decode 0b00000000000000000000000000000001 = .ok .enc ∧ decode 0b00000000000000000000000000000100 = .ok .decpkt
    ∧ decode 0b00000000000000000000000000010000 = .ok .crc16 ∧ decode 0b00000000000000000000000000100010 = .ok .rbAdd
    ∧ decode 0b00000000000000000100000100100100 = .ok (.rbHasspan 0x41)
    ∧ decode 0b00000000000000000000000000100101 = .ok (.rbDeqspan 0x00)
    ∧ decode 0b00000000000000000000000000000000 = .error .unknownOpcode
    ∧ decode 0b00000000000000000000000100000001 = .error .delimiterNotZero
    ∧ decode 0b00000000000000010000000000000001 = .error .reservedNotZero

/-! ### Step and reset (10_state.md, 70_reset_and_hazards.md) -/

/-- R30, R58, R60, R210, R186: when the pending command's draw has run out the step is the engine's and performs the decoded
command; before that, and with an empty slot, it is the host's next access; an idle block keeps all state. -/
def Obligations.StepRunsTheDecodedCommand : Prop :=
  (∀ (s : State) (p : Pending) (i : Instr), EngineDue s p → decode p.word = .ok i → step s = exec i s)
    ∧ (∀ (s : State) (e : HostEvent) (rest : List HostEvent), HostDue s e rest → step s = .next (hostStep s))
    ∧ (∀ s : State, s.pending = none → s.host = [] → step s = .next s)

/-- R174, 93_implementation_defined.md section 2 ("No behaviour of the block is stuck"): the machine always goes on. -/
def Obligations.EveryStepGoesOn : Prop := ∀ s : State, ∃ t, step s = .next t

/-- R35: the reset value of every piece of state, for any parameters. -/
def Obligations.ResetLeavesTheListedValues : Prop :=
  ∀ (p : Params) (s : State), s = State.resetWith p →
    (∀ r : Reg, readReg s r = if r = .rbFlags then 0x00000002 else 0x00000000)
      ∧ (s.busy = false ∧ s.fault = false ∧ s.code.bits = 0x00 ∧ fcauseBits s.fcause = 0x00
          ∧ s.dstat = ⟨false, false, false, false⟩)
      ∧ (s.full = false ∧ s.init = false) ∧ s.pending = none
      ∧ (∀ a, s.mem.read a = none) ∧ s.faultRecordEmpty

/-- R200: the reset input puts every piece of the block's state to its reset value, abandoning a pending command. That the
host's further events and the draw counter are kept is the model's choice (log entry 10). -/
def Obligations.ResetInputAbandonsThePendingCommand : Prop :=
  ∀ (s : State) (rest : List HostEvent), HostDue s .reset rest →
    step s = .next { State.resetWith s.params with host := rest, draws := s.draws }

/-! ### The host's side of the bus (10_state.md, 20_memory.md, 60_exceptions.md) -/

/-- R21, R59: a 32-bit read at each of the fourteen offsets returns that register and has no side effect. -/
def Obligations.RegisterReadsReturnTheMap : Prop :=
  ∀ (s : State) (offset : BitVec 6) (v : Word) (rest : List HostEvent), HostDue s (.regRead 4 offset) rest →
    (offset, v) ∈ ([(0x00, s.cmd), (0x04, statusWord s), (0x08, s.arg0), (0x0C, s.arg1), (0x10, s.arg2), (0x14, s.arg3),
      (0x18, s.res0), (0x1C, s.res1), (0x20, s.rbBase), (0x24, s.rbCap), (0x28, s.rbHead), (0x2C, s.rbTail),
      (0x30, if s.init then BitVec.ofNat 32 s.count else 0), (0x34, rbFlagsWord s)] : List (BitVec 6 × Word)) →
    step s = .next { s with host := rest, pending := s.slotAfterAccess, response := .data v }

/-- R23, R170: the fields of the `STATUS` word, and the numbers of the codes in it. -/
def Obligations.StatusWordHoldsItsFields : Prop :=
  ∀ s : State,
    (statusWord s).getLsbD 0 = s.pending.isSome ∧ (statusWord s).getLsbD 1 = s.fault
      ∧ (statusWord s).extractLsb' 2 6 = (0 : BitVec 6)
      ∧ (statusWord s).extractLsb' 8 8 = (match s.code with
          | .outcome .ok => 0x00 | .outcome .decodingFailed => 0x01 | .outcome .dstOverflow => 0x02
          | .outcome .noSpan => 0x03 | .fault .rbOverflow => 0x10 | .fault .badRange => 0x11 | .fault .rbUninit => 0x12
          | .fault .badCap => 0x13 | .fault .illegalCmd => 0x14 | .fault .badAccess => 0x15
          | .fault .cmdWhileBusy => (0x16 : Byte))
      ∧ (statusWord s).extractLsb' 16 8 = (match s.fcause with
          | none => 0x00 | some .rbOverflow => 0x10 | some .badRange => 0x11 | some .rbUninit => 0x12
          | some .badCap => 0x13 | some .illegalCmd => 0x14 | some .badAccess => 0x15
          | some .cmdWhileBusy => (0x16 : Byte))
      ∧ (statusWord s).getLsbD 24 = s.dstat.dzero ∧ (statusWord s).getLsbD 25 = s.dstat.dtrunc
      ∧ (statusWord s).getLsbD 26 = s.dstat.dframe ∧ (statusWord s).getLsbD 27 = s.dstat.dshort
      ∧ (statusWord s).extractLsb' 28 4 = (0 : BitVec 4)

/-- R29: `RB_FLAGS` bit by bit, and its reset value. -/
def Obligations.RingFlagsWordHoldsItsBits : Prop :=
  (∀ s : State,
    ((rbFlagsWord s).getLsbD 0 = true ↔ s.full = true)
      ∧ ((rbFlagsWord s).getLsbD 1 = true ↔ s.init = false ∨ (s.rbHead = s.rbTail ∧ s.full = false))
      ∧ ((rbFlagsWord s).getLsbD 2 = true ↔ s.init = true)
      ∧ (rbFlagsWord s).extractLsb' 3 29 = (0 : BitVec 29))
    ∧ ∀ p, rbFlagsWord (State.resetWith p) = 0x00000002

/-- R22, R30: a write to `CMD` while `BUSY = 0` accepts the word, sets `BUSY` and captures the arguments; nothing else of
the block changes. (The wait drawn with it is free, R210.) -/
def Obligations.CmdWriteWhileIdleIsAccepted : Prop :=
  ∀ (s : State) (w : Word) (rest : List HostEvent), s.pending = none → s.host = .regWrite 4 0x00 w :: rest →
    ∃ n, step s = .next { s with
      cmd := w
      pending := some { word := w, args := ⟨s.arg0, s.arg1, s.arg2, s.arg3⟩, wait := n }
      draws := s.draws + 1
      host := rest
      response := .written }

/-- R177: a write to `CMD` while `BUSY = 1` is not accepted: the pending command and `CMD` are unaffected, `FAULT` is set
and `FCAUSE` if it was `0x00`. -/
def Obligations.CmdWriteWhileBusyIsRefused : Prop :=
  ∀ (s : State) (p : Pending) (w : Word) (rest : List HostEvent), s.pending = some p →
    HostDue s (.regWrite 4 0x00 w) rest →
    step s = .next { s with
      fault := true
      fcause := s.fcauseAfter .cmdWhileBusy
      host := rest
      pending := some { p with wait := p.wait - 1 }
      response := .written }

/-- R24, R207: `ARG0` to `ARG3` take a write at any time, and a write while `BUSY = 1` leaves the captured values alone. -/
def Obligations.ArgumentWritesTakeEffectAtAnyTime : Prop :=
  ∀ (s : State) (v : Word) (rest : List HostEvent),
    (HostDue s (.regWrite 4 0x08 v) rest →
      step s = .next { s with arg0 := v, host := rest, pending := s.slotAfterAccess, response := .written })
    ∧ (HostDue s (.regWrite 4 0x0C v) rest →
      step s = .next { s with arg1 := v, host := rest, pending := s.slotAfterAccess, response := .written })
    ∧ (HostDue s (.regWrite 4 0x10 v) rest →
      step s = .next { s with arg2 := v, host := rest, pending := s.slotAfterAccess, response := .written })
    ∧ (HostDue s (.regWrite 4 0x14 v) rest →
      step s = .next { s with arg3 := v, host := rest, pending := s.slotAfterAccess, response := .written })

/-- R176: a forbidden access has no effect on registers or `M`, returns 0 if it is a read, sets `FAULT`, and `FCAUSE` if it
was `0x00`; `CODE`, `RES0`, `RES1`, `DSTAT` are not changed. (For an access to `M` while `BUSY = 1`, which is the hazard of
R205 too, that `BAD_ACCESS` is recorded, and the model fault beside it, is log entry 6.) -/
def Obligations.RefusedAccessesRecordBadAccess : Prop :=
  ∀ (s : State) (e : HostEvent) (rest : List HostEvent), HostDue s e rest → RefusedAccess s.params e →
    ∃ record, (s.pending = none ∨ ¬e.touchesMemory → record = s.modelFaults)
      ∧ step s = .next { s with
          fault := true
          fcause := s.fcauseAfter .badAccess
          modelFaults := record
          host := rest
          pending := s.slotAfterAccess
          response := e.refusedResponse }

/-- R52: a legal buffer-memory write stores the low bytes of the value, least significant first, and changes nothing
else. -/
def Obligations.HostWriteStoresLittleEndian : Prop :=
  ∀ (s : State) (width addr : Nat) (v : Word) (rest : List HostEvent), s.pending = none →
    s.host = .memWrite width addr v :: rest → ¬RefusedAccess s.params (.memWrite width addr v) →
    ∃ m, step s = .next { s with mem := m, host := rest, response := .written }
      ∧ StoredAt s.mem m addr
          (([v.extractLsb' 0 8, v.extractLsb' 8 8, v.extractLsb' 16 8, v.extractLsb' 24 8] : Bytes).take width)

/-- R52, R59: a legal buffer-memory read of defined bytes returns them, least significant first, zero above them, and
changes nothing. -/
def Obligations.HostReadReturnsLittleEndian : Prop :=
  ∀ (s : State) (width addr : Nat) (bs : Bytes) (rest : List HostEvent), s.pending = none →
    s.host = .memRead width addr :: rest → ¬RefusedAccess s.params (.memRead width addr) →
    bs.length = width → Holds s.mem addr bs →
    ∃ v, step s = .next { s with host := rest, response := .data v }
      ∧ ∀ k : Nat, k < 4 → v.extractLsb' (8 * k) 8 = bs.getD k 0

/-- R56: a 4-byte write and then a 1-byte read of any of its bytes. -/
def Obligations.ByteReadSeesWordWrite : Prop :=
  ∀ (s : State) (addr : Nat) (v : Word) (k : Nat), k < 4 → s.pending = none → addr % 4 = 0 →
    addr + 4 ≤ s.params.memSize →
    s.host = [.memWrite 4 addr v, .memRead 1 (addr + k)] →
    ∃ t, Sys2Proof.core.run 2 s = .next t ∧ t.response = .data ((v.extractLsb' (8 * k) 8).setWidth 32)

/-- R205, R178: a host access to `M` while `BUSY = 1` records `HostAccessWhileBusy`, and changes nothing else of the block but,
if R176 refuses it as well, `FAULT` and `FCAUSE` (log entry 6). That the model stores nothing and returns no value for a
legal one is its own choice (log entry 5). -/
def Obligations.MemoryAccessWhileBusyIsRecorded : Prop :=
  ∀ (s : State) (p : Pending) (e : HostEvent) (rest : List HostEvent), s.pending = some p → HostDue s e rest →
    e.touchesMemory →
    ∃ record fault fcause answer, .hostAccessWhileBusy ∈ record ∧ (∀ f ∈ s.modelFaults, f ∈ record)
      ∧ (¬RefusedAccess s.params e → fault = s.fault ∧ fcause = s.fcause ∧ ∀ v, answer ≠ .data v)
      ∧ (RefusedAccess s.params e → fault = true ∧ fcause = s.fcauseAfter .badAccess ∧ answer = e.refusedResponse)
      ∧ step s = .next { s with
          modelFaults := record
          fault := fault
          fcause := fcause
          host := rest
          pending := some { p with wait := p.wait - 1 }
          response := answer }

/-- R57: a host read that includes an undefined byte records `UndefinedRead` and gives no value; nothing else changes. -/
def Obligations.HostReadOfUndefinedByteIsRecorded : Prop :=
  ∀ (s : State) (width addr : Nat) (rest : List HostEvent), s.pending = none →
    s.host = .memRead width addr :: rest → ¬RefusedAccess s.params (.memRead width addr) →
    UndefinedIn s.mem addr width →
    ∃ record, .undefinedRead ∈ record ∧ (∀ f ∈ s.modelFaults, f ∈ record)
      ∧ step s = .next { s with modelFaults := record, host := rest, response := .noValue }

/-! ### Completions and faults (60_exceptions.md) -/

/-- R172, R173, R57: a command ends in one of three ways: a fault completion, which writes no memory and no ring state; the
model fault of an undefined byte, with no other effect (the emptied slot is log entry 4); a non-fault completion, which
leaves `FAULT`, `FCAUSE` and the model's record alone and clears `DSTAT` unless the command is `DEC` or `DECPKT`. -/
def Obligations.CommandsEndInOneOfThreeWays : Prop :=
  ∀ (i : Instr) (s t : State), exec i s = .next t →
    (∃ c, t = { s with
        code := .fault c
        res0 := 0
        res1 := 0
        dstat := ⟨false, false, false, false⟩
        fault := true
        fcause := s.fcauseAfter c
        pending := none })
      ∨ (∃ record, .undefinedRead ∈ record ∧ (∀ f ∈ s.modelFaults, f ∈ record)
          ∧ t = { s with modelFaults := record, pending := none })
      ∨ ((∃ c, t.code = .outcome c) ∧ t.fault = s.fault ∧ t.fcause = s.fcause ∧ t.modelFaults = s.modelFaults
          ∧ t.pending = none ∧ (i = .dec ∨ i = .decpkt ∨ t.dstat = ⟨false, false, false, false⟩))

/-- R170, the column "commands": each code comes only from the commands the table names for it. `BAD_ACCESS` and
`CMD_WHILE_BUSY` come from none. -/
def Obligations.CodesComeOnlyFromTheirCommands : Prop :=
  ∀ (i : Instr) (s t : State), exec i s = .next t → t.code ≠ s.code →
    (t.code = .outcome .decodingFailed → i = .dec ∨ i = .decpkt)
      ∧ (t.code = .outcome .dstOverflow → i = .enc ∨ i = .dec ∨ i = .encpkt ∨ i = .decpkt ∨ ∃ d, i = .rbDeqspan d)
      ∧ (t.code = .outcome .noSpan → ∃ d, i = .rbDeqspan d)
      ∧ (t.code = .fault .rbOverflow → i = .rbAdd)
      ∧ (t.code = .fault .badRange →
          i = .enc ∨ i = .dec ∨ i = .encpkt ∨ i = .decpkt ∨ i = .crc16 ∨ i = .rbAdd ∨ i = .rbDeq ∨ ∃ d, i = .rbDeqspan d)
      ∧ (t.code = .fault .rbUninit →
          i = .rbEmpty ∨ i = .rbAdd ∨ i = .rbDeq ∨ (∃ d, i = .rbHasspan d) ∨ ∃ d, i = .rbDeqspan d)
      ∧ (t.code = .fault .badCap → i = .rbInit)
      ∧ t.code ≠ .fault .illegalCmd ∧ t.code ≠ .fault .badAccess ∧ t.code ≠ .fault .cmdWhileBusy

/-- R24, R22, R30, R31: no engine step writes `CMD` or an argument register, and each empties the slot (after `UndefinedRead`
that is log entry 4); the commands with no destination change no byte of `M`. -/
def Obligations.CommandsLeaveHostRegistersAlone : Prop :=
  ∀ (i : Instr) (s t : State), exec i s = .next t →
    t.params = s.params ∧ t.cmd = s.cmd ∧ t.arg0 = s.arg0 ∧ t.arg1 = s.arg1 ∧ t.arg2 = s.arg2 ∧ t.arg3 = s.arg3
      ∧ t.host = s.host ∧ t.response = s.response ∧ t.draws = s.draws ∧ t.pending = none
      ∧ (i = .crc16 ∨ i = .rbInit ∨ i = .rbEmpty ∨ (∃ d, i = .rbHasspan d) → ∀ a, t.mem.read a = s.mem.read a)

/-- R27: the ring registers are written only by ring commands and reset; and not by `RB_EMPTY` or `RB_HASSPAN` (R136,
R139). -/
def Obligations.RingStateChangesOnlyByRingCommands : Prop :=
  ∀ s t : State, step s = .next t →
    ¬(t.rbBase = s.rbBase ∧ t.rbCap = s.rbCap ∧ t.rbHead = s.rbHead ∧ t.rbTail = s.rbTail ∧ t.full = s.full
        ∧ t.init = s.init) →
    (∃ p i, EngineDue s p ∧ decode p.word = .ok i
        ∧ (i = .rbInit ∨ i = .rbAdd ∨ i = .rbDeq ∨ ∃ d, i = .rbDeqspan d))
      ∨ ∃ rest, HostDue s .reset rest

/-- R23 (its last sentence), R206: between acceptance and completion no host access but reset changes a result. -/
def Obligations.ResultsChangeOnlyAtCompletion : Prop :=
  ∀ (s t : State) (e : HostEvent) (rest : List HostEvent), HostDue s e rest → e ≠ .reset → step s = .next t →
    t.code = s.code ∧ t.dstat = s.dstat ∧ t.res0 = s.res0 ∧ t.res1 = s.res1 ∧ t.rbBase = s.rbBase ∧ t.rbCap = s.rbCap
      ∧ t.rbHead = s.rbHead ∧ t.rbTail = s.rbTail ∧ t.full = s.full ∧ t.init = s.init

/-- R174, R32: `FAULT` is sticky, `FCAUSE` keeps the first fault and no model fault is forgotten, in every step but the
reset input's. -/
def Obligations.FaultRecordIsStickyUntilReset : Prop :=
  ∀ s t : State, (∀ rest, ¬HostDue s .reset rest) → step s = .next t →
    (s.fault = true → t.fault = true) ∧ (∀ c, s.fcause = some c → t.fcause = some c)
      ∧ ∀ f ∈ s.modelFaults, f ∈ t.modelFaults

/-- R175: the order of causes, cause by cause. (What is left of the slot after `UndefinedRead` is log entry 4, so no clause says
it.) -/
def Obligations.FirstCauseInPriorityOrderIsReported : Prop :=
  (∀ (s : State) (p : Pending) (e : DecodeError), EngineDue s p → decode p.word = .error e →
      step s = .next (s.afterFault .illegalCmd))
    ∧ (∀ (s : State) (i : Instr), s.init = false →
        (i = .rbEmpty ∨ i = .rbAdd ∨ i = .rbDeq ∨ (∃ d, i = .rbHasspan d) ∨ ∃ d, i = .rbDeqspan d) →
        exec i s = .next (s.afterFault .rbUninit))
    ∧ (∀ (s : State) (p : Pending) (i : Instr), s.pending = some p →
        (((i = .enc ∨ i = .dec ∨ i = .encpkt ∨ i = .decpkt ∨ i = .crc16 ∨ (i = .rbAdd ∧ s.init = true))
              ∧ s.params.memSize < p.args.a0.toNat + p.args.a1.toNat)
          ∨ ((i = .enc ∨ i = .dec ∨ i = .encpkt ∨ i = .decpkt ∨ ((∃ d, i = .rbDeqspan d) ∧ s.init = true))
              ∧ s.params.memSize < p.args.a2.toNat + p.args.a3.toNat)
          ∨ (i = .rbDeq ∧ s.init = true ∧ s.params.memSize < p.args.a2.toNat + p.args.a1.toNat)) →
        exec i s = .next (s.afterFault .badRange))
    ∧ (∀ (s : State) (p : Pending), s.pending = some p →
        (p.args.a1.toNat < 1 ∨ s.params.rbCapMax < p.args.a1.toNat
          ∨ s.params.memSize < p.args.a0.toNat + p.args.a1.toNat) →
        exec .rbInit s = .next (s.afterFault .badCap))
    ∧ (∀ (s : State) (p : Pending), s.pending = some p → s.init = true →
        p.args.a0.toNat + p.args.a1.toNat ≤ s.params.memSize → s.free < p.args.a1.toNat →
        exec .rbAdd s = .next (s.afterFault .rbOverflow))
    ∧ (∀ (s : State) (p : Pending) (i : Instr), s.pending = some p →
        p.args.a0.toNat + p.args.a1.toNat ≤ s.params.memSize → UndefinedIn s.mem p.args.a0.toNat p.args.a1.toNat →
        (i = .crc16
          ∨ ((i = .enc ∨ i = .dec ∨ i = .encpkt ∨ i = .decpkt)
              ∧ p.args.a2.toNat + p.args.a3.toNat ≤ s.params.memSize)
          ∨ (i = .rbAdd ∧ s.init = true ∧ p.args.a1.toNat ≤ s.free)) →
        ∃ t, exec i s = .next t ∧ RecordsUndefinedRead s t)
    ∧ (∀ (s : State) (p : Pending) (input : Bytes), s.pending = some p →
        p.args.a0.toNat + p.args.a1.toNat ≤ s.params.memSize → p.args.a2.toNat + p.args.a3.toNat ≤ s.params.memSize →
        input.length = p.args.a1.toNat → Holds s.mem p.args.a0.toNat input →
        (p.args.a3.toNat < (decodeRaw input).out.length →
          ∃ t, exec .dec s = .next t ∧ t.code = .outcome .dstOverflow)
        ∧ ((packetDecode input).ok = false → ∃ t, exec .decpkt s = .next t ∧ t.code = .outcome .decodingFailed))
    ∧ (∀ (s : State) (p : Pending) (d : Byte) (held : Bytes), s.pending = some p → s.init = true →
        p.args.a2.toNat + p.args.a3.toNat ≤ s.params.memSize → heldBytes s = some held → (∀ i j, ¬IsSpan d held i j) →
        ∃ t, exec (.rbDeqspan d) s = .next t ∧ t.code = .outcome .noSpan)

/-! ### Codec (40_codec.md) -/

/-- R100: the block equations that determine `EncodeRaw`: a final block, a block ended by a delimiter, a full block. -/
def Obligations.EncodeRawFollowsItsBlocks : Prop :=
  (∀ blk : Bytes, 0x00 ∉ blk → blk.length ≤ 253 → encodeRaw blk = BitVec.ofNat 8 (blk.length + 1) :: blk)
    ∧ (∀ blk p : Bytes, 0x00 ∉ blk → blk.length ≤ 253 →
        encodeRaw (blk ++ 0x00 :: p) = BitVec.ofNat 8 (blk.length + 1) :: blk ++ encodeRaw p)
    ∧ (∀ blk p : Bytes, 0x00 ∉ blk → blk.length = 254 → encodeRaw (blk ++ p) = 0xFF :: blk ++ encodeRaw p)

/-- R101: the block equations that determine `DecodeRaw`: the end of input, a zero count byte, a truncated block, a whole
block at the end, a whole block with input after it. -/
def Obligations.DecodeRawFollowsItsBlocks : Prop :=
  decodeRaw [] = ⟨[], .ended, 0, false⟩
    ∧ (∀ rest : Bytes, decodeRaw (0x00 :: rest) = ⟨[], .zero, 0, false⟩)
    ∧ (∀ (c : Byte) (tl : Bytes), c ≠ 0x00 → tl.length < c.toNat - 1 →
        decodeRaw (c :: tl) = ⟨tl, .trunc, tl.length + 1, false⟩)
    ∧ (∀ (c : Byte) (lits : Bytes), c ≠ 0x00 → lits.length = c.toNat - 1 →
        decodeRaw (c :: lits) = ⟨lits, .ended, lits.length + 1, false⟩)
    ∧ (∀ (c : Byte) (lits : Bytes) (b : Byte) (rest : Bytes), c ≠ 0x00 → lits.length = c.toNat - 1 →
        decodeRaw (c :: lits ++ b :: rest) =
          { out := lits ++ (if c = 0xFF then [] else [0x00]) ++ (decodeRaw (b :: rest)).out
            outcome := (decodeRaw (b :: rest)).outcome
            stop := lits.length + 1 + (decodeRaw (b :: rest)).stop
            artifact := if b = 0x00 then !decide (c = 0xFF) else (decodeRaw (b :: rest)).artifact })

/-- R102 (a): the output block stream has no delimiter bytes in it at all. -/
def Obligations.EncodedStreamHasNoDelimiter : Prop := ∀ p : Bytes, 0x00 ∉ encodeRaw p

/-- R102 (b): the length of the stuffed stream, and the bound on the number of full blocks. -/
def Obligations.EncodedLengthCountsFullBlocks : Prop :=
  ∀ p : Bytes, (encodeRaw p).length = p.length + 1 + fullBlocksFrom 0 p ∧ fullBlocksFrom 0 p ≤ p.length / 254

/-- R102 (c): the raw round trip, for every length. -/
def Obligations.RawRoundTrip : Prop :=
  ∀ p : Bytes, ∃ a, decodeRaw (encodeRaw p) = ⟨p, .ended, (encodeRaw p).length, a⟩

/-- R102 (d), (e): with the closing delimiter appended, the decoder re-inserts one delimiter after the final block, which
is never a full block, and then stops on the closing delimiter. -/
def Obligations.RoundTripWithClosingDelimiter : Prop :=
  ∀ p : Bytes,
    decodeRaw (encodeRaw p ++ [0x00]) = ⟨p ++ [0x00], .zero, (encodeRaw p).length, true⟩
      ∧ ∃ c, (countBytes (encodeRaw p).length (encodeRaw p)).getLast? = some c ∧ c ≠ 0x00 ∧ c ≠ 0xFF

/-- R106: a frame is accepted exactly when the raw decoder stopped on a zero at the last input byte just after re-inserting
a delimiter, and what is left without that delimiter is at least a `FrameHeader` long: the byte dropped is never a packet
byte. The four status bits and the raw length of every input; a rejected frame gives no packet. -/
def Obligations.AcceptedFramesLoseOnlyTheArtifact : Prop :=
  (∀ input pkt : Bytes,
    ((packetDecode input).ok = true ∧ (packetDecode input).pkt = pkt) ↔
      (2 ≤ pkt.length ∧ decodeRaw input = ⟨pkt ++ [0x00], .zero, input.length - 1, true⟩ ∧ input ≠ []))
    ∧ ∀ (input out pkt : Bytes) (oc : DecodeOutcome) (stop r : Nat) (art ok dzero dtrunc dframe dshort : Bool),
      decodeRaw input = ⟨out, oc, stop, art⟩ →
      packetDecode input = ⟨ok, pkt, r, ⟨dzero, dtrunc, dframe, dshort⟩⟩ →
      (dzero = true ↔ oc = .zero) ∧ (dtrunc = true ↔ oc = .trunc)
        ∧ (dframe = true ↔ dtrunc = false ∧ (oc = .ended ∨ stop + 1 ≠ input.length ∨ art = false))
        ∧ (dshort = true ↔ dtrunc = false ∧ dframe = false ∧ out.length ≤ 2)
        ∧ (ok = true ↔ dtrunc = false ∧ dframe = false ∧ dshort = false)
        ∧ r = out.length ∧ (ok = true → pkt = out.dropLast) ∧ (ok = false → pkt = [])

/-- R108, at the level of the transforms: the frame round trip. -/
def Obligations.FrameRoundTrip : Prop :=
  ∀ p : Bytes,
    (2 ≤ p.length → packetDecode (encodeRaw p ++ [0x00]) =
      { ok := true, pkt := p, rawLength := p.length + 1, dstat := ⟨true, false, false, false⟩ })
    ∧ (p.length < 2 → packetDecode (encodeRaw p ++ [0x00]) =
      { ok := false, pkt := [], rawLength := p.length + 1, dstat := ⟨true, false, false, true⟩ })

/-- R108, command by command: `ENCPKT` makes a frame from a packet, and `DECPKT` over that frame without its leading
delimiter delivers the packet when it has at least two bytes, and ends `DECODING_FAILED` with `DSHORT` when it has not. -/
def Obligations.FrameRoundTripThroughCommands : Prop :=
  ∀ (s u : State) (p q : Pending) (pkt : Bytes), s.pending = some p →
    pkt.length = p.args.a1.toNat → Holds s.mem p.args.a0.toNat pkt →
    p.args.a0.toNat + p.args.a1.toNat ≤ s.params.memSize → p.args.a2.toNat + p.args.a3.toNat ≤ s.params.memSize →
    (encodeRaw pkt).length + 2 ≤ p.args.a3.toNat →
    ∃ t, exec .encpkt s = .next t ∧ t.code = .outcome .ok ∧
      (u.mem = t.mem → u.params = s.params → u.pending = some q →
        q.args.a0.toNat = p.args.a2.toNat + 1 → q.args.a1.toNat = t.res0.toNat - 1 →
        q.args.a2.toNat + q.args.a3.toNat ≤ s.params.memSize →
        (2 ≤ pkt.length → pkt.length ≤ q.args.a3.toNat →
          ∃ v, exec .decpkt u = .next v ∧ v.code = .outcome .ok ∧ v.res0.toNat = pkt.length
            ∧ Holds v.mem q.args.a2.toNat pkt)
        ∧ (pkt.length < 2 →
          ∃ v, exec .decpkt u = .next v ∧ v.code = .outcome .decodingFailed ∧ v.dstat.dshort = true ∧ v.mem = u.mem))

/-- R103: `ENC` on every valid range of defined bytes. Nothing is written when the stuffed output does not fit; else it goes
to the prefix of the destination, and nothing else of `M` changes. (`RES0` of an output of 2^32 bytes or more is free, log
entry 7.) -/
def Obligations.EncDeliversTheStuffedPayload : Prop :=
  decode 0x00000001 = .ok .enc
    ∧ ∀ (s : State) (p : Pending), s.pending = some p →
      (s.params.memSize < p.args.a0.toNat + p.args.a1.toNat ∨ s.params.memSize < p.args.a2.toNat + p.args.a3.toNat →
        exec .enc s = .next (s.afterFault .badRange))
      ∧ (p.args.a0.toNat + p.args.a1.toNat ≤ s.params.memSize → p.args.a2.toNat + p.args.a3.toNat ≤ s.params.memSize →
        (UndefinedIn s.mem p.args.a0.toNat p.args.a1.toNat → ∃ t, exec .enc s = .next t ∧ RecordsUndefinedRead s t)
        ∧ ∀ src : Bytes, src.length = p.args.a1.toNat → Holds s.mem p.args.a0.toNat src →
          ∃ r : Word, ((encodeRaw src).length < 2 ^ 32 → r.toNat = (encodeRaw src).length)
            ∧ (p.args.a3.toNat < (encodeRaw src).length →
                exec .enc s = .next { s with
                    code := .outcome .dstOverflow
                    res0 := r
                    res1 := 0
                    dstat := ⟨false, false, false, false⟩
                    pending := none })
            ∧ ((encodeRaw src).length ≤ p.args.a3.toNat →
                ∃ m, exec .enc s = .next { s with
                    code := .outcome .ok
                    res0 := r
                    res1 := 0
                    dstat := ⟨false, false, false, false⟩
                    pending := none
                    mem := m }
                  ∧ StoredAt s.mem m p.args.a2.toNat (encodeRaw src)))

/-- R104: `DEC`. "Everything decoded so far" is delivered on a failure too; `DST_OVERFLOW` takes precedence and leaves the
decoder status. -/
def Obligations.DecDeliversEverythingDecodedSoFar : Prop :=
  decode 0x00000002 = .ok .dec
    ∧ ∀ (s : State) (p : Pending), s.pending = some p →
      (s.params.memSize < p.args.a0.toNat + p.args.a1.toNat ∨ s.params.memSize < p.args.a2.toNat + p.args.a3.toNat →
        exec .dec s = .next (s.afterFault .badRange))
      ∧ (p.args.a0.toNat + p.args.a1.toNat ≤ s.params.memSize → p.args.a2.toNat + p.args.a3.toNat ≤ s.params.memSize →
        (UndefinedIn s.mem p.args.a0.toNat p.args.a1.toNat → ∃ t, exec .dec s = .next t ∧ RecordsUndefinedRead s t)
        ∧ ∀ (src out : Bytes) (oc : DecodeOutcome) (stop : Nat) (art : Bool), src.length = p.args.a1.toNat →
          Holds s.mem p.args.a0.toNat src → decodeRaw src = ⟨out, oc, stop, art⟩ →
          ∃ r0 r1 : Word, r0.toNat = out.length ∧ r1.toNat = stop
            ∧ (p.args.a3.toNat < out.length →
                exec .dec s = .next { s with
                    code := .outcome .dstOverflow
                    res0 := r0
                    res1 := r1
                    dstat := ⟨decide (oc = .zero), decide (oc = .trunc), false, false⟩
                    pending := none })
            ∧ (out.length ≤ p.args.a3.toNat →
                ∃ m, exec .dec s = .next { s with
                    code := .outcome (if oc = .ended then .ok else .decodingFailed)
                    res0 := r0
                    res1 := r1
                    dstat := ⟨decide (oc = .zero), decide (oc = .trunc), false, false⟩
                    pending := none
                    mem := m }
                  ∧ StoredAt s.mem m p.args.a2.toNat out))

/-- R105: `ENCPKT`: leading delimiter, stuffed body, trailing delimiter. -/
def Obligations.EncpktDeliversTheFrame : Prop :=
  decode 0x00000003 = .ok .encpkt
    ∧ ∀ (s : State) (p : Pending), s.pending = some p →
      (s.params.memSize < p.args.a0.toNat + p.args.a1.toNat ∨ s.params.memSize < p.args.a2.toNat + p.args.a3.toNat →
        exec .encpkt s = .next (s.afterFault .badRange))
      ∧ (p.args.a0.toNat + p.args.a1.toNat ≤ s.params.memSize → p.args.a2.toNat + p.args.a3.toNat ≤ s.params.memSize →
        (UndefinedIn s.mem p.args.a0.toNat p.args.a1.toNat → ∃ t, exec .encpkt s = .next t ∧ RecordsUndefinedRead s t)
        ∧ ∀ src : Bytes, src.length = p.args.a1.toNat → Holds s.mem p.args.a0.toNat src →
          ∃ r : Word, ((encodeRaw src).length + 2 < 2 ^ 32 → r.toNat = (encodeRaw src).length + 2)
            ∧ (p.args.a3.toNat < (encodeRaw src).length + 2 →
                exec .encpkt s = .next { s with
                    code := .outcome .dstOverflow
                    res0 := r
                    res1 := 0
                    dstat := ⟨false, false, false, false⟩
                    pending := none })
            ∧ ((encodeRaw src).length + 2 ≤ p.args.a3.toNat →
                ∃ m, exec .encpkt s = .next { s with
                    code := .outcome .ok
                    res0 := r
                    res1 := 0
                    dstat := ⟨false, false, false, false⟩
                    pending := none
                    mem := m }
                  ∧ StoredAt s.mem m p.args.a2.toNat (0x00 :: encodeRaw src ++ [0x00])))

/-- R107: `DECPKT`. A rejected frame writes nothing and leaves `RES0 = 0`; a packet that does not fit writes nothing. -/
def Obligations.DecpktDeliversThePacket : Prop :=
  decode 0x00000004 = .ok .decpkt
    ∧ ∀ (s : State) (p : Pending), s.pending = some p →
      (s.params.memSize < p.args.a0.toNat + p.args.a1.toNat ∨ s.params.memSize < p.args.a2.toNat + p.args.a3.toNat →
        exec .decpkt s = .next (s.afterFault .badRange))
      ∧ (p.args.a0.toNat + p.args.a1.toNat ≤ s.params.memSize → p.args.a2.toNat + p.args.a3.toNat ≤ s.params.memSize →
        (UndefinedIn s.mem p.args.a0.toNat p.args.a1.toNat → ∃ t, exec .decpkt s = .next t ∧ RecordsUndefinedRead s t)
        ∧ ∀ (src pkt : Bytes) (ok : Bool) (r : Nat) (d : Dstat), src.length = p.args.a1.toNat →
          Holds s.mem p.args.a0.toNat src → packetDecode src = ⟨ok, pkt, r, d⟩ →
          ∃ r0 r1 : Word, r0.toNat = pkt.length ∧ r1.toNat = r
            ∧ (ok = false → exec .decpkt s = .next { s with
                code := .outcome .decodingFailed
                res0 := 0
                res1 := r1
                dstat := d
                pending := none })
            ∧ (ok = true → p.args.a3.toNat < pkt.length → exec .decpkt s = .next { s with
                code := .outcome .dstOverflow
                res0 := r0
                res1 := r1
                dstat := d
                pending := none })
            ∧ (ok = true → pkt.length ≤ p.args.a3.toNat →
                ∃ m, exec .decpkt s = .next { s with
                    code := .outcome .ok
                    res0 := r0
                    res1 := r1
                    dstat := d
                    pending := none
                    mem := m }
                  ∧ StoredAt s.mem m p.args.a2.toNat pkt))

/-- R34: what a codec command answers and stores depends only on its operands and the bytes of `M` it reads: two blocks
that differ in everything else give the same answers and the same destination bytes. (The free `RES0` of an output of 2^32
bytes or more, log entry 7, is a value of the operands and the output.) -/
def Obligations.CodecDependsOnlyOnOperandsAndSource : Prop :=
  ∀ (i : Instr) (s s' : State) (p p' : Pending) (src : Bytes), i = .enc ∨ i = .dec ∨ i = .encpkt ∨ i = .decpkt →
    s.pending = some p → s'.pending = some p' → p'.args = p.args → s'.params = s.params →
    src.length = p.args.a1.toNat → Holds s.mem p.args.a0.toNat src → Holds s'.mem p.args.a0.toNat src →
    ∃ t t', exec i s = .next t ∧ exec i s' = .next t' ∧ t'.code = t.code ∧ t'.res0 = t.res0 ∧ t'.res1 = t.res1
      ∧ t'.dstat = t.dstat
      ∧ ∀ a, t.mem.read a = s.mem.read a ∧ t'.mem.read a = s'.mem.read a ∨ t'.mem.read a = t.mem.read a

/-! ### Checksum (42_checksum.md) -/

/-- R161 with R160: `CRC16` in every case, its result bit by bit from R160's loop; no state but the results changes. -/
def Obligations.Crc16AnswersTheChecksum : Prop :=
  decode 0x00000010 = .ok .crc16
    ∧ ∀ (s : State) (p : Pending), s.pending = some p →
      (s.params.memSize < p.args.a0.toNat + p.args.a1.toNat → exec .crc16 s = .next (s.afterFault .badRange))
      ∧ (p.args.a0.toNat + p.args.a1.toNat ≤ s.params.memSize →
        (UndefinedIn s.mem p.args.a0.toNat p.args.a1.toNat → ∃ t, exec .crc16 s = .next t ∧ RecordsUndefinedRead s t)
        ∧ ∀ data : Bytes, data.length = p.args.a1.toNat → Holds s.mem p.args.a0.toNat data →
          exec .crc16 s = .next { s with
              code := .outcome .ok
              res0 := (data.foldl (fun crc b =>
                (fun c : BitVec 16 => if c.getLsbD 0 then (c >>> 1) ^^^ 0xA001 else c >>> 1)^[8]
                  (crc ^^^ b.setWidth 16)) (0xFFFF : BitVec 16)).setWidth 32
              res1 := 0
              dstat := ⟨false, false, false, false⟩
              pending := none })

/-- R162: two `CRC16` commands over ranges that hold the same bytes give the same `RES0`, whatever else differs. -/
def Obligations.Crc16IsDeterminedByItsBytes : Prop :=
  ∀ (s s' : State) (p p' : Pending) (data : Bytes), s.pending = some p → s'.pending = some p' →
    p.args.a0.toNat + p.args.a1.toNat ≤ s.params.memSize → p'.args.a0.toNat + p'.args.a1.toNat ≤ s'.params.memSize →
    data.length = p.args.a1.toNat → data.length = p'.args.a1.toNat →
    Holds s.mem p.args.a0.toNat data → Holds s'.mem p'.args.a0.toNat data →
    ∃ t t', exec .crc16 s = .next t ∧ exec .crc16 s' = .next t' ∧ t'.res0 = t.res0

/-- A property of R160's loop, with its byte step (log entry 11): data followed by its own CRC, least significant byte first,
has CRC 0. (A packet of R66 is not such data: its CRC stands first.) -/
def Obligations.CrcOfDataAndItsCrcIsZero : Prop :=
  ∀ data : Bytes, crc16 (data ++ [(crc16 data).extractLsb' 0 8, (crc16 data).extractLsb' 8 8]) = 0

/-! ### Ring buffer (41_ringbuffer.md) -/

/-- R135: `RB_INIT` in every case. A region that ends at `MEM_SIZE` is accepted; the storage bytes are not changed. -/
def Obligations.RbInitStartsAnEmptyRing : Prop :=
  decode 0x00000020 = .ok .rbInit
    ∧ ∀ (s : State) (p : Pending), s.pending = some p →
      (p.args.a1.toNat < 1 ∨ s.params.rbCapMax < p.args.a1.toNat ∨ s.params.memSize < p.args.a0.toNat + p.args.a1.toNat →
        exec .rbInit s = .next (s.afterFault .badCap))
      ∧ (1 ≤ p.args.a1.toNat → p.args.a1.toNat ≤ s.params.rbCapMax →
        p.args.a0.toNat + p.args.a1.toNat ≤ s.params.memSize →
        ∃ t, exec .rbInit s = .next t
          ∧ t = { s with
              rbBase := p.args.a0
              rbCap := p.args.a1
              rbHead := 0
              rbTail := 0
              full := false
              init := true
              code := .outcome .ok
              res0 := 0
              res1 := 0
              dstat := ⟨false, false, false, false⟩
              pending := none }
          ∧ t.count = 0 ∧ rbFlagsWord t = 0x00000006)

/-- R136: `RB_EMPTY` in every case; ring state and memory unchanged. -/
def Obligations.RbEmptyAnswersEmptinessAndCount : Prop :=
  decode 0x00000021 = .ok .rbEmpty
    ∧ ∀ (s : State) (p : Pending), s.pending = some p →
      (s.init = false → exec .rbEmpty s = .next (s.afterFault .rbUninit))
      ∧ (s.RingReady →
        ∃ r1 : Word, r1.toNat = s.count
          ∧ exec .rbEmpty s = .next { s with
              code := .outcome .ok
              res0 := if s.rbHead = s.rbTail ∧ s.full = false then 1 else 0
              res1 := r1
              dstat := ⟨false, false, false, false⟩
              pending := none })

/-- R28: `count`, `free`, `empty` and `full` agree with each other, and `RB_COUNT` reads `count`. -/
def Obligations.RingCountAgreesWithItsFlags : Prop :=
  (∀ s : State, s.RingReady →
    s.count ≤ s.rbCap.toNat ∧ (s.full = true ↔ s.count = s.rbCap.toNat) ∧ (s.empty = true ↔ s.count = 0)
      ∧ (s.empty = true ↔ s.rbHead = s.rbTail ∧ s.full = false)
      ∧ s.free + s.count = s.rbCap.toNat
      ∧ (s.full = false → s.rbTail.toNat ≤ s.rbHead.toNat → s.count = s.rbHead.toNat - s.rbTail.toNat)
      ∧ (s.full = false → s.rbHead.toNat < s.rbTail.toNat →
          s.count = s.rbHead.toNat + s.rbCap.toNat - s.rbTail.toNat)
      ∧ (readReg s .rbCount).toNat = s.count)
    ∧ ∀ s : State, s.init = false → readReg s .rbCount = 0

/-- R131: `Push` and `Pop` on the registers, on memory and on the queue of held bytes: `Push` appends one byte, `Pop` removes
the oldest, the ring stays well formed, and `full` is 1 exactly when the ring holds `RB_CAP` bytes. -/
def Obligations.PushAndPopActOnTheQueue : Prop :=
  (∀ (s : State) (b : Byte) (held : Bytes), s.RingReady → s.count < s.rbCap.toNat → heldBytes s = some held →
      (ringPush b s).RingReady ∧ heldBytes (ringPush b s) = some (held ++ [b])
        ∧ (ringPush b s).count = s.count + 1
        ∧ ((ringPush b s).full = true ↔ s.count + 1 = s.rbCap.toNat)
        ∧ (ringPush b s).rbHead.toNat = (s.rbHead.toNat + 1) % s.rbCap.toNat ∧ (ringPush b s).rbTail = s.rbTail
        ∧ StoredAt s.mem (ringPush b s).mem (s.rbBase.toNat + s.rbHead.toNat) [b])
    ∧ (∀ (s : State) (b : Byte) (held : Bytes), s.RingReady → heldBytes s = some (b :: held) →
      s.mem.read (s.rbBase.toNat + s.rbTail.toNat) = some b
        ∧ (ringPop s).RingReady ∧ heldBytes (ringPop s) = some held ∧ (ringPop s).count + 1 = s.count
        ∧ (ringPop s).rbTail.toNat = (s.rbTail.toNat + 1) % s.rbCap.toNat ∧ (ringPop s).rbHead = s.rbHead
        ∧ (ringPop s).full = false ∧ (ringPop s).mem = s.mem)

/-- R137: `RB_ADD` in every case. The held bytes grow by the source at their end; outside the storage positions it fills,
memory is unchanged. -/
def Obligations.RbAddAppendsTheSource : Prop :=
  decode 0x00000022 = .ok .rbAdd
    ∧ ∀ (s : State) (p : Pending), s.pending = some p →
      (s.init = false → exec .rbAdd s = .next (s.afterFault .rbUninit))
      ∧ (s.init = true → s.params.memSize < p.args.a0.toNat + p.args.a1.toNat →
          exec .rbAdd s = .next (s.afterFault .badRange))
      ∧ (s.init = true → p.args.a0.toNat + p.args.a1.toNat ≤ s.params.memSize → s.free < p.args.a1.toNat →
          exec .rbAdd s = .next (s.afterFault .rbOverflow))
      ∧ ∀ src held : Bytes, s.RingReady → p.args.a0.toNat + p.args.a1.toNat ≤ s.params.memSize →
          p.args.a1.toNat ≤ s.free → src.length = p.args.a1.toNat → Holds s.mem p.args.a0.toNat src →
          heldBytes s = some held →
          ∃ (t : State) (m : Memory) (head r1 : Word) (full : Bool), exec .rbAdd s = .next t
            ∧ t = { s with
                mem := m
                rbHead := head
                full := full
                code := .outcome .ok
                res0 := p.args.a1
                res1 := r1
                dstat := ⟨false, false, false, false⟩
                pending := none }
            ∧ head.toNat = (s.rbHead.toNat + src.length) % s.rbCap.toNat
            ∧ r1.toNat = s.count + src.length ∧ t.count = s.count + src.length
            ∧ (full = true ↔ s.count + src.length = s.rbCap.toNat)
            ∧ heldBytes t = some (held ++ src)
            ∧ ∀ a, (∀ k, k < src.length → a ≠ ringPos s (s.count + k)) → m.read a = s.mem.read a

/-- R138: `RB_DEQ` in every case. It delivers the oldest `min max count` bytes; when the destination is clear of ring
storage, the rest of the ring stays. -/
def Obligations.RbDeqDeliversTheOldestBytes : Prop :=
  decode 0x00000023 = .ok .rbDeq
    ∧ ∀ (s : State) (p : Pending), s.pending = some p →
      (s.init = false → exec .rbDeq s = .next (s.afterFault .rbUninit))
      ∧ (s.init = true → s.params.memSize < p.args.a2.toNat + p.args.a1.toNat →
          exec .rbDeq s = .next (s.afterFault .badRange))
      ∧ ∀ held : Bytes, s.RingReady → p.args.a2.toNat + p.args.a1.toNat ≤ s.params.memSize → heldBytes s = some held →
          ∃ (t : State) (m : Memory) (tail r0 r1 : Word), exec .rbDeq s = .next t
            ∧ t = { s with
                mem := m
                rbTail := tail
                full := s.full && p.args.a1 == 0
                code := .outcome .ok
                res0 := r0
                res1 := r1
                dstat := ⟨false, false, false, false⟩
                pending := none }
            ∧ r0.toNat = min p.args.a1.toNat s.count ∧ r1.toNat + r0.toNat = s.count ∧ t.count = r1.toNat
            ∧ tail.toNat = (s.rbTail.toNat + r0.toNat) % s.rbCap.toNat
            ∧ StoredAt s.mem m p.args.a2.toNat (held.take p.args.a1.toNat)
            ∧ (Disjoint p.args.a2.toNat p.args.a1.toNat s.rbBase.toNat s.rbCap.toNat →
                heldBytes t = some (held.drop p.args.a1.toNat))

/-- R132: `FindSpan` finds the first span in FIFO order, and none exactly when there is none. -/
def Obligations.FindSpanFindsTheFirstSpan : Prop :=
  ∀ (d : Byte) (held : Bytes),
    (∀ i j, findSpan d held = some (i, j) ↔ IsFirstSpan d held i j)
      ∧ (findSpan d held = none ↔ ∀ i j, ¬IsSpan d held i j)

/-- R139: `RB_HASSPAN` in every case, for every delimiter; ring state and memory unchanged. -/
def Obligations.RbHasspanAnswersWhetherASpanExists : Prop :=
  ∀ d : Byte, decode (0x00000024 ||| (d.setWidth 32 <<< 8)) = .ok (.rbHasspan d)
    ∧ ∀ (s : State) (p : Pending), s.pending = some p →
      (s.init = false → exec (.rbHasspan d) s = .next (s.afterFault .rbUninit))
      ∧ ∀ held : Bytes, s.RingReady → heldBytes s = some held →
        ((∀ i j, ¬IsSpan d held i j) →
            exec (.rbHasspan d) s = .next { s with
                code := .outcome .ok
                res0 := 0
                res1 := 0
                dstat := ⟨false, false, false, false⟩
                pending := none })
        ∧ ∀ i j, IsFirstSpan d held i j →
            ∃ r1 : Word, r1.toNat = j - i + 1
              ∧ exec (.rbHasspan d) s = .next { s with
                  code := .outcome .ok
                  res0 := 1
                  res1 := r1
                  dstat := ⟨false, false, false, false⟩
                  pending := none }

/-- R140: `RB_DEQSPAN` in every case, for every delimiter. -/
def Obligations.RbDeqspanDeliversTheFirstSpan : Prop :=
  ∀ d : Byte, decode (0x00000025 ||| (d.setWidth 32 <<< 8)) = .ok (.rbDeqspan d)
    ∧ ∀ (s : State) (p : Pending), s.pending = some p →
      (s.init = false → exec (.rbDeqspan d) s = .next (s.afterFault .rbUninit))
      ∧ (s.init = true → s.params.memSize < p.args.a2.toNat + p.args.a3.toNat →
          exec (.rbDeqspan d) s = .next (s.afterFault .badRange))
      ∧ ∀ held : Bytes, s.RingReady → p.args.a2.toNat + p.args.a3.toNat ≤ s.params.memSize → heldBytes s = some held →
        ((∀ i j, ¬IsSpan d held i j) →
            exec (.rbDeqspan d) s = .next { s with
                code := .outcome .noSpan
                res0 := 0
                res1 := 0
                dstat := ⟨false, false, false, false⟩
                pending := none })
        ∧ ∀ i j, IsFirstSpan d held i j →
            ∃ r0 r1 : Word, r0.toNat = j - i + 1 ∧ r1.toNat = i
              ∧ (p.args.a3.toNat < j - i + 1 →
                  exec (.rbDeqspan d) s = .next { s with
                      code := .outcome .dstOverflow
                      res0 := r0
                      res1 := r1
                      dstat := ⟨false, false, false, false⟩
                      pending := none })
              ∧ (j - i + 1 ≤ p.args.a3.toNat →
                  ∃ (t : State) (m : Memory) (tail : Word), exec (.rbDeqspan d) s = .next t
                    ∧ t = { s with
                        mem := m
                        rbTail := tail
                        full := false
                        code := .outcome .ok
                        res0 := r0
                        res1 := r1
                        dstat := ⟨false, false, false, false⟩
                        pending := none }
                    ∧ tail.toNat = (s.rbTail.toNat + (j + 1)) % s.rbCap.toNat ∧ t.count + (j + 1) = s.count
                    ∧ StoredAt s.mem m p.args.a2.toNat ((held.drop i).take (j - i + 1))
                    ∧ (Disjoint p.args.a2.toNat p.args.a3.toNat s.rbBase.toNat s.rbCap.toNat →
                        heldBytes t = some (held.drop (j + 1))))

/-- R134: in a ring as the invariant has it, every held byte is defined, so no ring command meets `UndefinedRead` through
its ring storage. -/
def Obligations.RingStorageReadsAreDefined : Prop :=
  ∀ (s t : State) (i : Instr), s.RingReady →
    (i = .rbInit ∨ i = .rbEmpty ∨ i = .rbDeq ∨ (∃ d, i = .rbHasspan d) ∨ ∃ d, i = .rbDeqspan d) →
    exec i s = .next t → t.modelFaults = s.modelFaults

/-- R141: bytes dequeued equal bytes added, in order. From an empty ring, whatever `RB_ADD`, `RB_DEQ` and `RB_DEQSPAN` commands
end `OK` with ring storage left alone, what was added is what was removed followed by what the ring holds: so what was
removed is a prefix of what was added, and all of it once the ring is empty; an `RB_DEQSPAN` removes the next run of the
same stream, its discarded prefix and its span. -/
def Obligations.RingIsAFifoQueue : Prop :=
  ∀ (s t : State) (added removed : Bytes), s.RingReady → s.count = 0 → RingRun s t added removed →
    t.RingReady ∧ ∃ held, heldBytes t = some held ∧ added = removed ++ held ∧ held.length = t.count

/-- R142: when the ring holds a frame made by `ENCPKT` and then anything, `RB_DEQSPAN` with the codec's delimiter delivers
exactly that frame and leaves the rest. -/
def Obligations.FramesLeaveTheRingWhole : Prop :=
  ∀ (s : State) (p : Pending) (pkt rest : Bytes), s.pending = some p → s.RingReady →
    heldBytes s = some (0x00 :: encodeRaw pkt ++ [0x00] ++ rest) →
    p.args.a2.toNat + p.args.a3.toNat ≤ s.params.memSize → (encodeRaw pkt).length + 2 ≤ p.args.a3.toNat →
    Disjoint p.args.a2.toNat p.args.a3.toNat s.rbBase.toNat s.rbCap.toNat →
    ∃ t, exec (.rbDeqspan 0x00) s = .next t ∧ t.code = .outcome .ok ∧ t.res0.toNat = (encodeRaw pkt).length + 2
      ∧ t.res1 = 0 ∧ Holds t.mem p.args.a2.toNat (0x00 :: encodeRaw pkt ++ [0x00]) ∧ heldBytes t = some rest

/-! ### Invariants -/

/-- The state after reset meets the invariant, for every legal choice of the parameters. `State.reset` is that state with the
example parameters, which are the model's choice (log entry 1). -/
def Obligations.ResetMeetsTheInvariant : Prop :=
  (∀ p : Params, p.legal = true → (State.resetWith p).Inv) ∧ State.reset = State.resetWith Params.sample ∧ State.reset.Inv

/-- The headline invariant: every step from a state that meets it leads to a state that meets it. -/
def Obligations.EveryStepKeepsTheInvariant : Prop :=
  ∀ s t : State, s.Inv → step s = .next t → t.Inv

/-! ### Ordering and latency (20_memory.md, 70_reset_and_hazards.md) -/

/-- R210, R30: a pending command is performed within as many steps as its draw, plus one, whatever the host does, unless the
reset input abandons it (R200), which empties the slot too. When no reset is to come, the engine step is due after at most
as many steps as the draw, with the word and the arguments captured at acceptance, and the step after them is it. (Log
entries 2 and 8: when the engine moves; 4: the slot after `UndefinedRead`.) -/
def Obligations.PendingCommandCompletes : Prop :=
  ∀ (s : State) (p : Pending), s.pending = some p →
    (∃ n t, n ≤ p.wait + 1 ∧ Sys2Proof.core.run n s = .next t ∧ t.pending = none)
      ∧ (.reset ∉ s.host →
        ∃ n w t u, n ≤ p.wait ∧ Sys2Proof.core.run n s = .next t ∧ EngineDue t { p with wait := w }
          ∧ Sys2Proof.core.run (n + 1) s = .next u ∧ u.pending = none
          ∧ (∀ i, decode p.word = .ok i → exec i t = .next u)
          ∧ (∀ e, decode p.word = .error e → u = t.afterFault .illegalCmd))

/-- R79, R60, R61, R212: the line `wait`. With an empty slot it answers `STATUS` and changes nothing of the block; with a
command pending whose draw has not run out it answers `STATUS`, counts one access and stays; and a host that waits sees
the command's whole effect, the same whatever the draw: after `wait` the state is what the command makes of the state
before it. (Log entries 2: the draw; 16: `wait` as one event that stays; 4: the slot after `UndefinedRead`.) -/
def Obligations.WaitYieldsTheResultWhateverTheLatency : Prop :=
  ∀ (s : State) (rest : List HostEvent), s.host = .wait :: rest →
    (s.pending = none → step s = .next { s with host := rest, response := .data (statusWord s) })
      ∧ ∀ p, s.pending = some p →
        (p.wait ≠ 0 →
          step s = .next { s with pending := some { p with wait := p.wait - 1 }, response := .data (statusWord s) })
        ∧ (∀ i u, decode p.word = .ok i → exec i s = .next u →
          Sys2Proof.core.run (p.wait + 2) s = .next { u with host := rest, response := .data (statusWord u) })
        ∧ (∀ e, decode p.word = .error e →
          Sys2Proof.core.run (p.wait + 2) s = .next { s.afterFault .illegalCmd with
            host := rest
            response := .data (statusWord (s.afterFault .illegalCmd)) })
end

