-- ==== Sys2Proof/Laws/Memory.lean ====
section
/-! SUPPORT. The laws of the buffer memory: read after write, the canonical form, ranges. -/

namespace Sys2Proof.Machine

@[simp] theorem Memory.read_nil (a : Nat) : Memory.read [] a = none := rfl

/-- A stored byte reads back. -/
@[simp] theorem Memory.read_write_same (m : Memory) (a : Nat) (b : Byte) : (m.write a b).read a = some b := by
  induction m with
  | nil => simp [Memory.write, Memory.read]
  | cons c m ih =>
    unfold Memory.write
    split
    · simp [Memory.read]
    · split
      · simp [Memory.read]
      · simp only [Memory.read]
        rw [if_neg (by omega), ih]

/-- A store leaves every other address alone. -/
theorem Memory.read_write_other (m : Memory) {a x : Nat} (b : Byte) (h : x ≠ a) : (m.write a b).read x = m.read x := by
  induction m with
  | nil => simp [Memory.write, Memory.read]; omega
  | cons c m ih =>
    unfold Memory.write
    split
    · simp only [Memory.read]; rw [if_neg (by omega)]
    · split
      · simp only [Memory.read]; rw [if_neg (by omega), if_neg (by omega)]
      · simp only [Memory.read, ih]

/-- A store adds its own address and no other. -/
theorem Memory.mem_write {m : Memory} {a : Nat} {b : Byte} {c : Host.Cell} (h : c ∈ m.write a b) : c = (a, b) ∨ c ∈ m := by
  induction m with
  | nil => simpa [Memory.write] using h
  | cons d m ih =>
    unfold Memory.write at h
    split at h
    · simp only [List.mem_cons] at h ⊢; tauto
    · split at h
      · simp only [List.mem_cons] at h ⊢; tauto
      · simp only [List.mem_cons] at h ⊢
        rcases h with h | h
        · tauto
        · rcases ih h with h | h <;> tauto

/-- A store keeps the canonical form. -/
theorem Memory.wf_write {m : Memory} (a : Nat) (b : Byte) (h : m.wf = true) : (m.write a b).wf = true := by
  induction m with
  | nil => simp [Memory.write, Memory.wf]
  | cons c m ih =>
    simp only [Memory.wf, Bool.and_eq_true, List.all_eq_true, decide_eq_true_eq] at h
    unfold Memory.write
    split
    · simp only [Memory.wf, Bool.and_eq_true, List.all_eq_true, decide_eq_true_eq, List.mem_cons]
      refine ⟨?_, h.1, h.2⟩
      rintro x (rfl | hx)
      · assumption
      · have := h.1 x hx; omega
    · split
      · simp only [Memory.wf, Bool.and_eq_true, List.all_eq_true, decide_eq_true_eq]
        refine ⟨fun x hx => ?_, h.2⟩
        have := h.1 x hx; omega
      · simp only [Memory.wf, Bool.and_eq_true, List.all_eq_true, decide_eq_true_eq]
        refine ⟨fun x hx => ?_, ih h.2⟩
        rcases Memory.mem_write hx with rfl | hx
        · simp only; omega
        · exact h.1 x hx

/-- The canonical form is kept by storing a sequence. -/
theorem Memory.wf_writeRange {m : Memory} (a : Nat) (bs : Bytes) (h : m.wf = true) : (m.writeRange a bs).wf = true := by
  induction bs generalizing m a with
  | nil => exact h
  | cons b bs ih => exact ih _ (Memory.wf_write a b h)

/-- Storing a sequence adds no address outside it. -/
theorem Memory.mem_writeRange {m : Memory} {a : Nat} {bs : Bytes} {c : Host.Cell} (h : c ∈ m.writeRange a bs) :
    c ∈ m ∨ (a ≤ c.1 ∧ c.1 < a + bs.length) := by
  induction bs generalizing m a with
  | nil => exact .inl h
  | cons b bs ih =>
    rcases ih h with h | h
    · rcases Memory.mem_write h with rfl | h
      · right; simp
      · exact .inl h
    · right; simp only [List.length_cons]; omega

/-- What `MemWrite` does (R10): the stored bytes read as the sequence, every other address reads as before. -/
theorem Memory.storedAt_writeRange (m : Memory) (a : Nat) (bs : Bytes) : StoredAt m (m.writeRange a bs) a bs := by
  induction bs generalizing m a with
  | nil => exact ⟨fun k h => absurd h (by simp), fun _ _ => rfl⟩
  | cons b bs ih =>
    obtain ⟨h1, h2⟩ := ih (m.write a b) (a + 1)
    refine ⟨fun k hk => ?_, fun x hx => ?_⟩
    · rcases k with _ | k
      · have := h2 a (by omega)
        simpa [Memory.writeRange] using this
      · have := h1 k (by simpa using hk)
        rw [show a + (k + 1) = a + 1 + k by omega]
        simpa [Memory.writeRange] using this
    · simp only [List.length_cons] at hx
      have := h2 x (by omega)
      rw [Memory.writeRange, this, Memory.read_write_other _ _ (by omega)]

/-- What `MemRead` does (R10, R57): it answers the bytes of the range when every one is defined. -/
theorem Memory.readRange_eq_some {m : Memory} {a n : Nat} {bs : Bytes} :
    m.readRange a n = some bs ↔ bs.length = n ∧ Holds m a bs := by
  induction n generalizing a bs with
  | zero =>
    simp only [Memory.readRange, Option.some.injEq]
    constructor
    · rintro rfl; exact ⟨rfl, fun k h => absurd h (by simp)⟩
    · rintro ⟨h, -⟩; exact (List.eq_nil_of_length_eq_zero h).symm
  | succ n ih =>
    rw [Memory.readRange]
    constructor
    · intro h
      split at h
      · rename_i b bs' h1 h2
        simp only [Option.some.injEq] at h
        subst h
        obtain ⟨h3, h4⟩ := ih.1 h2
        refine ⟨by simp [h3], fun k hk => ?_⟩
        rcases k with _ | k
        · simpa using h1
        · have := h4 k (by simpa using hk)
          rw [show a + (k + 1) = a + 1 + k by omega]; simpa using this
      · cases h
    · rintro ⟨h1, h2⟩
      rcases bs with _ | ⟨b, bs⟩
      · simp at h1
      · have hb := h2 0 (by simp)
        have hr : m.readRange (a + 1) n = some bs := by
          refine ih.2 ⟨by simpa using h1, fun k hk => ?_⟩
          have := h2 (k + 1) (by simpa using hk)
          rw [show a + 1 + k = a + (k + 1) by omega]; simpa using this
        simp at hb
        rw [hb, hr]

/-- `MemRead` answers no bytes exactly when one of the range is undefined (R57). -/
theorem Memory.readRange_eq_none {m : Memory} {a n : Nat} : m.readRange a n = none ↔ UndefinedIn m a n := by
  induction n generalizing a with
  | zero => simp [Memory.readRange, UndefinedIn]
  | succ n ih =>
    rw [Memory.readRange]
    constructor
    · intro h
      split at h
      · cases h
      · rename_i h'
        cases hb : m.read a with
        | none => exact ⟨0, by omega, by simpa using hb⟩
        | some b =>
          cases hr : m.readRange (a + 1) n with
          | some bs => exact absurd hr (h' b bs hb)
          | none =>
            obtain ⟨k, hk, hu⟩ := ih.1 hr
            exact ⟨k + 1, by omega, by rw [show a + (k + 1) = a + 1 + k by omega]; exact hu⟩
    · rintro ⟨k, hk, hu⟩
      rcases k with _ | k
      · simp at hu; simp [hu]
      · have : m.readRange (a + 1) n = none :=
          ih.2 ⟨k, by omega, by rw [show a + 1 + k = a + (k + 1) by omega]; exact hu⟩
        rw [this]; simp

/-- Two sequences a memory holds at one address, of one length, are the same. -/
theorem Holds.unique {m : Memory} {a : Nat} {bs cs : Bytes} (hb : Holds m a bs) (hc : Holds m a cs)
    (h : bs.length = cs.length) : bs = cs := by
  refine List.ext_getElem h fun k h1 h2 => ?_
  have := (hb k h1).symm.trans (hc k h2)
  simpa using this

end Sys2Proof.Machine
end

