-- ==== Sys2Proof/Laws/State.lean ====
section
/-! SUPPORT. What each update of the state leaves in each field: one lemma per field per update, so that no later proof
unfolds a record update. -/

namespace Sys2Proof.Machine

/-! ### `finish` -/

@[simp] theorem finish_params (c : OutcomeCode) (r0 r1 : Word) (d : Dstat) (s : State) :
    (finish c r0 r1 d s).params = s.params := rfl
@[simp] theorem finish_cmd (c : OutcomeCode) (r0 r1 : Word) (d : Dstat) (s : State) :
    (finish c r0 r1 d s).cmd = s.cmd := rfl
@[simp] theorem finish_arg0 (c : OutcomeCode) (r0 r1 : Word) (d : Dstat) (s : State) :
    (finish c r0 r1 d s).arg0 = s.arg0 := rfl
@[simp] theorem finish_arg1 (c : OutcomeCode) (r0 r1 : Word) (d : Dstat) (s : State) :
    (finish c r0 r1 d s).arg1 = s.arg1 := rfl
@[simp] theorem finish_arg2 (c : OutcomeCode) (r0 r1 : Word) (d : Dstat) (s : State) :
    (finish c r0 r1 d s).arg2 = s.arg2 := rfl
@[simp] theorem finish_arg3 (c : OutcomeCode) (r0 r1 : Word) (d : Dstat) (s : State) :
    (finish c r0 r1 d s).arg3 = s.arg3 := rfl
@[simp] theorem finish_code (c : OutcomeCode) (r0 r1 : Word) (d : Dstat) (s : State) :
    (finish c r0 r1 d s).code = .outcome c := rfl
@[simp] theorem finish_dstat (c : OutcomeCode) (r0 r1 : Word) (d : Dstat) (s : State) :
    (finish c r0 r1 d s).dstat = d := rfl
@[simp] theorem finish_fault (c : OutcomeCode) (r0 r1 : Word) (d : Dstat) (s : State) :
    (finish c r0 r1 d s).fault = s.fault := rfl
@[simp] theorem finish_fcause (c : OutcomeCode) (r0 r1 : Word) (d : Dstat) (s : State) :
    (finish c r0 r1 d s).fcause = s.fcause := rfl
@[simp] theorem finish_res0 (c : OutcomeCode) (r0 r1 : Word) (d : Dstat) (s : State) :
    (finish c r0 r1 d s).res0 = r0 := rfl
@[simp] theorem finish_res1 (c : OutcomeCode) (r0 r1 : Word) (d : Dstat) (s : State) :
    (finish c r0 r1 d s).res1 = r1 := rfl
@[simp] theorem finish_rbBase (c : OutcomeCode) (r0 r1 : Word) (d : Dstat) (s : State) :
    (finish c r0 r1 d s).rbBase = s.rbBase := rfl
@[simp] theorem finish_rbCap (c : OutcomeCode) (r0 r1 : Word) (d : Dstat) (s : State) :
    (finish c r0 r1 d s).rbCap = s.rbCap := rfl
@[simp] theorem finish_rbHead (c : OutcomeCode) (r0 r1 : Word) (d : Dstat) (s : State) :
    (finish c r0 r1 d s).rbHead = s.rbHead := rfl
@[simp] theorem finish_rbTail (c : OutcomeCode) (r0 r1 : Word) (d : Dstat) (s : State) :
    (finish c r0 r1 d s).rbTail = s.rbTail := rfl
@[simp] theorem finish_full (c : OutcomeCode) (r0 r1 : Word) (d : Dstat) (s : State) :
    (finish c r0 r1 d s).full = s.full := rfl
@[simp] theorem finish_init (c : OutcomeCode) (r0 r1 : Word) (d : Dstat) (s : State) :
    (finish c r0 r1 d s).init = s.init := rfl
@[simp] theorem finish_pending (c : OutcomeCode) (r0 r1 : Word) (d : Dstat) (s : State) :
    (finish c r0 r1 d s).pending = none := rfl
@[simp] theorem finish_mem (c : OutcomeCode) (r0 r1 : Word) (d : Dstat) (s : State) :
    (finish c r0 r1 d s).mem = s.mem := rfl
@[simp] theorem finish_modelFaults (c : OutcomeCode) (r0 r1 : Word) (d : Dstat) (s : State) :
    (finish c r0 r1 d s).modelFaults = s.modelFaults := rfl
@[simp] theorem finish_draws (c : OutcomeCode) (r0 r1 : Word) (d : Dstat) (s : State) :
    (finish c r0 r1 d s).draws = s.draws := rfl
@[simp] theorem finish_host (c : OutcomeCode) (r0 r1 : Word) (d : Dstat) (s : State) :
    (finish c r0 r1 d s).host = s.host := rfl
@[simp] theorem finish_response (c : OutcomeCode) (r0 r1 : Word) (d : Dstat) (s : State) :
    (finish c r0 r1 d s).response = s.response := rfl

/-! ### `recordFault` -/

@[simp] theorem recordFault_params (c : FaultCode) (s : State) : (recordFault c s).params = s.params := rfl
@[simp] theorem recordFault_cmd (c : FaultCode) (s : State) : (recordFault c s).cmd = s.cmd := rfl
@[simp] theorem recordFault_arg0 (c : FaultCode) (s : State) : (recordFault c s).arg0 = s.arg0 := rfl
@[simp] theorem recordFault_arg1 (c : FaultCode) (s : State) : (recordFault c s).arg1 = s.arg1 := rfl
@[simp] theorem recordFault_arg2 (c : FaultCode) (s : State) : (recordFault c s).arg2 = s.arg2 := rfl
@[simp] theorem recordFault_arg3 (c : FaultCode) (s : State) : (recordFault c s).arg3 = s.arg3 := rfl
@[simp] theorem recordFault_code (c : FaultCode) (s : State) : (recordFault c s).code = s.code := rfl
@[simp] theorem recordFault_dstat (c : FaultCode) (s : State) : (recordFault c s).dstat = s.dstat := rfl
@[simp] theorem recordFault_fault (c : FaultCode) (s : State) : (recordFault c s).fault = true := rfl
@[simp] theorem recordFault_fcause (c : FaultCode) (s : State) :
    (recordFault c s).fcause = firstCause s.fcause c := rfl
@[simp] theorem recordFault_res0 (c : FaultCode) (s : State) : (recordFault c s).res0 = s.res0 := rfl
@[simp] theorem recordFault_res1 (c : FaultCode) (s : State) : (recordFault c s).res1 = s.res1 := rfl
@[simp] theorem recordFault_rbBase (c : FaultCode) (s : State) : (recordFault c s).rbBase = s.rbBase := rfl
@[simp] theorem recordFault_rbCap (c : FaultCode) (s : State) : (recordFault c s).rbCap = s.rbCap := rfl
@[simp] theorem recordFault_rbHead (c : FaultCode) (s : State) : (recordFault c s).rbHead = s.rbHead := rfl
@[simp] theorem recordFault_rbTail (c : FaultCode) (s : State) : (recordFault c s).rbTail = s.rbTail := rfl
@[simp] theorem recordFault_full (c : FaultCode) (s : State) : (recordFault c s).full = s.full := rfl
@[simp] theorem recordFault_init (c : FaultCode) (s : State) : (recordFault c s).init = s.init := rfl
@[simp] theorem recordFault_pending (c : FaultCode) (s : State) : (recordFault c s).pending = s.pending := rfl
@[simp] theorem recordFault_mem (c : FaultCode) (s : State) : (recordFault c s).mem = s.mem := rfl
@[simp] theorem recordFault_modelFaults (c : FaultCode) (s : State) :
    (recordFault c s).modelFaults = s.modelFaults := rfl
@[simp] theorem recordFault_draws (c : FaultCode) (s : State) : (recordFault c s).draws = s.draws := rfl
@[simp] theorem recordFault_host (c : FaultCode) (s : State) : (recordFault c s).host = s.host := rfl
@[simp] theorem recordFault_response (c : FaultCode) (s : State) : (recordFault c s).response = s.response := rfl

/-! ### `raiseFault` -/

@[simp] theorem raiseFault_params (c : FaultCode) (s : State) : (raiseFault c s).params = s.params := rfl
@[simp] theorem raiseFault_cmd (c : FaultCode) (s : State) : (raiseFault c s).cmd = s.cmd := rfl
@[simp] theorem raiseFault_arg0 (c : FaultCode) (s : State) : (raiseFault c s).arg0 = s.arg0 := rfl
@[simp] theorem raiseFault_arg1 (c : FaultCode) (s : State) : (raiseFault c s).arg1 = s.arg1 := rfl
@[simp] theorem raiseFault_arg2 (c : FaultCode) (s : State) : (raiseFault c s).arg2 = s.arg2 := rfl
@[simp] theorem raiseFault_arg3 (c : FaultCode) (s : State) : (raiseFault c s).arg3 = s.arg3 := rfl
@[simp] theorem raiseFault_code (c : FaultCode) (s : State) : (raiseFault c s).code = .fault c := rfl
@[simp] theorem raiseFault_dstat (c : FaultCode) (s : State) : (raiseFault c s).dstat = Dstat.zero := rfl
@[simp] theorem raiseFault_fault (c : FaultCode) (s : State) : (raiseFault c s).fault = true := rfl
@[simp] theorem raiseFault_fcause (c : FaultCode) (s : State) : (raiseFault c s).fcause = firstCause s.fcause c := rfl
@[simp] theorem raiseFault_res0 (c : FaultCode) (s : State) : (raiseFault c s).res0 = 0 := rfl
@[simp] theorem raiseFault_res1 (c : FaultCode) (s : State) : (raiseFault c s).res1 = 0 := rfl
@[simp] theorem raiseFault_rbBase (c : FaultCode) (s : State) : (raiseFault c s).rbBase = s.rbBase := rfl
@[simp] theorem raiseFault_rbCap (c : FaultCode) (s : State) : (raiseFault c s).rbCap = s.rbCap := rfl
@[simp] theorem raiseFault_rbHead (c : FaultCode) (s : State) : (raiseFault c s).rbHead = s.rbHead := rfl
@[simp] theorem raiseFault_rbTail (c : FaultCode) (s : State) : (raiseFault c s).rbTail = s.rbTail := rfl
@[simp] theorem raiseFault_full (c : FaultCode) (s : State) : (raiseFault c s).full = s.full := rfl
@[simp] theorem raiseFault_init (c : FaultCode) (s : State) : (raiseFault c s).init = s.init := rfl
@[simp] theorem raiseFault_pending (c : FaultCode) (s : State) : (raiseFault c s).pending = none := rfl
@[simp] theorem raiseFault_mem (c : FaultCode) (s : State) : (raiseFault c s).mem = s.mem := rfl
@[simp] theorem raiseFault_modelFaults (c : FaultCode) (s : State) :
    (raiseFault c s).modelFaults = s.modelFaults := rfl
@[simp] theorem raiseFault_draws (c : FaultCode) (s : State) : (raiseFault c s).draws = s.draws := rfl
@[simp] theorem raiseFault_host (c : FaultCode) (s : State) : (raiseFault c s).host = s.host := rfl
@[simp] theorem raiseFault_response (c : FaultCode) (s : State) : (raiseFault c s).response = s.response := rfl

/-! ### `recordModelFault` -/

@[simp] theorem recordModelFault_params (f : Fault) (s : State) : (recordModelFault f s).params = s.params := rfl
@[simp] theorem recordModelFault_cmd (f : Fault) (s : State) : (recordModelFault f s).cmd = s.cmd := rfl
@[simp] theorem recordModelFault_arg0 (f : Fault) (s : State) : (recordModelFault f s).arg0 = s.arg0 := rfl
@[simp] theorem recordModelFault_arg1 (f : Fault) (s : State) : (recordModelFault f s).arg1 = s.arg1 := rfl
@[simp] theorem recordModelFault_arg2 (f : Fault) (s : State) : (recordModelFault f s).arg2 = s.arg2 := rfl
@[simp] theorem recordModelFault_arg3 (f : Fault) (s : State) : (recordModelFault f s).arg3 = s.arg3 := rfl
@[simp] theorem recordModelFault_code (f : Fault) (s : State) : (recordModelFault f s).code = s.code := rfl
@[simp] theorem recordModelFault_dstat (f : Fault) (s : State) : (recordModelFault f s).dstat = s.dstat := rfl
@[simp] theorem recordModelFault_fault (f : Fault) (s : State) : (recordModelFault f s).fault = s.fault := rfl
@[simp] theorem recordModelFault_fcause (f : Fault) (s : State) : (recordModelFault f s).fcause = s.fcause := rfl
@[simp] theorem recordModelFault_res0 (f : Fault) (s : State) : (recordModelFault f s).res0 = s.res0 := rfl
@[simp] theorem recordModelFault_res1 (f : Fault) (s : State) : (recordModelFault f s).res1 = s.res1 := rfl
@[simp] theorem recordModelFault_rbBase (f : Fault) (s : State) : (recordModelFault f s).rbBase = s.rbBase := rfl
@[simp] theorem recordModelFault_rbCap (f : Fault) (s : State) : (recordModelFault f s).rbCap = s.rbCap := rfl
@[simp] theorem recordModelFault_rbHead (f : Fault) (s : State) : (recordModelFault f s).rbHead = s.rbHead := rfl
@[simp] theorem recordModelFault_rbTail (f : Fault) (s : State) : (recordModelFault f s).rbTail = s.rbTail := rfl
@[simp] theorem recordModelFault_full (f : Fault) (s : State) : (recordModelFault f s).full = s.full := rfl
@[simp] theorem recordModelFault_init (f : Fault) (s : State) : (recordModelFault f s).init = s.init := rfl
@[simp] theorem recordModelFault_pending (f : Fault) (s : State) : (recordModelFault f s).pending = s.pending := rfl
@[simp] theorem recordModelFault_mem (f : Fault) (s : State) : (recordModelFault f s).mem = s.mem := rfl
@[simp] theorem recordModelFault_modelFaults (f : Fault) (s : State) :
    (recordModelFault f s).modelFaults = if f ∈ s.modelFaults then s.modelFaults else s.modelFaults ++ [f] := rfl
@[simp] theorem recordModelFault_draws (f : Fault) (s : State) : (recordModelFault f s).draws = s.draws := rfl
@[simp] theorem recordModelFault_host (f : Fault) (s : State) : (recordModelFault f s).host = s.host := rfl
@[simp] theorem recordModelFault_response (f : Fault) (s : State) :
    (recordModelFault f s).response = s.response := rfl

/-! ### `undefinedRead` -/

@[simp] theorem undefinedRead_params (s : State) : (undefinedRead s).params = s.params := rfl
@[simp] theorem undefinedRead_cmd (s : State) : (undefinedRead s).cmd = s.cmd := rfl
@[simp] theorem undefinedRead_arg0 (s : State) : (undefinedRead s).arg0 = s.arg0 := rfl
@[simp] theorem undefinedRead_arg1 (s : State) : (undefinedRead s).arg1 = s.arg1 := rfl
@[simp] theorem undefinedRead_arg2 (s : State) : (undefinedRead s).arg2 = s.arg2 := rfl
@[simp] theorem undefinedRead_arg3 (s : State) : (undefinedRead s).arg3 = s.arg3 := rfl
@[simp] theorem undefinedRead_code (s : State) : (undefinedRead s).code = s.code := rfl
@[simp] theorem undefinedRead_dstat (s : State) : (undefinedRead s).dstat = s.dstat := rfl
@[simp] theorem undefinedRead_fault (s : State) : (undefinedRead s).fault = s.fault := rfl
@[simp] theorem undefinedRead_fcause (s : State) : (undefinedRead s).fcause = s.fcause := rfl
@[simp] theorem undefinedRead_res0 (s : State) : (undefinedRead s).res0 = s.res0 := rfl
@[simp] theorem undefinedRead_res1 (s : State) : (undefinedRead s).res1 = s.res1 := rfl
@[simp] theorem undefinedRead_rbBase (s : State) : (undefinedRead s).rbBase = s.rbBase := rfl
@[simp] theorem undefinedRead_rbCap (s : State) : (undefinedRead s).rbCap = s.rbCap := rfl
@[simp] theorem undefinedRead_rbHead (s : State) : (undefinedRead s).rbHead = s.rbHead := rfl
@[simp] theorem undefinedRead_rbTail (s : State) : (undefinedRead s).rbTail = s.rbTail := rfl
@[simp] theorem undefinedRead_full (s : State) : (undefinedRead s).full = s.full := rfl
@[simp] theorem undefinedRead_init (s : State) : (undefinedRead s).init = s.init := rfl
@[simp] theorem undefinedRead_pending (s : State) : (undefinedRead s).pending = none := rfl
@[simp] theorem undefinedRead_mem (s : State) : (undefinedRead s).mem = s.mem := rfl
@[simp] theorem undefinedRead_modelFaults (s : State) :
    (undefinedRead s).modelFaults = if .undefinedRead ∈ s.modelFaults then s.modelFaults else s.modelFaults ++ [.undefinedRead] := rfl
@[simp] theorem undefinedRead_draws (s : State) : (undefinedRead s).draws = s.draws := rfl
@[simp] theorem undefinedRead_host (s : State) : (undefinedRead s).host = s.host := rfl
@[simp] theorem undefinedRead_response (s : State) : (undefinedRead s).response = s.response := rfl

/-! ### `advanceHost` -/

@[simp] theorem advanceHost_params (rest : List HostEvent) (s : State) : (advanceHost rest s).params = s.params := rfl
@[simp] theorem advanceHost_cmd (rest : List HostEvent) (s : State) : (advanceHost rest s).cmd = s.cmd := rfl
@[simp] theorem advanceHost_arg0 (rest : List HostEvent) (s : State) : (advanceHost rest s).arg0 = s.arg0 := rfl
@[simp] theorem advanceHost_arg1 (rest : List HostEvent) (s : State) : (advanceHost rest s).arg1 = s.arg1 := rfl
@[simp] theorem advanceHost_arg2 (rest : List HostEvent) (s : State) : (advanceHost rest s).arg2 = s.arg2 := rfl
@[simp] theorem advanceHost_arg3 (rest : List HostEvent) (s : State) : (advanceHost rest s).arg3 = s.arg3 := rfl
@[simp] theorem advanceHost_code (rest : List HostEvent) (s : State) : (advanceHost rest s).code = s.code := rfl
@[simp] theorem advanceHost_dstat (rest : List HostEvent) (s : State) : (advanceHost rest s).dstat = s.dstat := rfl
@[simp] theorem advanceHost_fault (rest : List HostEvent) (s : State) : (advanceHost rest s).fault = s.fault := rfl
@[simp] theorem advanceHost_fcause (rest : List HostEvent) (s : State) : (advanceHost rest s).fcause = s.fcause := rfl
@[simp] theorem advanceHost_res0 (rest : List HostEvent) (s : State) : (advanceHost rest s).res0 = s.res0 := rfl
@[simp] theorem advanceHost_res1 (rest : List HostEvent) (s : State) : (advanceHost rest s).res1 = s.res1 := rfl
@[simp] theorem advanceHost_rbBase (rest : List HostEvent) (s : State) : (advanceHost rest s).rbBase = s.rbBase := rfl
@[simp] theorem advanceHost_rbCap (rest : List HostEvent) (s : State) : (advanceHost rest s).rbCap = s.rbCap := rfl
@[simp] theorem advanceHost_rbHead (rest : List HostEvent) (s : State) : (advanceHost rest s).rbHead = s.rbHead := rfl
@[simp] theorem advanceHost_rbTail (rest : List HostEvent) (s : State) : (advanceHost rest s).rbTail = s.rbTail := rfl
@[simp] theorem advanceHost_full (rest : List HostEvent) (s : State) : (advanceHost rest s).full = s.full := rfl
@[simp] theorem advanceHost_init (rest : List HostEvent) (s : State) : (advanceHost rest s).init = s.init := rfl
@[simp] theorem advanceHost_pending (rest : List HostEvent) (s : State) :
    (advanceHost rest s).pending = s.pending.map fun p => { p with wait := p.wait - 1 } := rfl
@[simp] theorem advanceHost_mem (rest : List HostEvent) (s : State) : (advanceHost rest s).mem = s.mem := rfl
@[simp] theorem advanceHost_modelFaults (rest : List HostEvent) (s : State) :
    (advanceHost rest s).modelFaults = s.modelFaults := rfl
@[simp] theorem advanceHost_draws (rest : List HostEvent) (s : State) : (advanceHost rest s).draws = s.draws := rfl
@[simp] theorem advanceHost_host (rest : List HostEvent) (s : State) : (advanceHost rest s).host = rest := rfl
@[simp] theorem advanceHost_response (rest : List HostEvent) (s : State) :
    (advanceHost rest s).response = s.response := rfl

/-! ### `acceptCommand` -/

@[simp] theorem acceptCommand_params (w : Word) (s : State) : (acceptCommand w s).params = s.params := rfl
@[simp] theorem acceptCommand_cmd (w : Word) (s : State) : (acceptCommand w s).cmd = w := rfl
@[simp] theorem acceptCommand_arg0 (w : Word) (s : State) : (acceptCommand w s).arg0 = s.arg0 := rfl
@[simp] theorem acceptCommand_arg1 (w : Word) (s : State) : (acceptCommand w s).arg1 = s.arg1 := rfl
@[simp] theorem acceptCommand_arg2 (w : Word) (s : State) : (acceptCommand w s).arg2 = s.arg2 := rfl
@[simp] theorem acceptCommand_arg3 (w : Word) (s : State) : (acceptCommand w s).arg3 = s.arg3 := rfl
@[simp] theorem acceptCommand_code (w : Word) (s : State) : (acceptCommand w s).code = s.code := rfl
@[simp] theorem acceptCommand_dstat (w : Word) (s : State) : (acceptCommand w s).dstat = s.dstat := rfl
@[simp] theorem acceptCommand_fault (w : Word) (s : State) : (acceptCommand w s).fault = s.fault := rfl
@[simp] theorem acceptCommand_fcause (w : Word) (s : State) : (acceptCommand w s).fcause = s.fcause := rfl
@[simp] theorem acceptCommand_res0 (w : Word) (s : State) : (acceptCommand w s).res0 = s.res0 := rfl
@[simp] theorem acceptCommand_res1 (w : Word) (s : State) : (acceptCommand w s).res1 = s.res1 := rfl
@[simp] theorem acceptCommand_rbBase (w : Word) (s : State) : (acceptCommand w s).rbBase = s.rbBase := rfl
@[simp] theorem acceptCommand_rbCap (w : Word) (s : State) : (acceptCommand w s).rbCap = s.rbCap := rfl
@[simp] theorem acceptCommand_rbHead (w : Word) (s : State) : (acceptCommand w s).rbHead = s.rbHead := rfl
@[simp] theorem acceptCommand_rbTail (w : Word) (s : State) : (acceptCommand w s).rbTail = s.rbTail := rfl
@[simp] theorem acceptCommand_full (w : Word) (s : State) : (acceptCommand w s).full = s.full := rfl
@[simp] theorem acceptCommand_init (w : Word) (s : State) : (acceptCommand w s).init = s.init := rfl
@[simp] theorem acceptCommand_pending (w : Word) (s : State) :
    (acceptCommand w s).pending = some { word := w, args := ⟨s.arg0, s.arg1, s.arg2, s.arg3⟩, wait := Config.latency s.draws } := rfl
@[simp] theorem acceptCommand_mem (w : Word) (s : State) : (acceptCommand w s).mem = s.mem := rfl
@[simp] theorem acceptCommand_modelFaults (w : Word) (s : State) :
    (acceptCommand w s).modelFaults = s.modelFaults := rfl
@[simp] theorem acceptCommand_draws (w : Word) (s : State) : (acceptCommand w s).draws = s.draws + 1 := rfl
@[simp] theorem acceptCommand_host (w : Word) (s : State) : (acceptCommand w s).host = s.host := rfl
@[simp] theorem acceptCommand_response (w : Word) (s : State) : (acceptCommand w s).response = s.response := rfl

/-! ### `respond` -/

@[simp] theorem respond_params (r : Response) (s : State) : (respond r s).params = s.params := rfl
@[simp] theorem respond_cmd (r : Response) (s : State) : (respond r s).cmd = s.cmd := rfl
@[simp] theorem respond_arg0 (r : Response) (s : State) : (respond r s).arg0 = s.arg0 := rfl
@[simp] theorem respond_arg1 (r : Response) (s : State) : (respond r s).arg1 = s.arg1 := rfl
@[simp] theorem respond_arg2 (r : Response) (s : State) : (respond r s).arg2 = s.arg2 := rfl
@[simp] theorem respond_arg3 (r : Response) (s : State) : (respond r s).arg3 = s.arg3 := rfl
@[simp] theorem respond_code (r : Response) (s : State) : (respond r s).code = s.code := rfl
@[simp] theorem respond_dstat (r : Response) (s : State) : (respond r s).dstat = s.dstat := rfl
@[simp] theorem respond_fault (r : Response) (s : State) : (respond r s).fault = s.fault := rfl
@[simp] theorem respond_fcause (r : Response) (s : State) : (respond r s).fcause = s.fcause := rfl
@[simp] theorem respond_res0 (r : Response) (s : State) : (respond r s).res0 = s.res0 := rfl
@[simp] theorem respond_res1 (r : Response) (s : State) : (respond r s).res1 = s.res1 := rfl
@[simp] theorem respond_rbBase (r : Response) (s : State) : (respond r s).rbBase = s.rbBase := rfl
@[simp] theorem respond_rbCap (r : Response) (s : State) : (respond r s).rbCap = s.rbCap := rfl
@[simp] theorem respond_rbHead (r : Response) (s : State) : (respond r s).rbHead = s.rbHead := rfl
@[simp] theorem respond_rbTail (r : Response) (s : State) : (respond r s).rbTail = s.rbTail := rfl
@[simp] theorem respond_full (r : Response) (s : State) : (respond r s).full = s.full := rfl
@[simp] theorem respond_init (r : Response) (s : State) : (respond r s).init = s.init := rfl
@[simp] theorem respond_pending (r : Response) (s : State) : (respond r s).pending = s.pending := rfl
@[simp] theorem respond_mem (r : Response) (s : State) : (respond r s).mem = s.mem := rfl
@[simp] theorem respond_modelFaults (r : Response) (s : State) : (respond r s).modelFaults = s.modelFaults := rfl
@[simp] theorem respond_draws (r : Response) (s : State) : (respond r s).draws = s.draws := rfl
@[simp] theorem respond_host (r : Response) (s : State) : (respond r s).host = s.host := rfl
@[simp] theorem respond_response (r : Response) (s : State) : (respond r s).response = r := rfl

/-! ### `ringPush` -/

@[simp] theorem ringPush_params (b : Byte) (s : State) : (ringPush b s).params = s.params := rfl
@[simp] theorem ringPush_cmd (b : Byte) (s : State) : (ringPush b s).cmd = s.cmd := rfl
@[simp] theorem ringPush_arg0 (b : Byte) (s : State) : (ringPush b s).arg0 = s.arg0 := rfl
@[simp] theorem ringPush_arg1 (b : Byte) (s : State) : (ringPush b s).arg1 = s.arg1 := rfl
@[simp] theorem ringPush_arg2 (b : Byte) (s : State) : (ringPush b s).arg2 = s.arg2 := rfl
@[simp] theorem ringPush_arg3 (b : Byte) (s : State) : (ringPush b s).arg3 = s.arg3 := rfl
@[simp] theorem ringPush_code (b : Byte) (s : State) : (ringPush b s).code = s.code := rfl
@[simp] theorem ringPush_dstat (b : Byte) (s : State) : (ringPush b s).dstat = s.dstat := rfl
@[simp] theorem ringPush_fault (b : Byte) (s : State) : (ringPush b s).fault = s.fault := rfl
@[simp] theorem ringPush_fcause (b : Byte) (s : State) : (ringPush b s).fcause = s.fcause := rfl
@[simp] theorem ringPush_res0 (b : Byte) (s : State) : (ringPush b s).res0 = s.res0 := rfl
@[simp] theorem ringPush_res1 (b : Byte) (s : State) : (ringPush b s).res1 = s.res1 := rfl
@[simp] theorem ringPush_rbBase (b : Byte) (s : State) : (ringPush b s).rbBase = s.rbBase := rfl
@[simp] theorem ringPush_rbCap (b : Byte) (s : State) : (ringPush b s).rbCap = s.rbCap := rfl
@[simp] theorem ringPush_rbHead (b : Byte) (s : State) : (ringPush b s).rbHead = nextIndex s s.rbHead := rfl
@[simp] theorem ringPush_rbTail (b : Byte) (s : State) : (ringPush b s).rbTail = s.rbTail := rfl
@[simp] theorem ringPush_full (b : Byte) (s : State) :
    (ringPush b s).full = if nextIndex s s.rbHead = s.rbTail then true else s.full := rfl
@[simp] theorem ringPush_init (b : Byte) (s : State) : (ringPush b s).init = s.init := rfl
@[simp] theorem ringPush_pending (b : Byte) (s : State) : (ringPush b s).pending = s.pending := rfl
@[simp] theorem ringPush_mem (b : Byte) (s : State) :
    (ringPush b s).mem = s.mem.write (s.rbBase.toNat + s.rbHead.toNat) b := rfl
@[simp] theorem ringPush_modelFaults (b : Byte) (s : State) : (ringPush b s).modelFaults = s.modelFaults := rfl
@[simp] theorem ringPush_draws (b : Byte) (s : State) : (ringPush b s).draws = s.draws := rfl
@[simp] theorem ringPush_host (b : Byte) (s : State) : (ringPush b s).host = s.host := rfl
@[simp] theorem ringPush_response (b : Byte) (s : State) : (ringPush b s).response = s.response := rfl

/-! ### `ringPop` -/

@[simp] theorem ringPop_params (s : State) : (ringPop s).params = s.params := rfl
@[simp] theorem ringPop_cmd (s : State) : (ringPop s).cmd = s.cmd := rfl
@[simp] theorem ringPop_arg0 (s : State) : (ringPop s).arg0 = s.arg0 := rfl
@[simp] theorem ringPop_arg1 (s : State) : (ringPop s).arg1 = s.arg1 := rfl
@[simp] theorem ringPop_arg2 (s : State) : (ringPop s).arg2 = s.arg2 := rfl
@[simp] theorem ringPop_arg3 (s : State) : (ringPop s).arg3 = s.arg3 := rfl
@[simp] theorem ringPop_code (s : State) : (ringPop s).code = s.code := rfl
@[simp] theorem ringPop_dstat (s : State) : (ringPop s).dstat = s.dstat := rfl
@[simp] theorem ringPop_fault (s : State) : (ringPop s).fault = s.fault := rfl
@[simp] theorem ringPop_fcause (s : State) : (ringPop s).fcause = s.fcause := rfl
@[simp] theorem ringPop_res0 (s : State) : (ringPop s).res0 = s.res0 := rfl
@[simp] theorem ringPop_res1 (s : State) : (ringPop s).res1 = s.res1 := rfl
@[simp] theorem ringPop_rbBase (s : State) : (ringPop s).rbBase = s.rbBase := rfl
@[simp] theorem ringPop_rbCap (s : State) : (ringPop s).rbCap = s.rbCap := rfl
@[simp] theorem ringPop_rbHead (s : State) : (ringPop s).rbHead = s.rbHead := rfl
@[simp] theorem ringPop_rbTail (s : State) : (ringPop s).rbTail = nextIndex s s.rbTail := rfl
@[simp] theorem ringPop_full (s : State) : (ringPop s).full = false := rfl
@[simp] theorem ringPop_init (s : State) : (ringPop s).init = s.init := rfl
@[simp] theorem ringPop_pending (s : State) : (ringPop s).pending = s.pending := rfl
@[simp] theorem ringPop_mem (s : State) : (ringPop s).mem = s.mem := rfl
@[simp] theorem ringPop_modelFaults (s : State) : (ringPop s).modelFaults = s.modelFaults := rfl
@[simp] theorem ringPop_draws (s : State) : (ringPop s).draws = s.draws := rfl
@[simp] theorem ringPop_host (s : State) : (ringPop s).host = s.host := rfl
@[simp] theorem ringPop_response (s : State) : (ringPop s).response = s.response := rfl

/-! ### `placeCommand` -/

@[simp] theorem placeCommand_params (w : Word) (s : State) : (placeCommand w s).params = s.params := rfl
@[simp] theorem placeCommand_cmd (w : Word) (s : State) : (placeCommand w s).cmd = w := rfl
@[simp] theorem placeCommand_arg0 (w : Word) (s : State) : (placeCommand w s).arg0 = s.arg0 := rfl
@[simp] theorem placeCommand_arg1 (w : Word) (s : State) : (placeCommand w s).arg1 = s.arg1 := rfl
@[simp] theorem placeCommand_arg2 (w : Word) (s : State) : (placeCommand w s).arg2 = s.arg2 := rfl
@[simp] theorem placeCommand_arg3 (w : Word) (s : State) : (placeCommand w s).arg3 = s.arg3 := rfl
@[simp] theorem placeCommand_code (w : Word) (s : State) : (placeCommand w s).code = s.code := rfl
@[simp] theorem placeCommand_dstat (w : Word) (s : State) : (placeCommand w s).dstat = s.dstat := rfl
@[simp] theorem placeCommand_fault (w : Word) (s : State) : (placeCommand w s).fault = s.fault := rfl
@[simp] theorem placeCommand_fcause (w : Word) (s : State) : (placeCommand w s).fcause = s.fcause := rfl
@[simp] theorem placeCommand_res0 (w : Word) (s : State) : (placeCommand w s).res0 = s.res0 := rfl
@[simp] theorem placeCommand_res1 (w : Word) (s : State) : (placeCommand w s).res1 = s.res1 := rfl
@[simp] theorem placeCommand_rbBase (w : Word) (s : State) : (placeCommand w s).rbBase = s.rbBase := rfl
@[simp] theorem placeCommand_rbCap (w : Word) (s : State) : (placeCommand w s).rbCap = s.rbCap := rfl
@[simp] theorem placeCommand_rbHead (w : Word) (s : State) : (placeCommand w s).rbHead = s.rbHead := rfl
@[simp] theorem placeCommand_rbTail (w : Word) (s : State) : (placeCommand w s).rbTail = s.rbTail := rfl
@[simp] theorem placeCommand_full (w : Word) (s : State) : (placeCommand w s).full = s.full := rfl
@[simp] theorem placeCommand_init (w : Word) (s : State) : (placeCommand w s).init = s.init := rfl
@[simp] theorem placeCommand_pending (w : Word) (s : State) :
    (placeCommand w s).pending = some { word := w, args := ⟨s.arg0, s.arg1, s.arg2, s.arg3⟩, wait := 0 } := rfl
@[simp] theorem placeCommand_mem (w : Word) (s : State) : (placeCommand w s).mem = s.mem := rfl
@[simp] theorem placeCommand_modelFaults (w : Word) (s : State) :
    (placeCommand w s).modelFaults = s.modelFaults := rfl
@[simp] theorem placeCommand_draws (w : Word) (s : State) : (placeCommand w s).draws = s.draws := rfl
@[simp] theorem placeCommand_host (w : Word) (s : State) : (placeCommand w s).host = s.host := rfl
@[simp] theorem placeCommand_response (w : Word) (s : State) : (placeCommand w s).response = s.response := rfl

end Sys2Proof.Machine
end

