-- ==== Sys2Proof/Laws/Engine.lean ====
section
/-! SUPPORT. What each shared operation of the meanings can do, said once: the operands, the source and destination
combinators, delivery, the ring gate, the turn, and that every command answers a next state. -/

namespace Sys2Proof.Machine

/-- The operands of a pending command are the captured ones (R30). -/
theorem operands_of_pending {s : State} {p : Pending} (h : s.pending = some p) : s.operands = p.args := by
  simp [State.operands, h]

theorem rangeValid_iff {s : State} {a n : Word} : rangeValid s a n = true ↔ a.toNat + n.toNat ≤ s.params.memSize := by
  simp [rangeValid]

/-- A length that fits in 32 bits is in the register exactly (R7, R25). -/
theorem lengthWord_toNat {a : Args} {out : Bytes} (h : out.length < 2 ^ 32) : (lengthWord a out).toNat = out.length := by
  rw [lengthWord, if_pos h, BitVec.toNat_ofNat, Nat.mod_eq_of_lt h]

/-- The two ways reading a source goes (R57, R58). -/
theorem readSource_cases (s : State) (k : Bytes → State) :
    (∃ src : Bytes, src.length = s.operands.a1.toNat ∧ Holds s.mem s.operands.a0.toNat src ∧ readSource s k = k src)
      ∨ (UndefinedIn s.mem s.operands.a0.toNat s.operands.a1.toNat ∧ readSource s k = undefinedRead s) := by
  unfold readSource
  cases h : s.mem.readRange s.operands.a0.toNat s.operands.a1.toNat with
  | some src =>
    obtain ⟨h1, h2⟩ := Memory.readRange_eq_some.1 h
    exact .inl ⟨src, h1, h2, rfl⟩
  | none => exact .inr ⟨Memory.readRange_eq_none.1 h, rfl⟩

/-- Reading a source whose bytes are known. -/
theorem readSource_of_holds {s : State} {src : Bytes} (k : Bytes → State) (h1 : src.length = s.operands.a1.toNat)
    (h2 : Holds s.mem s.operands.a0.toNat src) : readSource s k = k src := by
  unfold readSource
  rw [Memory.readRange_eq_some.2 ⟨h1, h2⟩]

/-- Reading a source with an undefined byte. -/
theorem readSource_of_undefined {s : State} (k : Bytes → State)
    (h : UndefinedIn s.mem s.operands.a0.toNat s.operands.a1.toNat) : readSource s k = undefinedRead s := by
  unfold readSource
  rw [Memory.readRange_eq_none.2 h]

theorem withSource_of_valid {s : State} (k : Bytes → State)
    (h : s.operands.a0.toNat + s.operands.a1.toNat ≤ s.params.memSize) : withSource s k = readSource s k := by
  rw [withSource, if_pos (rangeValid_iff.2 h)]

theorem withSource_of_invalid {s : State} (k : Bytes → State)
    (h : s.params.memSize < s.operands.a0.toNat + s.operands.a1.toNat) : withSource s k = raiseFault .badRange s := by
  rw [withSource, if_neg (by rw [rangeValid_iff]; omega)]

theorem withSourceAndDest_of_valid {s : State} (k : Bytes → State)
    (h1 : s.operands.a0.toNat + s.operands.a1.toNat ≤ s.params.memSize)
    (h2 : s.operands.a2.toNat + s.operands.a3.toNat ≤ s.params.memSize) : withSourceAndDest s k = readSource s k := by
  rw [withSourceAndDest, if_pos (by simp [rangeValid_iff, h1, h2])]

theorem withSourceAndDest_of_invalid {s : State} (k : Bytes → State)
    (h : s.params.memSize < s.operands.a0.toNat + s.operands.a1.toNat
      ∨ s.params.memSize < s.operands.a2.toNat + s.operands.a3.toNat) :
    withSourceAndDest s k = raiseFault .badRange s := by
  rw [withSourceAndDest, if_neg (by simp only [Bool.and_eq_true, rangeValid_iff]; omega)]

/-- The three ways a command with a source goes (R175 items 3 and 6). -/
theorem withSource_cases (s : State) (k : Bytes → State) :
    (∃ src : Bytes, src.length = s.operands.a1.toNat ∧ Holds s.mem s.operands.a0.toNat src
        ∧ s.operands.a0.toNat + s.operands.a1.toNat ≤ s.params.memSize ∧ withSource s k = k src)
      ∨ withSource s k = undefinedRead s ∨ withSource s k = raiseFault .badRange s := by
  by_cases h : s.operands.a0.toNat + s.operands.a1.toNat ≤ s.params.memSize
  · rw [withSource_of_valid k h]
    rcases readSource_cases s k with ⟨src, h1, h2, h3⟩ | ⟨-, h3⟩
    · exact .inl ⟨src, h1, h2, h, h3⟩
    · exact .inr (.inl h3)
  · exact .inr (.inr (withSource_of_invalid k (by omega)))

/-- The three ways a command with a source and a destination goes (R175 items 3 and 6). -/
theorem withSourceAndDest_cases (s : State) (k : Bytes → State) :
    (∃ src : Bytes, src.length = s.operands.a1.toNat ∧ Holds s.mem s.operands.a0.toNat src
        ∧ s.operands.a2.toNat + s.operands.a3.toNat ≤ s.params.memSize ∧ withSourceAndDest s k = k src)
      ∨ withSourceAndDest s k = undefinedRead s ∨ withSourceAndDest s k = raiseFault .badRange s := by
  by_cases h : s.operands.a0.toNat + s.operands.a1.toNat ≤ s.params.memSize
      ∧ s.operands.a2.toNat + s.operands.a3.toNat ≤ s.params.memSize
  · rw [withSourceAndDest_of_valid k h.1 h.2]
    rcases readSource_cases s k with ⟨src, h1, h2, h3⟩ | ⟨-, h3⟩
    · exact .inl ⟨src, h1, h2, h.2, h3⟩
    · exact .inr (.inl h3)
  · exact .inr (.inr (withSourceAndDest_of_invalid k (by omega)))

/-- Delivery that does not fit (R103 to R107): nothing written. -/
theorem deliver_of_overflow {out : Bytes} {c : OutcomeCode} {r1 : Word} {d : Dstat} {s : State}
    (h : s.operands.a3.toNat < out.length) :
    deliver out c r1 d s = finish .dstOverflow (lengthWord s.operands out) r1 d s := by
  rw [deliver, if_pos h]

/-- Delivery that fits (R103 to R107): the bytes go to the prefix of the destination. -/
theorem deliver_of_fits {out : Bytes} {c : OutcomeCode} {r1 : Word} {d : Dstat} {s : State}
    (h : out.length ≤ s.operands.a3.toNat) :
    deliver out c r1 d s
      = finish c (lengthWord s.operands out) r1 d { s with mem := s.mem.writeRange s.operands.a2.toNat out } := by
  rw [deliver, if_neg (by omega)]

/-- The ring gate (R133). -/
theorem withRing_of_init {s k : State} (h : s.init = true) : withRing s k = k := by rw [withRing, if_pos h]

theorem withRing_of_not_init {s k : State} (h : s.init = false) : withRing s k = raiseFault .rbUninit s := by
  rw [withRing, if_neg (by simp [h])]

/-- Every command answers a next state: no meaning stops. -/
theorem exec_next (i : Instr) (s : State) : ∃ t, exec i s = .next t := by
  cases i <;> exact ⟨_, rfl⟩

theorem engineTurn_iff {p : Pending} {s : State} : engineTurn p s = true ↔ p.wait = 0 ∨ s.host = [] := by
  simp [engineTurn]

/-- The step of a due engine (R58). -/
theorem step_of_engineDue {s : State} {p : Pending} (h : EngineDue s p) : step s = engineStep p s := by
  obtain ⟨h1, h2⟩ := h
  simp [step, h1, engineTurn_iff.2 h2]

/-- The step of a due host (R60). -/
theorem step_of_hostDue {s : State} {e : HostEvent} {rest : List HostEvent} (h : HostDue s e rest) :
    step s = .next (hostStep s) := by
  obtain ⟨h1, h2⟩ := h
  unfold step
  cases hp : s.pending with
  | none => rfl
  | some p =>
    have := h2 p hp
    simp [engineTurn, h1, this]

/-- What a step can be: the engine's, one host event, or nothing at all (R60, R186). -/
theorem step_cases (s : State) :
    (∃ p, EngineDue s p ∧ step s = engineStep p s)
      ∨ (∃ e rest, HostDue s e rest ∧ step s = .next (hostStep s))
      ∨ (s.pending = none ∧ s.host = [] ∧ step s = .next s) := by
  cases hp : s.pending with
  | none =>
    cases hh : s.host with
    | nil =>
      refine .inr (.inr ⟨rfl, rfl, ?_⟩)
      simp [step, hp, hostStep, hh]
    | cons e rest =>
      have h : HostDue s e rest := ⟨hh, by simp [hp]⟩
      exact .inr (.inl ⟨e, rest, h, step_of_hostDue h⟩)
  | some p =>
    by_cases ht : p.wait = 0 ∨ s.host = []
    · exact .inl ⟨p, ⟨hp, ht⟩, step_of_engineDue ⟨hp, ht⟩⟩
    · cases hh : s.host with
      | nil => exact absurd (.inr hh) ht
      | cons e rest =>
        have h : HostDue s e rest := ⟨hh, by
          intro q hq; rw [hp, Option.some.injEq] at hq; subst hq; exact fun h0 => ht (.inl h0)⟩
        exact .inr (.inl ⟨e, rest, h, step_of_hostDue h⟩)

end Sys2Proof.Machine
end

