-- ==== Sys2Proof/Laws/Codec.lean ====
section
/-! SUPPORT. The byte-stuffing loops: the encoder on a run of literal bytes, the decoder block by block with any offset and
output already made. -/

namespace Sys2Proof.Machine

/-- The encoder's loop takes literal bytes into its open block while the block stays short of full (R100). -/
theorem encodeBlocks_literals {blk lits : Bytes} (h : codecDelim ∉ lits) (hl : blk.length + lits.length ≤ 253)
    (p : Bytes) : encodeBlocks blk (lits ++ p) = encodeBlocks (blk ++ lits) p := by
  induction lits generalizing blk with
  | nil => simp
  | cons b lits ih =>
    simp only [List.mem_cons, not_or] at h
    simp only [List.length_cons] at hl
    rw [List.cons_append, encodeBlocks, if_neg (Ne.symm h.1),
      if_neg (by simp only [List.length_append, List.length_cons, List.length_nil, maxLiterals]; omega),
      ih h.2 (by simp only [List.length_append, List.length_cons, List.length_nil]; omega)]
    simp

/-- The encoder's loop at a delimiter (R100). -/
theorem encodeBlocks_delim (blk p : Bytes) :
    encodeBlocks blk (codecDelim :: p) = stuffedBlock blk ++ encodeBlocks [] p := by simp [encodeBlocks]

/-- The encoder's loop at the literal byte that fills its block (R100). -/
theorem encodeBlocks_fill {blk : Bytes} {b : Byte} (h : b ≠ codecDelim) (hl : blk.length = 253) (p : Bytes) :
    encodeBlocks blk (b :: p) = fullBlock (blk ++ [b]) ++ encodeBlocks [] p := by
  rw [encodeBlocks, if_neg h, if_pos (by simp [hl, maxLiterals])]

/-- The decoder's loop with more output already made: the output is put in front. -/
theorem decodeBlocks_out (fuel : Nat) (rest : Bytes) (k : Nat) (pre out : Bytes) (a : Bool) :
    decodeBlocks fuel rest k (pre ++ out) a
      = { decodeBlocks fuel rest k out a with out := pre ++ (decodeBlocks fuel rest k out a).out } := by
  induction fuel generalizing rest k out a with
  | zero => simp [decodeBlocks]
  | succ fuel ih =>
    rcases rest with _ | ⟨c, tl⟩
    · simp [decodeBlocks]
    · simp only [decodeBlocks]
      split
      · rfl
      · split
        · simp
        · split
          · rw [show pre ++ out ++ List.take (c.toNat - 1) tl ++ [codecDelim]
              = pre ++ (out ++ List.take (c.toNat - 1) tl ++ [codecDelim]) by simp]
            exact ih ..
          · rw [show pre ++ out ++ List.take (c.toNat - 1) tl = pre ++ (out ++ List.take (c.toNat - 1) tl) by simp]
            exact ih ..

/-- The decoder's loop from a later index: only the index it stops at moves. -/
theorem decodeBlocks_index (fuel : Nat) (rest : Bytes) (j k : Nat) (out : Bytes) (a : Bool) :
    decodeBlocks fuel rest (j + k) out a
      = { decodeBlocks fuel rest k out a with stop := j + (decodeBlocks fuel rest k out a).stop } := by
  induction fuel generalizing rest k out a with
  | zero => simp [decodeBlocks]
  | succ fuel ih =>
    rcases rest with _ | ⟨c, tl⟩
    · simp [decodeBlocks]
    · simp only [decodeBlocks]
      split
      · rfl
      · split
        · simp only [RawDecode.mk.injEq, true_and, and_true]; omega
        · split <;> rw [show j + k + 1 + (c.toNat - 1) = j + (k + 1 + (c.toNat - 1)) by omega] <;> exact ih ..

/-- The decoder's loop with more fuel than it needs. -/
theorem decodeBlocks_fuel {f g : Nat} {rest : Bytes} (hf : rest.length < f) (hg : rest.length < g) (k : Nat)
    (out : Bytes) (a : Bool) : decodeBlocks f rest k out a = decodeBlocks g rest k out a := by
  induction f generalizing g rest k out a with
  | zero => omega
  | succ f ih =>
    obtain ⟨g, rfl⟩ : ∃ g', g = g' + 1 := ⟨g - 1, by omega⟩
    rcases rest with _ | ⟨c, tl⟩
    · simp [decodeBlocks]
    · simp only [List.length_cons] at hf hg
      simp only [decodeBlocks]
      have h : (tl.drop (c.toNat - 1)).length ≤ tl.length := by simp
      split
      · rfl
      · split
        · rfl
        · split <;> exact ih (by omega) (by omega) ..

/-- One turn of the decoder's loop on a whole block with input after it (R101). -/
theorem decodeBlocks_block {fuel k : Nat} {c b : Byte} {lits rest out : Bytes} {a : Bool} (hc : c ≠ codecDelim)
    (hl : lits.length = c.toNat - 1) :
    decodeBlocks (fuel + 1) (c :: (lits ++ b :: rest)) k out a
      = decodeBlocks fuel (b :: rest) (k + 1 + lits.length)
          (out ++ lits ++ (if c = 0xFF then [] else [codecDelim])) (!decide (c = 0xFF)) := by
  rw [decodeBlocks, if_neg hc, if_neg (by simp only [List.length_append, List.length_cons]; omega), ← hl]
  by_cases hff : c = 0xFF
  · rw [if_neg (fun h => h.2 hff), if_pos hff, decide_eq_true hff]; simp
  · rw [if_pos ⟨by simp, hff⟩, if_neg hff, decide_eq_false hff]; simp

/-- One turn of the decoder's loop on a whole block that ends the input (R101). -/
theorem decodeBlocks_lastBlock {fuel k : Nat} {c : Byte} {lits out : Bytes} {a : Bool} (hc : c ≠ codecDelim)
    (hl : lits.length = c.toNat - 1) :
    decodeBlocks (fuel + 1) (c :: lits) k out a = ⟨out ++ lits, .ended, k + 1 + lits.length, false⟩ := by
  rw [decodeBlocks, if_neg hc, if_neg (by omega), ← hl, if_neg (by simp)]
  cases fuel <;> simp [decodeBlocks]

/-- The decoder from any index, output and enough fuel, by way of `DecodeRaw` (R101). The artifact flag it was given only
survives when it stops at once. -/
theorem decodeBlocks_eq_decodeRaw {fuel : Nat} {b : Byte} {rest : Bytes} (h : rest.length + 1 < fuel) (k : Nat)
    (out : Bytes) (a : Bool) :
    decodeBlocks fuel (b :: rest) k out a
      = { out := out ++ (decodeRaw (b :: rest)).out
          outcome := (decodeRaw (b :: rest)).outcome
          stop := k + (decodeRaw (b :: rest)).stop
          artifact := if b = codecDelim then a else (decodeRaw (b :: rest)).artifact } := by
  have h1 := decodeBlocks_out fuel (b :: rest) k out [] a
  have h2 := decodeBlocks_index fuel (b :: rest) k 0 [] a
  simp only [List.append_nil, Nat.add_zero] at h1 h2
  rw [h1, h2]
  have h3 : decodeBlocks fuel (b :: rest) 0 [] a
      = { decodeRaw (b :: rest) with artifact := if b = codecDelim then a else (decodeRaw (b :: rest)).artifact } := by
    rw [decodeRaw, decodeBlocks_fuel (f := fuel) (g := (b :: rest).length + 1) (by simpa using h) (by simp)]
    simp only [decodeBlocks]
    by_cases hb : b = codecDelim
    · simp [hb]
    · simp [hb]
  rw [h3]

/-- The decoder's output is no longer than the input it has taken. -/
theorem decodeBlocks_bounds (fuel : Nat) (rest : Bytes) (k : Nat) (out : Bytes) (a : Bool) :
    (decodeBlocks fuel rest k out a).out.length ≤ out.length + rest.length
      ∧ (decodeBlocks fuel rest k out a).stop ≤ k + rest.length := by
  induction fuel generalizing rest k out a with
  | zero => simp [decodeBlocks]
  | succ fuel ih =>
    rcases rest with _ | ⟨c, tl⟩
    · simp [decodeBlocks]
    · simp only [decodeBlocks]
      split
      · simp
      · rename_i hc
        split
        · simp only [List.length_append, List.length_cons]; omega
        · have h1 : (List.take (c.toNat - 1) tl).length = c.toNat - 1 := by simp; omega
          have h2 : (List.drop (c.toNat - 1) tl).length = tl.length - (c.toNat - 1) := by simp
          split
          · obtain ⟨h3, h4⟩ := ih (tl.drop (c.toNat - 1)) (k + 1 + (c.toNat - 1))
              (out ++ tl.take (c.toNat - 1) ++ [codecDelim]) true
            simp only [List.length_append, List.length_cons, List.length_nil, h1, h2] at h3 h4 ⊢
            omega
          · obtain ⟨h3, h4⟩ := ih (tl.drop (c.toNat - 1)) (k + 1 + (c.toNat - 1))
              (out ++ tl.take (c.toNat - 1)) false
            simp only [List.length_append, List.length_cons, h1, h2] at h3 h4 ⊢
            omega

/-- `DecodeRaw` makes no more bytes than it is given, and stops within its input. -/
theorem decodeRaw_bounds (input : Bytes) :
    (decodeRaw input).out.length ≤ input.length ∧ (decodeRaw input).stop ≤ input.length := by
  have h := decodeBlocks_bounds (input.length + 1) input 0 [] false
  simpa [decodeRaw] using h

end Sys2Proof.Machine
end

