-- ==== Sys2Proof/Laws/Decode.lean ====
section
/-! SUPPORT. The fields of a command word: taking a word apart and putting it together undo each other (R70), and which
fields the decoder reads as which instruction (R74, R75). -/

namespace Sys2Proof

/-- The fields of the word put together from them (R70). -/
@[simp] theorem cmdFields_wordOfFields (f : CmdFields) : cmdFields (wordOfFields f) = f := by
  obtain ⟨a, b, c⟩ := f
  simp only [cmdFields, wordOfFields, CmdFields.mk.injEq]
  refine ⟨?_, ?_, ?_⟩ <;> ext i hi
  · simp [show i < 32 by omega, hi, show i < 16 by omega]
  · simp [show 8 + i < 32 by omega, hi, show 8 + i < 16 by omega]
  · simp [show 16 + i < 32 by omega, show ¬(16 + i < 16) by omega, show 16 + i - 8 = 8 + i by omega,
      BitVec.getLsbD_of_ge a (16 + i) (by omega), BitVec.getLsbD_eq_getElem hi]

/-- The word put together from the fields of a word (R70): no bit is dropped. -/
@[simp] theorem wordOfFields_cmdFields (w : Word) : wordOfFields (cmdFields w) = w := by
  ext i hi
  simp only [cmdFields, wordOfFields, BitVec.getElem_or, BitVec.getElem_shiftLeft, BitVec.getElem_setWidth,
    BitVec.getLsbD_extractLsb']
  rw [← BitVec.getLsbD_eq_getElem hi]
  by_cases h1 : i < 16
  · by_cases h2 : i < 8
    · simp [h1, h2]
    · simp [h1, h2, show i - 8 < 8 by omega, show 8 + (i - 8) = i by omega]
  · simp [h1, show i - 16 < 16 by omega, show 16 + (i - 16) = i by omega, show ¬i < 8 by omega, show ¬i - 8 < 8 by omega]

/-- Words with the same fields are the same word. -/
theorem wordOfFields_injective {f g : CmdFields} (h : wordOfFields f = wordOfFields g) : f = g := by
  rw [← cmdFields_wordOfFields f, h, cmdFields_wordOfFields]

/-- The decoder reads an instruction from exactly the fields it is written with (R74, R75). -/
theorem decodeFields_eq_ok (f : CmdFields) (i : Instr) : decodeFields f = .ok i ↔ i.fields = f := by
  constructor
  · obtain ⟨a, b, c⟩ := f
    unfold decodeFields plainCommand
    intro h
    dsimp only at h
    rw [ite_eq_iff] at h
    rcases h with ⟨-, h⟩ | ⟨hc, h⟩
    · cases h
    rw [ne_eq, not_not] at hc
    subst hc
    iterate 9
      rw [ite_eq_iff] at h
      rcases h with ⟨rfl, h⟩ | ⟨-, h⟩
      · rw [ite_eq_iff] at h
        rcases h with ⟨rfl, h⟩ | ⟨-, h⟩
        · cases h; rfl
        · cases h
    iterate 2
      rw [ite_eq_iff] at h
      rcases h with ⟨rfl, h⟩ | ⟨-, h⟩
      · cases h; rfl
    cases h
  · rintro rfl
    cases i <;> rfl

/-- Clearing the `DELIM` bits of a word (the match mask `0xFFFF00FF` of the span commands, R74). -/
theorem wordOfFields_and_delimMask (o d : Byte) (r : BitVec 16) :
    wordOfFields ⟨o, d, r⟩ &&& 0xFFFF00FF = wordOfFields ⟨o, 0, r⟩ := by
  ext i hi
  simp only [wordOfFields]
  interval_cases i <;> simp [BitVec.getLsbD_of_ge]

end Sys2Proof
end

