-- ==== Sys2Proof/Laws/HostBus.lean ====
section
/-! SUPPORT. The host's side of the bus: which accesses are allowed (R21, R51, R52), what the shared updates of one access
are, and the byte order (R52). -/

namespace Sys2Proof.Machine

/-- The offsets of the window that reach no register (R21, R51). -/
theorem regAt_eq_none (o : BitVec 6) : regAt o = none ↔ o.toNat % 4 ≠ 0 ∨ o = 0x38 ∨ o = 0x3C := by
  revert o; decide

/-- The offset of the register an offset reaches (R21). -/
theorem offset_of_regAt {o : BitVec 6} {r : Reg} (h : regAt o = some r) : r.offset = o := by
  revert h; revert o; cases r <;> decide

/-- Every register is reached at its offset (R21). -/
@[simp] theorem regAt_offset (r : Reg) : regAt r.offset = some r := by cases r <;> rfl

/-- A read of `M` the block takes (R52) is one R176 does not refuse. -/
theorem memAccessLegal_iff_read (s : State) (width a : Nat) :
    memAccessLegal s width a = true ↔ ¬RefusedAccess s.params (.memRead width a) := by
  simp [memAccessLegal, RefusedAccess]; tauto

/-- A write to `M` the block takes (R52) is one R176 does not refuse. -/
theorem memAccessLegal_iff_write (s : State) (width a : Nat) (v : Word) :
    memAccessLegal s width a = true ↔ ¬RefusedAccess s.params (.memWrite width a v) := by
  simp [memAccessLegal, RefusedAccess]; tauto

/-- Taking an event off the list does not change which accesses are allowed. -/
@[simp] theorem memAccessLegal_advanceHost (rest : List HostEvent) (s : State) (width a : Nat) :
    memAccessLegal (advanceHost rest s) width a = memAccessLegal s width a := rfl

/-- With an empty slot, taking an event off the list changes nothing else. -/
theorem advanceHost_of_idle {s : State} (h : s.pending = none) (rest : List HostEvent) :
    advanceHost rest s = { s with host := rest } := by
  simp [advanceHost, h]

/-- With a command pending, taking an event off the list brings its engine step one access nearer (R210). -/
theorem advanceHost_of_pending {s : State} {p : Pending} (h : s.pending = some p) (rest : List HostEvent) :
    advanceHost rest s = { s with host := rest, pending := some { p with wait := p.wait - 1 } } := by
  simp [advanceHost, h]

/-- `BUSY` is the slot (R30). -/
theorem busy_eq_false {s : State} : s.busy = false ↔ s.pending = none := by simp [State.busy]

theorem busy_eq_true {s : State} : s.busy = true ↔ ∃ p, s.pending = some p := by
  simp [State.busy, Option.isSome_iff_exists]

/-- `FCAUSE` keeps the first cause (R174), in the statements' own words. -/
theorem firstCause_eq_fcauseAfter (s : State) (c : FaultCode) : firstCause s.fcause c = s.fcauseAfter c := by
  unfold firstCause State.fcauseAfter; cases s.fcause <;> simp

/-- `raise Fault(c)` is the fault completion of R173, in the statements' own words. -/
theorem raiseFault_eq_afterFault (c : FaultCode) (s : State) : raiseFault c s = s.afterFault c := by
  rw [State.afterFault, ← firstCause_eq_fcauseAfter]; rfl

/-- A model fault is in the record after it is recorded, and none is forgotten (R32). -/
theorem mem_recordModelFault (f : Fault) (s : State) : f ∈ (recordModelFault f s).modelFaults := by
  simp only [recordModelFault_modelFaults]; split <;> simp_all

theorem mem_recordModelFault_of_mem {f g : Fault} {s : State} (h : g ∈ s.modelFaults) :
    g ∈ (recordModelFault f s).modelFaults := by
  simp only [recordModelFault_modelFaults]; split <;> simp [h]

/-- What an undefined byte does to a command is what R57 says. -/
theorem undefinedRead_records (s : State) : RecordsUndefinedRead s (undefinedRead s) :=
  ⟨_, _, mem_recordModelFault .undefinedRead s, fun _ h => mem_recordModelFault_of_mem h, rfl⟩

/-- The record keeps no repeats. -/
theorem nodup_recordModelFault {f : Fault} {s : State} (h : s.modelFaults.Nodup) :
    (recordModelFault f s).modelFaults.Nodup := by
  simp only [recordModelFault_modelFaults]
  split
  · exact h
  · rename_i hf
    refine List.nodup_append.2 ⟨h, by simp, ?_⟩
    rintro a ha b hb rfl
    rw [List.mem_singleton] at hb
    exact hf (hb ▸ ha)

/-- The low bytes of a value (R52), written out. -/
theorem littleEndianBytes_eq_take {width : Nat} (h : width ≤ 4) (v : Word) :
    littleEndianBytes v width
      = ([v.extractLsb' 0 8, v.extractLsb' 8 8, v.extractLsb' 16 8, v.extractLsb' 24 8] : Bytes).take width := by
  interval_cases width <;> simp [littleEndianBytes]
  · ext i hi; simp
  · refine ⟨?_, ?_⟩ <;> ext i hi <;> simp
  · refine ⟨?_, ?_, ?_⟩ <;> ext i hi <;> simp

/-- Byte `k` of a value read least significant byte first (R52). -/
theorem extractLsb'_littleEndianValue (bs : Bytes) (h : bs.length ≤ 4) (k : Nat) (hk : k < 4) :
    (littleEndianValue bs).extractLsb' (8 * k) 8 = bs.getD k 0 := by
  induction bs generalizing k with
  | nil => simp [littleEndianValue]
  | cons b bs ih =>
    simp only [List.length_cons] at h
    rcases k with _ | k
    · simp only [littleEndianValue]
      ext i hi; simp [hi, show i < 32 by omega]
    · have := ih (by omega) k (by omega)
      simp only [List.getD_cons_succ]
      rw [← this]
      ext i hi
      simp [littleEndianValue, show 8 * (k + 1) + i < 32 by omega, show ¬(8 * (k + 1) + i < 8) by omega,
        show 8 * (k + 1) + i - 8 = 8 * k + i by omega, BitVec.getLsbD_of_ge b (8 * (k + 1) + i) (by omega)]
      rw [BitVec.getLsbD_eq_getElem]

/-- Running one more step. -/
theorem core_run_succ {s t : State} (n : Nat) (h : step s = .next t) :
    Sys2Proof.core.run (n + 1) s = Sys2Proof.core.run n t := by
  have h' : Sys2Proof.core.step s = .next t := h
  simp only [Host.Core.run, h']

end Sys2Proof.Machine
end

