-- ==== Sys2Proof/Laws/Ring.lean ====
section
/-! SUPPORT. The ring's arithmetic: indices modulo the capacity, the bytes at logical positions, repeated `Push` and `Pop`,
and the scan of `FindSpan`. -/

namespace Sys2Proof.Machine

/-- An index moved on (R131), as a number. -/
theorem nextIndex_toNat {s : State} {i : Word} (h : 1 ≤ s.rbCap.toNat) :
    (nextIndex s i).toNat = (i.toNat + 1) % s.rbCap.toNat := by
  have h1 : (i.toNat + 1) % s.rbCap.toNat < s.rbCap.toNat := Nat.mod_lt _ h
  have h2 := s.rbCap.isLt
  rw [nextIndex, BitVec.toNat_ofNat, Nat.mod_eq_of_lt (by omega)]

/-- Moving an index on, without the modulus. -/
theorem succ_mod_eq {i c : Nat} (h : i < c) : (i + 1) % c = if i + 1 = c then 0 else i + 1 := by
  split
  · rename_i h1; rw [h1, Nat.mod_self]
  · rw [Nat.mod_eq_of_lt (by omega)]

/-- A sum of two indices, without the modulus. -/
theorem add_mod_eq {i k c : Nat} (hi : i < c) (hk : k ≤ c) :
    (i + k) % c = if i + k < c then i + k else i + k - c := by
  split
  · rename_i h; exact Nat.mod_eq_of_lt h
  · rw [Nat.mod_eq_sub_mod (by omega), Nat.mod_eq_of_lt (by omega)]

/-- The address of a logical index (R130), without the modulus. -/
theorem ringPos_eq {s : State} {k : Nat} (ht : s.rbTail.toNat < s.rbCap.toNat) (hk : k ≤ s.rbCap.toNat) :
    ringPos s k = s.rbBase.toNat
      + (if s.rbTail.toNat + k < s.rbCap.toNat then s.rbTail.toNat + k else s.rbTail.toNat + k - s.rbCap.toNat) := by
  rw [ringPos, add_mod_eq ht hk]

/-- A logical index lies in the storage region (R27, R130). -/
theorem ringPos_bounds {s : State} (h : 1 ≤ s.rbCap.toNat) (k : Nat) :
    s.rbBase.toNat ≤ ringPos s k ∧ ringPos s k < s.rbBase.toNat + s.rbCap.toNat := by
  have := Nat.mod_lt (s.rbTail.toNat + k) h
  simp only [ringPos]; omega

/-- Different logical indices lie at different addresses. -/
theorem ringPos_ne {s : State} {j k : Nat} (ht : s.rbTail.toNat < s.rbCap.toNat) (hj : j < s.rbCap.toNat)
    (hk : k < s.rbCap.toNat) (h : j ≠ k) : ringPos s j ≠ ringPos s k := by
  rw [ringPos_eq ht (by omega), ringPos_eq ht (by omega)]
  split <;> split <;> omega

/-- The bytes at logical indices (R130): answered exactly when every one is defined. -/
theorem ringBytes_eq_some {s : State} {k n : Nat} {bs : Bytes} :
    ringBytes s k n = some bs ↔
      bs.length = n ∧ ∀ i (h : i < bs.length), s.mem.read (ringPos s (k + i)) = some bs[i] := by
  induction n generalizing k bs with
  | zero =>
    simp only [ringBytes, Option.some.injEq]
    constructor
    · rintro rfl; exact ⟨rfl, fun i h => absurd h (by simp)⟩
    · rintro ⟨h, -⟩; exact (List.eq_nil_of_length_eq_zero h).symm
  | succ n ih =>
    rw [ringBytes]
    constructor
    · intro h
      split at h
      · rename_i b bs' h1 h2
        simp only [Option.some.injEq] at h
        subst h
        obtain ⟨h3, h4⟩ := ih.1 h2
        refine ⟨by simp [h3], fun i hi => ?_⟩
        rcases i with _ | i
        · simpa using h1
        · have := h4 i (by simpa using hi)
          rw [show k + (i + 1) = k + 1 + i by omega]; simpa using this
      · cases h
    · rintro ⟨h1, h2⟩
      rcases bs with _ | ⟨b, bs⟩
      · simp at h1
      · have hb := h2 0 (by simp)
        have hr : ringBytes s (k + 1) n = some bs := by
          refine ih.2 ⟨by simpa using h1, fun i hi => ?_⟩
          have := h2 (i + 1) (by simpa using hi)
          rw [show k + 1 + i = k + (i + 1) by omega]; simpa using this
        simp at hb
        rw [hb, hr]

/-- A run of logical indices whose bytes are all defined is answered. -/
theorem ringBytes_isSome {s : State} {k n : Nat} (h : ∀ i, i < n → (s.mem.read (ringPos s (k + i))).isSome = true) :
    ∃ bs, ringBytes s k n = some bs := by
  induction n generalizing k with
  | zero => exact ⟨[], rfl⟩
  | succ n ih =>
    obtain ⟨b, hb⟩ := Option.isSome_iff_exists.1 (h 0 (by omega))
    obtain ⟨bs, hbs⟩ := ih (k := k + 1) fun i hi => by
      have := h (i + 1) (by omega)
      rwa [show k + 1 + i = k + (i + 1) by omega]
    simp only [Nat.add_zero] at hb
    exact ⟨b :: bs, by rw [ringBytes, hb, hbs]⟩

/-- All of the ring's bytes are answered while the ring is ready (R134). -/
theorem State.RingReady.heldBytes_isSome {s : State} (h : s.RingReady) : ∃ held, heldBytes s = some held :=
  ringBytes_isSome fun i hi => by simpa using h.held i hi

/-- What `heldBytes` answers (R130). -/
theorem heldBytes_eq_some {s : State} {held : Bytes} :
    heldBytes s = some held ↔
      held.length = s.count ∧ ∀ i (h : i < held.length), s.mem.read (ringPos s i) = some held[i] := by
  rw [heldBytes, ringBytes_eq_some]; simp

/-- `Pop` repeated changes only `tail` and `full` (R131). -/
theorem ringPopN_eq (n : Nat) (s : State) :
    ringPopN n s = { s with rbTail := (ringPopN n s).rbTail, full := (ringPopN n s).full } := by
  induction n generalizing s with
  | zero => rfl
  | succ n ih => rw [ringPopN, ih]; rfl

/-- `Pop` repeated at least once clears `full` (R131). -/
theorem ringPopN_full (n : Nat) (s : State) : (ringPopN n s).full = (s.full && n == 0) := by
  induction n generalizing s with
  | zero => simp [ringPopN]
  | succ n ih => rw [ringPopN, ih]; simp

/-- `Pop` repeated moves `tail` on by as many (R131). -/
theorem ringPopN_tail {s : State} (n : Nat) (h : s.rbTail.toNat < s.rbCap.toNat) :
    (ringPopN n s).rbTail.toNat = (s.rbTail.toNat + n) % s.rbCap.toNat := by
  induction n generalizing s with
  | zero => simp [ringPopN, Nat.mod_eq_of_lt h]
  | succ n ih =>
    have h1 : (ringPop s).rbTail.toNat = (s.rbTail.toNat + 1) % s.rbCap.toNat := by
      rw [ringPop_rbTail, nextIndex_toNat (by omega)]
    have h2 : (ringPop s).rbTail.toNat < (ringPop s).rbCap.toNat := by
      rw [h1, ringPop_rbCap]; exact Nat.mod_lt _ (by omega)
    rw [ringPopN, ih h2, h1, ringPop_rbCap, Nat.mod_add_mod, show s.rbTail.toNat + 1 + n = s.rbTail.toNat + (n + 1) by omega]

/-- `Push` repeated changes only memory, `head` and `full` (R131). -/
theorem ringPushAll_eq (bs : Bytes) (s : State) :
    ringPushAll bs s = { s with
      mem := (ringPushAll bs s).mem
      rbHead := (ringPushAll bs s).rbHead
      full := (ringPushAll bs s).full } := by
  induction bs generalizing s with
  | nil => rfl
  | cons b bs ih => rw [ringPushAll, ih]; rfl

/-- `FindSpan`'s scan with a later start: both indices move on together. -/
theorem findSpanFrom_index (d : Byte) (j k : Nat) (prev : Option Nat) (bs : Bytes) :
    findSpanFrom d (j + k) (prev.map (j + ·)) bs = (findSpanFrom d k prev bs).map fun p => (j + p.1, j + p.2) := by
  induction bs generalizing k prev with
  | nil => simp [findSpanFrom]
  | cons b bs ih =>
    have h0 := ih (k + 1) prev
    have h1 := ih (k + 1) (some k)
    simp only [Option.map_some] at h1
    rcases prev with _ | i
    · simp only [findSpanFrom, Option.map_none] at h0 ⊢
      split
      · exact h1
      · exact h0
    · simp only [findSpanFrom, Option.map_some] at h0 ⊢
      split
      · rw [show j + k - (j + i) = k - i by omega]
        split
        · simp
        · exact h1
      · exact h0

/-- The fields a repeated `Pop` leaves alone (R131). -/
@[simp] theorem ringPopN_mem (n : Nat) (s : State) : (ringPopN n s).mem = s.mem := by rw [ringPopN_eq]
@[simp] theorem ringPopN_rbBase (n : Nat) (s : State) : (ringPopN n s).rbBase = s.rbBase := by rw [ringPopN_eq]
@[simp] theorem ringPopN_rbCap (n : Nat) (s : State) : (ringPopN n s).rbCap = s.rbCap := by rw [ringPopN_eq]
@[simp] theorem ringPopN_rbHead (n : Nat) (s : State) : (ringPopN n s).rbHead = s.rbHead := by rw [ringPopN_eq]
@[simp] theorem ringPopN_init (n : Nat) (s : State) : (ringPopN n s).init = s.init := by rw [ringPopN_eq]
@[simp] theorem ringPopN_params (n : Nat) (s : State) : (ringPopN n s).params = s.params := by rw [ringPopN_eq]

/-- The fields a repeated `Push` leaves alone (R131). -/
@[simp] theorem ringPushAll_rbBase (bs : Bytes) (s : State) : (ringPushAll bs s).rbBase = s.rbBase := by
  rw [ringPushAll_eq]
@[simp] theorem ringPushAll_rbCap (bs : Bytes) (s : State) : (ringPushAll bs s).rbCap = s.rbCap := by
  rw [ringPushAll_eq]
@[simp] theorem ringPushAll_rbTail (bs : Bytes) (s : State) : (ringPushAll bs s).rbTail = s.rbTail := by
  rw [ringPushAll_eq]
@[simp] theorem ringPushAll_init (bs : Bytes) (s : State) : (ringPushAll bs s).init = s.init := by
  rw [ringPushAll_eq]
@[simp] theorem ringPushAll_params (bs : Bytes) (s : State) : (ringPushAll bs s).params = s.params := by
  rw [ringPushAll_eq]

/-- The count (R28), without the modulus. -/
theorem State.count_eq {s : State} (hh : s.rbHead.toNat < s.rbCap.toNat) (ht : s.rbTail.toNat < s.rbCap.toNat) :
    s.count =
      if s.full = true then s.rbCap.toNat
      else if s.rbTail.toNat ≤ s.rbHead.toNat then s.rbHead.toNat - s.rbTail.toNat
      else s.rbHead.toNat + s.rbCap.toNat - s.rbTail.toNat := by
  unfold State.count
  split
  · rfl
  · split
    · rw [Int.emod_eq_of_lt (by omega) (by omega)]; omega
    · have : ((s.rbHead.toNat : Int) - s.rbTail.toNat) % s.rbCap.toNat
          = s.rbHead.toNat - s.rbTail.toNat + s.rbCap.toNat := by
        rw [← Int.add_emod_right, Int.emod_eq_of_lt (by omega) (by omega)]
      omega

/-- `head` is where the next byte goes: `count` positions after `tail` (R130, R131). -/
theorem State.RingReady.head_eq {s : State} (h : s.RingReady) :
    s.rbHead.toNat = (s.rbTail.toNat + s.count) % s.rbCap.toNat := by
  have hc := State.count_eq h.head_lt h.tail_lt
  have hh := h.head_lt
  have ht := h.tail_lt
  have hf : s.full = true → s.rbHead.toNat = s.rbTail.toNat := fun hf => congrArg BitVec.toNat (h.full_eq hf)
  have hle : s.count ≤ s.rbCap.toNat := by rw [hc]; split <;> (try split) <;> omega
  rw [add_mod_eq ht hle, hc]
  split
  · rename_i hfull; have := hf hfull; rw [if_neg (by omega)]; omega
  · split <;> split <;> omega

/-- The held bytes depend on memory and the ring registers only (R130). -/
theorem heldBytes_congr {s t : State} (hm : t.mem = s.mem) (hb : t.rbBase = s.rbBase) (hc : t.rbCap = s.rbCap)
    (hh : t.rbHead = s.rbHead) (ht : t.rbTail = s.rbTail) (hf : t.full = s.full) : heldBytes t = heldBytes s := by
  have hp : ∀ k, ringPos t k = ringPos s k := fun k => by simp [ringPos, hb, hc, ht]
  have hn : t.count = s.count := by simp [State.count, hc, hh, ht, hf]
  apply Option.ext
  intro held
  rw [heldBytes_eq_some, heldBytes_eq_some, hn, hm]
  simp only [hp]

/-- A ring stays ready when its registers stay and no storage byte becomes undefined (R134). -/
theorem State.RingReady.congr {s t : State} (h : s.RingReady) (hp : t.params = s.params) (hb : t.rbBase = s.rbBase)
    (hc : t.rbCap = s.rbCap) (hh : t.rbHead = s.rbHead) (ht : t.rbTail = s.rbTail) (hf : t.full = s.full)
    (hi : t.init = s.init)
    (hm : ∀ a, s.rbBase.toNat ≤ a → a < s.rbBase.toNat + s.rbCap.toNat → (s.mem.read a).isSome = true →
      (t.mem.read a).isSome = true) : t.RingReady := by
  have hpos : ∀ k, ringPos t k = ringPos s k := fun k => by simp [ringPos, hb, hc, ht]
  have hn : t.count = s.count := by simp [State.count, hc, hh, ht, hf]
  refine ⟨hi.trans h.init, by rw [hc]; exact h.cap_pos, by rw [hc, hp]; exact h.cap_le,
    by rw [hb, hc, hp]; exact h.region, by rw [hc, hh]; exact h.head_lt, by rw [hc, ht]; exact h.tail_lt,
    by rw [hf, hh, ht]; exact h.full_eq, fun k hk => ?_⟩
  have hbd := ringPos_bounds h.cap_pos k
  rw [hpos]
  exact hm _ hbd.1 hbd.2 (h.held k (by omega))

/-- What removing bytes and storing others leaves (R138, R140), field by field. -/
theorem extractBytes_eq (n : Nat) (bs : Bytes) (dst r0 r1 : Word) (s : State) :
    extractBytes n bs dst r0 r1 s = { s with
      mem := s.mem.writeRange dst.toNat bs
      rbTail := (ringPopN n s).rbTail
      full := s.full && n == 0
      code := .outcome .ok
      res0 := r0
      res1 := r1
      dstat := Dstat.zero
      pending := none } := by
  have h := congrArg (fun t : State => finish .ok r0 r1 Dstat.zero { t with mem := s.mem.writeRange dst.toNat bs })
    (ringPopN_eq n s)
  rw [← ringPopN_full]
  exact h

/-- What appending bytes leaves (R137), field by field. -/
theorem appendBytes_eq (bs : Bytes) (s : State) :
    appendBytes bs s = { s with
      mem := (ringPushAll bs s).mem
      rbHead := (ringPushAll bs s).rbHead
      full := (ringPushAll bs s).full
      code := .outcome .ok
      res0 := s.operands.a1
      res1 := BitVec.ofNat 32 (ringPushAll bs s).count
      dstat := Dstat.zero
      pending := none } :=
  congrArg (finish .ok s.operands.a1 (BitVec.ofNat 32 (ringPushAll bs s).count) Dstat.zero) (ringPushAll_eq bs s)

end Sys2Proof.Machine
end

