-- ==== Sys2Proof/Laws/Exec.lean ====
section
/-! SUPPORT. What a step can do, said once: the three ways a command ends, with what each command may have written before it
ends, and what one host event can change. -/

namespace Sys2Proof.Machine

/-- The commands that may raise a fault code (R170, the column "commands"). -/
def MayRaise (i : Instr) (c : FaultCode) : Prop :=
  match c with
  | .rbOverflow => i = .rbAdd
  | .badRange => i = .enc ∨ i = .dec ∨ i = .encpkt ∨ i = .decpkt ∨ i = .crc16 ∨ i = .rbAdd ∨ i = .rbDeq ∨ ∃ d, i = .rbDeqspan d
  | .rbUninit => i = .rbEmpty ∨ i = .rbAdd ∨ i = .rbDeq ∨ (∃ d, i = .rbHasspan d) ∨ ∃ d, i = .rbDeqspan d
  | .badCap => i = .rbInit
  | .illegalCmd => False
  | .badAccess => False
  | .cmdWhileBusy => False

/-- The commands that may end with an outcome code (R170, the column "commands"). -/
def MayAnswer (i : Instr) (c : OutcomeCode) : Prop :=
  match c with
  | .ok => True
  | .decodingFailed => i = .dec ∨ i = .decpkt
  | .dstOverflow => i = .enc ∨ i = .dec ∨ i = .encpkt ∨ i = .decpkt ∨ ∃ d, i = .rbDeqspan d
  | .noSpan => ∃ d, i = .rbDeqspan d

/-- What a command may have written before its non-fault completion: memory only if it has a destination or appends, ring
registers only if it is one of the four that write them (R27). -/
inductive Written (i : Instr) (s : State) : State → Prop
  | mk (m : Memory) (base cap head tail : Word) (full init : Bool)
      (hm : i = .crc16 ∨ i = .rbInit ∨ i = .rbEmpty ∨ (∃ d, i = .rbHasspan d) → m = s.mem)
      (hr : ¬(i = .rbInit ∨ i = .rbAdd ∨ i = .rbDeq ∨ ∃ d, i = .rbDeqspan d) →
        base = s.rbBase ∧ cap = s.rbCap ∧ head = s.rbHead ∧ tail = s.rbTail ∧ full = s.full ∧ init = s.init) :
      Written i s { s with
        mem := m
        rbBase := base
        rbCap := cap
        rbHead := head
        rbTail := tail
        full := full
        init := init }

/-- The ways a command ends (R172, R173, R57). -/
inductive Ends (i : Instr) (s : State) : State → Prop
  | fault (c : FaultCode) (h : MayRaise i c) : Ends i s (raiseFault c s)
  | undefined : Ends i s (undefinedRead s)
  | finished (c : OutcomeCode) (r0 r1 : Word) (d : Dstat) (u : State) (h : MayAnswer i c)
      (hd : i = .dec ∨ i = .decpkt ∨ d = Dstat.zero) (hu : Written i s u) : Ends i s (finish c r0 r1 d u)

theorem written_nothing (i : Instr) (s : State) : Written i s s :=
  .mk s.mem s.rbBase s.rbCap s.rbHead s.rbTail s.full s.init (fun _ => rfl) fun _ => by simp

/-- Delivery ends a codec command (R103 to R107). -/
theorem ends_deliver {i : Instr} (hi : i = .enc ∨ i = .dec ∨ i = .encpkt ∨ i = .decpkt) {c : OutcomeCode}
    (hc : c = .ok ∨ (c = .decodingFailed ∧ (i = .dec ∨ i = .decpkt))) {d : Dstat}
    (hd : i = .dec ∨ i = .decpkt ∨ d = Dstat.zero) (out : Bytes) (r1 : Word) (s : State) :
    Ends i s (deliver out c r1 d s) := by
  unfold deliver
  split
  · exact .finished _ _ _ _ _ (by simp only [MayAnswer]; tauto) hd (written_nothing i s)
  · refine .finished _ _ _ _ _ ?_ hd (.mk _ s.rbBase s.rbCap s.rbHead s.rbTail s.full s.init (fun h => ?_) fun _ => by simp)
    · rcases hc with rfl | ⟨rfl, h⟩ <;> simp [MayAnswer, *]
    · rcases hi with rfl | rfl | rfl | rfl <;> simp at h

/-- A command with a source and a destination ends as its continuation does, or in a fault. -/
theorem ends_withSourceAndDest {i : Instr}
    (hi : i = .enc ∨ i = .dec ∨ i = .encpkt ∨ i = .decpkt) {s : State} {k : Bytes → State} (hk : ∀ src, Ends i s (k src)) :
    Ends i s (withSourceAndDest s k) := by
  rcases withSourceAndDest_cases s k with ⟨src, -, -, -, h⟩ | h | h <;> rw [h]
  · exact hk src
  · exact .undefined
  · exact .fault _ (by simp only [MayRaise]; tauto)

/-- A gated ring command ends as what is behind the gate does, or in a fault (R133). -/
theorem ends_withRing {i : Instr}
    (hi : i = .rbEmpty ∨ i = .rbAdd ∨ i = .rbDeq ∨ (∃ d, i = .rbHasspan d) ∨ ∃ d, i = .rbDeqspan d) {s k : State}
    (hk : Ends i s k) : Ends i s (withRing s k) := by
  unfold withRing
  split
  · exact hk
  · exact .fault _ hi

/-- Removing bytes ends a command that may write the ring (R138, R140). -/
theorem ends_extractBytes {i : Instr} (hi : i = .rbDeq ∨ ∃ d, i = .rbDeqspan d) (n : Nat) (bs : Bytes)
    (dst r0 r1 : Word) (s : State) : Ends i s (extractBytes n bs dst r0 r1 s) := by
  rw [extractBytes_eq]
  refine .finished .ok r0 r1 Dstat.zero _ trivial (.inr (.inr rfl))
    (.mk (s.mem.writeRange dst.toNat bs) s.rbBase s.rbCap s.rbHead (ringPopN n s).rbTail (s.full && n == 0) s.init ?_ ?_)
  · rcases hi with rfl | ⟨d, rfl⟩ <;> simp
  · intro h; tauto

/-- Every command ends in one of the ways, whatever the state. -/
theorem exec_ends {i : Instr} {s t : State} (h : exec i s = .next t) : Ends i s t := by
  cases i with
  | enc =>
    cases h
    exact ends_withSourceAndDest (by simp) fun p => ends_deliver (by simp) (by simp) (by simp) ..
  | dec =>
    cases h
    exact ends_withSourceAndDest (by simp) fun p => ends_deliver (by simp) (by split <;> simp) (by simp) ..
  | encpkt =>
    cases h
    exact ends_withSourceAndDest (by simp) fun p => ends_deliver (by simp) (by simp) (by simp) ..
  | decpkt =>
    cases h
    refine ends_withSourceAndDest (by simp) fun p => ?_
    dsimp only
    split
    · exact ends_deliver (by simp) (by simp) (by simp) ..
    · exact .finished _ _ _ _ _ (.inr rfl) (by simp) (written_nothing ..)
  | crc16 =>
    cases h
    rcases withSource_cases s fun data => finish .ok ((crc16 data).setWidth 32) 0 Dstat.zero s with
      ⟨src, -, -, -, h⟩ | h | h <;> rw [h]
    · exact .finished _ _ _ _ _ trivial (by simp) (written_nothing ..)
    · exact .undefined
    · exact .fault _ (by simp [MayRaise])
  | rbInit =>
    cases h
    split
    · exact .fault _ rfl
    · exact .finished _ _ _ _ _ trivial (by simp)
        (.mk s.mem s.operands.a0 s.operands.a1 0 0 false true (fun _ => rfl) (by simp))
  | rbEmpty =>
    cases h
    exact ends_withRing (by simp) (.finished _ _ _ _ _ trivial (by simp) (written_nothing ..))
  | rbAdd =>
    cases h
    refine ends_withRing (by simp) ?_
    split
    · split
      · exact .fault _ rfl
      · rcases readSource_cases s fun bs => appendBytes bs s with ⟨src, -, -, h⟩ | ⟨-, h⟩ <;> rw [h]
        · rw [appendBytes_eq]
          exact .finished .ok s.operands.a1 _ Dstat.zero _ trivial (by simp)
            (.mk (ringPushAll src s).mem s.rbBase s.rbCap (ringPushAll src s).rbHead s.rbTail (ringPushAll src s).full
              s.init (by simp) (by simp))
        · exact .undefined
    · exact .fault _ (by simp [MayRaise])
  | rbDeq =>
    cases h
    refine ends_withRing (by simp) ?_
    split
    · split
      · exact ends_extractBytes (by simp) ..
      · exact .undefined
    · exact .fault _ (by simp [MayRaise])
  | rbHasspan d =>
    cases h
    refine ends_withRing (by simp) ?_
    split
    · split <;> exact .finished _ _ _ _ _ trivial (by simp) (written_nothing ..)
    · exact .undefined
  | rbDeqspan d =>
    cases h
    refine ends_withRing (by simp) ?_
    split
    · split
      · split
        · split
          · exact .finished _ _ _ _ _ (by simp [MayAnswer]) (by simp) (written_nothing ..)
          · exact ends_extractBytes (by simp) ..
        · exact .finished _ _ _ _ _ ⟨d, rfl⟩ (by simp) (written_nothing ..)
      · exact .undefined
    · exact .fault _ (by simp [MayRaise])

/-- What one host event other than reset can change: never a result register, `CODE`, `DSTAT`, a ring register or a
parameter; and it keeps the fault record (R174, R206). -/
inductive HostChanged (s : State) : State → Prop
  | mk (cmd arg0 arg1 arg2 arg3 : Word) (fault : Bool) (fcause : Option FaultCode) (pending : Option Pending) (mem : Memory)
      (modelFaults : List Fault) (draws : Nat) (host : List HostEvent) (response : Response)
      (hf : s.fault = true → fault = true) (hc : ∀ c, s.fcause = some c → fcause = some c)
      (hm : ∀ f ∈ s.modelFaults, f ∈ modelFaults) :
      HostChanged s { s with
        cmd := cmd
        arg0 := arg0
        arg1 := arg1
        arg2 := arg2
        arg3 := arg3
        fault := fault
        fcause := fcause
        pending := pending
        mem := mem
        modelFaults := modelFaults
        draws := draws
        host := host
        response := response }

theorem HostChanged.refl (s : State) : HostChanged s s :=
  .mk s.cmd s.arg0 s.arg1 s.arg2 s.arg3 s.fault s.fcause s.pending s.mem s.modelFaults s.draws s.host s.response id
    (fun _ h => h) fun _ h => h

theorem HostChanged.trans {s t u : State} (h : HostChanged s t) (h' : HostChanged t u) : HostChanged s u := by
  obtain ⟨_, _, _, _, _, _, _, _, _, _, _, _, _, hf, hc, hm⟩ := h
  obtain ⟨_, _, _, _, _, _, _, _, _, _, _, _, _, hf', hc', hm'⟩ := h'
  exact .mk _ _ _ _ _ _ _ _ _ _ _ _ _ (fun h => hf' (hf h)) (fun c h => hc' c (hc c h)) fun f h => hm' f (hm f h)

theorem hostChanged_advanceHost (rest : List HostEvent) (s : State) : HostChanged s (advanceHost rest s) :=
  .mk _ _ _ _ _ _ _ _ _ _ _ _ _ id (fun _ h => h) fun _ h => h

theorem hostChanged_respond (r : Response) (s : State) : HostChanged s (respond r s) :=
  .mk _ _ _ _ _ _ _ _ _ _ _ _ _ id (fun _ h => h) fun _ h => h

theorem hostChanged_recordFault (c : FaultCode) (s : State) : HostChanged s (recordFault c s) :=
  .mk _ _ _ _ _ _ _ _ _ _ _ _ _ (fun _ => rfl) (fun d h => by simp [firstCause, h]) fun _ h => h

theorem hostChanged_recordModelFault (f : Fault) (s : State) : HostChanged s (recordModelFault f s) :=
  .mk _ _ _ _ _ _ _ _ _ _ _ _ _ id (fun _ h => h) fun _ h => mem_recordModelFault_of_mem h

theorem hostChanged_badAccess (r : Response) (s : State) : HostChanged s (badAccess r s) :=
  (hostChanged_recordFault _ s).trans (hostChanged_respond r _)

theorem hostChanged_noteBusyAccess (s : State) : HostChanged s (noteBusyAccess s) := by
  unfold noteBusyAccess
  split
  · exact hostChanged_recordModelFault _ s
  · exact .refl s

theorem hostChanged_hostWriteReg (r : Reg) (v : Word) (s : State) : HostChanged s (hostWriteReg r v s) := by
  cases r <;> simp only [hostWriteReg, hostWriteCmd]
  case cmd =>
    split
    · exact hostChanged_recordFault _ s
    · exact .mk _ _ _ _ _ _ _ _ _ _ _ _ _ id (fun _ h => h) fun _ h => h
  case arg0 => exact .mk _ _ _ _ _ _ _ _ _ _ _ _ _ id (fun _ h => h) fun _ h => h
  case arg1 => exact .mk _ _ _ _ _ _ _ _ _ _ _ _ _ id (fun _ h => h) fun _ h => h
  case arg2 => exact .mk _ _ _ _ _ _ _ _ _ _ _ _ _ id (fun _ h => h) fun _ h => h
  case arg3 => exact .mk _ _ _ _ _ _ _ _ _ _ _ _ _ id (fun _ h => h) fun _ h => h
  all_goals exact hostChanged_recordFault _ s

/-- What a host event other than reset can change. -/
theorem hostChanged_hostStep {s : State} (h : ∀ rest, s.host ≠ .reset :: rest) : HostChanged s (hostStep s) := by
  unfold hostStep
  split
  · exact .refl s
  · rename_i rest _
    refine (hostChanged_advanceHost rest s).trans ?_
    unfold hostRegWrite
    split
    · exact (hostChanged_hostWriteReg ..).trans (hostChanged_respond ..)
    · exact hostChanged_badAccess ..
  · rename_i rest _
    refine (hostChanged_advanceHost rest s).trans ?_
    unfold hostRegRead
    split
    · exact hostChanged_respond ..
    · exact hostChanged_badAccess ..
  · rename_i rest _
    refine (hostChanged_advanceHost rest s).trans ?_
    unfold hostMemWrite
    split
    · split
      · exact (hostChanged_noteBusyAccess _).trans (hostChanged_respond ..)
      · exact .mk _ _ _ _ _ _ _ _ _ _ _ _ _ id (fun _ h => h) fun _ h => h
    · exact (hostChanged_noteBusyAccess _).trans (hostChanged_badAccess ..)
  · rename_i rest _
    refine (hostChanged_advanceHost rest s).trans ?_
    unfold hostMemRead
    split
    · split
      · exact (hostChanged_noteBusyAccess _).trans (hostChanged_respond ..)
      · exact ((hostChanged_noteBusyAccess _).trans (hostChanged_recordModelFault ..)).trans (hostChanged_respond ..)
    · exact (hostChanged_noteBusyAccess _).trans (hostChanged_badAccess ..)
  · unfold hostWait
    refine HostChanged.trans ?_ (hostChanged_respond ..)
    split <;> exact hostChanged_advanceHost ..
  · exact absurd ‹_› (h _)

end Sys2Proof.Machine
end

