-- ==== Sys2Proof/Laws/PerInstr.lean ====
section
/-! SUPPORT. The statement made of every instruction as syntax, one lemma per constructor: its command word carries exactly
the fields it is written with, in their places (R70 to R73). -/

namespace Sys2Proof.Laws.EncodedFields

/-- The command word of `i` has the fields of `i`: `OP` in bits 7:0, `DELIM` in bits 15:8, `RSVD` 0 (R70, R73). -/
def Statement (i : Instr) : Prop :=
  (encode i).extractLsb' 0 8 = i.fields.op ∧ (encode i).extractLsb' 8 8 = i.fields.delim
    ∧ (encode i).extractLsb' 16 16 = (0 : BitVec 16)

/-- The one argument behind the lemmas below. -/
theorem of_rsvd {i : Instr} (h : i.fields.rsvd = 0) : Statement i := by
  have hf : cmdFields (encode i) = i.fields := cmdFields_wordOfFields _
  exact ⟨congrArg CmdFields.op hf, congrArg CmdFields.delim hf, (congrArg CmdFields.rsvd hf).trans h⟩

theorem enc : Statement .enc := of_rsvd rfl
theorem dec : Statement .dec := of_rsvd rfl
theorem encpkt : Statement .encpkt := of_rsvd rfl
theorem decpkt : Statement .decpkt := of_rsvd rfl
theorem crc16 : Statement .crc16 := of_rsvd rfl
theorem rbInit : Statement .rbInit := of_rsvd rfl
theorem rbEmpty : Statement .rbEmpty := of_rsvd rfl
theorem rbAdd : Statement .rbAdd := of_rsvd rfl
theorem rbDeq : Statement .rbDeq := of_rsvd rfl
theorem rbHasspan (d : Byte) : Statement (.rbHasspan d) := of_rsvd rfl
theorem rbDeqspan (d : Byte) : Statement (.rbDeqspan d) := of_rsvd rfl

end Sys2Proof.Laws.EncodedFields
end

