-- ==== Sys2Proof/Tests/Slice0.lean ====
section
/-! SUPPORT. The model's own tests. Every expected value comes from outside the model: from the encodings of
30_encoding.md, from the rules, or from the tables and programs of 95_test_vectors.md (named in each comment). After the
tests stand the witnesses: for each obligation with hypotheses a concrete state and operands that meet all of them
together, clause by clause. -/

namespace Sys2Proof.Tests

open Sys2Proof Sys2Proof.Machine

/-! ### Helpers -/

/-- The next state of an outcome, if it is one. -/
def nextState : Host.Outcome State Fault Refusal → Option State
  | .next t => some t
  | .fault _ => none
  | .refused _ => none

/-- A block after reset whose memory holds `bs` at `a`. -/
def holding (a : Nat) (bs : Bytes) : State := { State.reset with mem := Memory.writeRange [] a bs }

/-- The command word `w` pending in `s` with the given arguments, its engine step due after `n` host accesses. -/
def pend (w a0 a1 a2 a3 : Word) (s : State) (n : Nat := 0) : State :=
  { s with cmd := w, pending := some { word := w, args := ⟨a0, a1, a2, a3⟩, wait := n } }

/-- A host event next, nothing after it. -/
def hostNext (e : HostEvent) (s : State) : State := { s with host := [e] }

/-- A ring of capacity 8 at `0x300` that holds `bs`, the oldest byte at storage index `tail`. -/
def ringHolding (tail : Nat) (bs : Bytes) (s : State) : State :=
  let r : State := { s with rbBase := 0x300, rbCap := 8, rbHead := BitVec.ofNat 32 tail, rbTail := BitVec.ofNat 32 tail,
                            full := false, init := true }
  { ringPushAll bs r with response := s.response }

/-! ### WellFormed: an ill-formed command word for each check (R75) -/

/-- R75 (a): no opcode `0x05`. -/
theorem test_wellFormed_refuses_opcode : (⟨0x05, 0, 0⟩ : CmdFields).opKnown = false ∧ (⟨0x05, 0, 0⟩ : CmdFields).legal = false := by
  decide

/-- R75 (b): `RSVD` not 0. -/
theorem test_wellFormed_refuses_reserved :
    (⟨0x01, 0, 1⟩ : CmdFields).rsvdZero = false ∧ (⟨0x01, 0, 1⟩ : CmdFields).legal = false := by decide

/-- R75 (c): a delimiter on a command that takes none. -/
theorem test_wellFormed_refuses_delimiter :
    (⟨0x23, 0x41, 0⟩ : CmdFields).delimAllowed = false ∧ (⟨0x23, 0x41, 0⟩ : CmdFields).legal = false := by decide

/-- R74: a span command with a delimiter is well formed. -/
theorem test_wellFormed_accepts_span : (Instr.rbHasspan 0x41).wellFormed = true := by decide

/-! ### Decoding, each word written out bit by bit from R70 and R74 -/

theorem test_decode_enc : decode 0b00000000000000000000000000000001 = .ok .enc := by rfl
theorem test_decode_dec : decode 0b00000000000000000000000000000010 = .ok .dec := by rfl
theorem test_decode_encpkt : decode 0b00000000000000000000000000000011 = .ok .encpkt := by rfl
theorem test_decode_decpkt : decode 0b00000000000000000000000000000100 = .ok .decpkt := by rfl
theorem test_decode_crc16 : decode 0b00000000000000000000000000010000 = .ok .crc16 := by rfl
theorem test_decode_rbInit : decode 0b00000000000000000000000000100000 = .ok .rbInit := by rfl
theorem test_decode_rbEmpty : decode 0b00000000000000000000000000100001 = .ok .rbEmpty := by rfl
theorem test_decode_rbAdd : decode 0b00000000000000000000000000100010 = .ok .rbAdd := by rfl
theorem test_decode_rbDeq : decode 0b00000000000000000000000000100011 = .ok .rbDeq := by rfl
theorem test_decode_rbHasspan : decode 0b00000000000000000100000100100100 = .ok (.rbHasspan 0x41) := by rfl
theorem test_decode_rbDeqspan : decode 0b00000000000000001111111100100101 = .ok (.rbDeqspan 0xFF) := by rfl

/-- R74, R75: opcode 0 and `0x99` (P4) are illegal, `CRC16` with a delimiter and a span command with a reserved bit too. -/
theorem test_decode_illegal :
    decode 0x00000000 = .error .unknownOpcode ∧ decode 0x00000099 = .error .unknownOpcode
      ∧ decode 0x00004110 = .error .delimiterNotZero ∧ decode 0x80000024 = .error .reservedNotZero := ⟨rfl, rfl, rfl, rfl⟩

/-- The table's rows have 32 bits. -/
theorem test_decodeTableWord : decodeTableWord 32 0x4125 = some (.rbDeqspan 0x41) ∧ decodeTableWord 32 0x10005 = none := by
  decide

/-! ### One command, one step (95_test_vectors.md section 2) -/

/-- Table 2.1 row 5. -/
theorem test_enc :
    (nextState (step (pend 0x01 0x100 4 0x200 5 (holding 0x100 [0x11, 0x22, 0x00, 0x33])))).map
        (fun t => (t.mem.readRange 0x200 5, t.res0, t.res1, statusWord t))
      = some (some [0x03, 0x11, 0x22, 0x02, 0x33], 5, 0, 0x00000000) := by decide

/-- Table 2.1 rows 13 and 15: `DST_OVERFLOW` writes nothing, `BAD_RANGE` does not wrap. -/
theorem test_enc_overflow_and_range :
    (nextState (step (pend 0x01 0x100 4 0x200 4 (holding 0x100 [0x11, 0x22, 0x00, 0x33])))).map
        (fun t => (t.mem.read 0x200, t.res0, statusWord t)) = some (none, 5, 0x00000200)
      ∧ (nextState (step (pend 0x01 0xFFFFFFFF 2 0x200 4 State.reset))).map (fun t => (t.res0, statusWord t))
        = some (0, 0x00111102) := by decide

/-- Table 2.2 row 12: everything decoded so far is delivered. -/
theorem test_dec_failed :
    (nextState (step (pend 0x02 0x100 5 0x200 9 (holding 0x100 [0x02, 0x11, 0x00, 0x02, 0x22])))).map
        (fun t => (t.mem.readRange 0x200 2, t.mem.read 0x202, t.res0, t.res1, statusWord t))
      = some (some [0x11, 0x00], none, 2, 2, 0x01000100) := by decide

/-- Table 2.2 row 13: `DST_OVERFLOW` takes precedence and `DSTAT` still reports the zero. -/
theorem test_dec_overflow :
    (nextState (step (pend 0x02 0x100 6 0x200 2 (holding 0x100 [0x03, 0x11, 0x22, 0x02, 0x33, 0x00])))).map
        (fun t => (t.mem.read 0x200, t.res0, t.res1, statusWord t)) = some (none, 5, 5, 0x01000200) := by decide

/-- Table 2.3 rows 1 and 4. -/
theorem test_encpkt :
    (nextState (step (pend 0x03 0x100 0 0x200 3 State.reset))).map (fun t => (t.mem.readRange 0x200 3, t.res0))
        = some (some [0x00, 0x01, 0x00], 3)
      ∧ (nextState (step (pend 0x03 0x100 4 0x200 7 (holding 0x100 [0x11, 0x22, 0x00, 0x33])))).map
          (fun t => (t.mem.readRange 0x200 7, t.res0))
        = some (some [0x00, 0x03, 0x11, 0x22, 0x02, 0x33, 0x00], 7) := by decide

/-- Table 2.4 row 1. -/
theorem test_decpkt :
    (nextState (step (pend 0x04 0x100 6 0x200 4 (holding 0x100 [0x03, 0x11, 0x22, 0x02, 0x33, 0x00])))).map
        (fun t => (t.mem.readRange 0x200 4, t.mem.read 0x204, t.res0, t.res1, statusWord t))
      = some (some [0x11, 0x22, 0x00, 0x33], none, 4, 5, 0x01000000) := by decide

/-- Table 2.4 rows 6 and 10: too short, and two frames in one input. -/
theorem test_decpkt_rejects :
    (nextState (step (pend 0x04 0x100 3 0x200 4 (holding 0x100 [0x02, 0x11, 0x00])))).map
        (fun t => (t.mem.read 0x200, t.res0, t.res1, statusWord t)) = some (none, 0, 2, 0x09000100)
      ∧ (nextState (step (pend 0x04 0x100 4 0x200 4 (holding 0x100 [0x01, 0x00, 0x01, 0x00])))).map
          (fun t => (t.res0, t.res1, statusWord t)) = some (0, 1, 0x05000100) := by decide

set_option maxRecDepth 8192 in
/-- Table 2.5 rows 3 and 8. -/
theorem test_crc16 :
    (nextState (step (pend 0x10 0x100 1 0 0 (holding 0x100 [0xFF])))).map (·.res0) = some 0x000000FF
      ∧ (nextState (step (pend 0x10 0x102 6 0 0 (holding 0x102 [0x02, 0x01, 0x01, 0x00, 0x00, 0xCB])))).map (·.res0)
        = some 0x0000527C := by decide

/-- Table 2.5 row 10: the model fault, recorded once, with no other effect. -/
theorem test_crc16_undefined :
    (nextState (step (pend 0x10 0x100 3 0 0 State.reset))).map (fun t => (t.modelFaults, t.fault, t.res0, t.busy))
      = some ([.undefinedRead], false, 0, false) := by decide

/-- Table 2.6 rows 5 and 6. -/
theorem test_rbInit :
    (nextState (step (pend 0x20 0xFF8 16 0 0 State.reset))).map (fun t => (t.init, statusWord t)) = some (false, 0x00131302)
      ∧ (nextState (step (pend 0x20 0xFF0 16 0 0 State.reset))).map (fun t => (t.rbBase, t.rbCap, rbFlagsWord t))
        = some (0xFF0, 16, 0x6) := by decide

/-- Table 2.6 rows 1 and 19: before `RB_INIT`, and full with `head = tail = 3`. -/
theorem test_rbEmpty :
    (nextState (step (pend 0x21 0 0 0 0 State.reset))).map (fun t => (t.res0, statusWord t)) = some (0, 0x00121202)
      ∧ (nextState (step (pend 0x21 0 0 0 0 (ringHolding 3 [0, 0, 0x44, 0x45, 0, 0, 0, 0x58] State.reset)))).map
          (fun t => (t.res0, t.res1, rbFlagsWord t)) = some (0, 8, 0x5) := by decide

/-- Table 2.6 row 16: five bytes added, wrapping. -/
theorem test_rbAdd :
    (nextState (step (pend 0x22 0x343 5 0 0 (ringHolding 2 [0x43] (holding 0x343 [0, 0, 0x44, 0x45, 0]))))).map
        (fun t => (t.res1, t.rbHead, t.rbTail, heldBytes t))
      = some (6, 0, 2, some [0x43, 0, 0, 0x44, 0x45, 0]) := by decide

/-- Table 2.6 row 20: a full ring takes no byte. -/
theorem test_rbAdd_full :
    (nextState (step (pend 0x22 0x340 1 0 0 (ringHolding 3 [0, 0, 0x44, 0x45, 0, 0, 0, 0x58] (holding 0x340 [0x41]))))).map
        (fun t => (t.code, t.rbHead, t.full)) = some (.fault .rbOverflow, 3, true) := by decide

/-- Table 2.6 rows 13 and 14. -/
theorem test_rbDeq :
    (nextState (step (pend 0x23 0 2 0x380 0 (ringHolding 0 [0x41, 0x42, 0x43] State.reset)))).map
        (fun t => (t.mem.readRange 0x380 2, t.res0, t.res1, t.rbTail)) = some (some [0x41, 0x42], 2, 1, 2)
      ∧ (nextState (step (pend 0x23 0 0 0x380 0 (ringHolding 2 [0x43] State.reset)))).map
          (fun t => (t.mem.read 0x380, t.res0, t.res1, t.rbTail)) = some (none, 0, 1, 2) := by decide

/-- Section 1.6: the ring holding `00 01 00` has a span of length 3; one delimiter is none (P2). -/
theorem test_rbHasspan :
    (nextState (step (pend 0x24 0 0 0 0 (ringHolding 6 [0, 1, 0] State.reset)))).map (fun t => (t.res0, t.res1))
        = some (1, 3)
      ∧ (nextState (step (pend 0x24 0 0 0 0 (ringHolding 0 [0x55, 0] State.reset)))).map (fun t => (t.res0, t.res1))
        = some (0, 0) := by decide

/-- P2's shape: noise in front of the span is discarded and counted. -/
theorem test_rbDeqspan :
    (nextState (step (pend 0x25 0 0 0x380 4 (ringHolding 5 [0x55, 0, 0x44, 0x45, 0, 0x58] State.reset)))).map
        (fun t => (t.mem.readRange 0x380 4, t.res0, t.res1, heldBytes t))
      = some (some [0x00, 0x44, 0x45, 0x00], 4, 1, some [0x58]) := by decide

/-- R140: the span does not fit, or there is none. -/
theorem test_rbDeqspan_overflow_and_none :
    (nextState (step (pend 0x25 0 0 0x380 3 (ringHolding 5 [0x55, 0, 0x44, 0x45, 0] State.reset)))).map
        (fun t => (t.code, t.res0, t.res1, t.rbTail)) = some (.outcome .dstOverflow, 4, 1, 5)
      ∧ (nextState (step (pend 0x4125 0 0 0x380 3 (ringHolding 5 [0x41, 0, 0] State.reset)))).map
          (fun t => (t.code, t.res0, t.rbTail)) = some (.outcome .noSpan, 0, 5) := by decide

/-- P4's first line: an illegal word. -/
theorem test_illegal : (nextState (step (pend 0x99 0 0 0 0 State.reset))).map statusWord = some 0x00141402 := by decide

/-! ### One host access -/

/-- R21, R35: `RB_FLAGS` after reset; P4's read of a reserved slot. -/
theorem test_regRead :
    (nextState (step (hostNext (.regRead 4 0x34) State.reset))).map (·.response) = some (.data 0x00000002)
      ∧ (nextState (step (hostNext (.regRead 4 0x38) State.reset))).map (fun t => (t.response, statusWord t))
        = some (.data 0, 0x00150002) := by decide

/-- R52, R56: the lowest address holds the least significant byte. -/
theorem test_memWrite :
    (nextState (step (hostNext (.memWrite 4 0xFFC 0x44332211) State.reset))).map (·.mem.readRange 0xFFC 4)
      = some (some [0x11, 0x22, 0x33, 0x44]) := by decide

/-- R205: an access to `M` while busy is recorded. -/
theorem test_memRead_busy :
    (nextState (step (hostNext (.memRead 1 0x100) (pend 0x01 0 0 0 0 (holding 0x100 [0x41]) 1)))).map
        (fun t => (t.modelFaults, t.response, t.fault)) = some ([.hostAccessWhileBusy], .noValue, false) := by decide

/-- R177: P6 draw A's second `cmd`. -/
theorem test_cmd_busy :
    (nextState (step (hostNext (.regWrite 4 0x00 0x02) (pend 0x01 0x100 4 0x100 5 State.reset 1)))).map
        (fun t => (t.cmd, statusWord t)) = some (0x01, 0x00160003) := by decide

/-- R79, R80: the accesses of `crc16 0x102, 6`, the first lines of P1. -/
theorem test_program_lines :
    (loadProgram (PseudoInstr.crc16 0x102 6).lines State.reset).host
      = [.regWrite 4 0x08 0x102, .regWrite 4 0x0C 6, .regWrite 4 0x00 0x10, .wait] := by decide

/-- R79, R9, R52: the byte after `M[2^32-1]` is `M[2^32]`, no byte of `M`, and its write is refused. -/
theorem test_program_addresses_do_not_wrap :
    (HostLine.sb 0xFFFFFFFF [1, 2]).events = [.memWrite 1 0xFFFFFFFF 1, .memWrite 1 0x100000000 2]
      ∧ (nextState (step (hostNext (.memWrite 1 0x100000000 2)
          (State.resetWith { Params.sample with memSize := 2 ^ 32 })))).map (fun t => (t.mem, t.fcause))
        = some ([], some .badAccess) := by decide

set_option maxRecDepth 8192 in
/-- Section 1.7: the packet of P1, the same in both byte orders. -/
theorem test_packet :
    (Packet.mk 2 1 1 0 [0xCB]).bytes .littleEndian = [0x7C, 0x52, 0x02, 0x01, 0x01, 0x00, 0x00, 0xCB]
      ∧ (Packet.mk 2 1 1 0 [0xCB]).bytes .bigEndian = [0x7C, 0x52, 0x02, 0x01, 0x01, 0x00, 0x00, 0xCB] := by decide

/-- What the host interface fetches: the decoder's instruction runs as the first step after reset. -/
theorem test_withFetchWord :
    nextState (step (State.reset.withFetchWord 32 0x20)) = nextState (exec .rbInit (State.reset.withFetchWord 32 0x20))
      ∧ (nextState (step (State.reset.withFetchWord 32 0x20))).map (·.code) = some (.fault .badCap) := by decide

/-! ### Witnesses: states and operands that meet an obligation's hypotheses -/

/-- Bytes a memory holds, from its own read. -/
theorem holds_of_read {m : Memory} {a n : Nat} {bs : Bytes} (h : m.readRange a n = some bs) :
    bs.length = n ∧ Holds m a bs := Memory.readRange_eq_some.1 h

/-- A ring holding `bs` is ready when its numbers are right. -/
theorem ready_of_read {s : State} {bs : Bytes} (hi : s.init = true)
    (hn : decide (1 ≤ s.rbCap.toNat ∧ s.rbCap.toNat ≤ s.params.rbCapMax
      ∧ s.rbBase.toNat + s.rbCap.toNat ≤ s.params.memSize ∧ s.rbHead.toNat < s.rbCap.toNat
      ∧ s.rbTail.toNat < s.rbCap.toNat ∧ (s.full = true → s.rbHead = s.rbTail)) = true)
    (hb : heldBytes s = some bs) : s.RingReady := by
  obtain ⟨h1, h2, h3, h4, h5, h6⟩ := of_decide_eq_true hn
  obtain ⟨h7, h8⟩ := heldBytes_eq_some.1 hb
  exact ⟨hi, h1, h2, h3, h4, h5, h6, fun k hk => by rw [h8 k (by omega)]; rfl⟩

/-- The engine's turn with the word `w` pending. -/
theorem due (w a0 a1 a2 a3 : Word) (s : State) :
    EngineDue (pend w a0 a1 a2 a3 s) { word := w, args := ⟨a0, a1, a2, a3⟩, wait := 0 } := ⟨rfl, .inl rfl⟩

/-- The host's turn with an empty slot, and with a command that waits for one more access. -/
theorem due_host_idle (e : HostEvent) : HostDue (hostNext e State.reset) e [] := ⟨rfl, by simp [hostNext, State.reset, State.resetWith]⟩

theorem due_host_busy (e : HostEvent) (w a0 a1 a2 a3 : Word) (s : State) :
    HostDue (hostNext e (pend w a0 a1 a2 a3 s 1)) e [] := ⟨rfl, by rintro p ⟨⟩; exact Nat.one_ne_zero⟩

theorem witness_IllegalWords :
    (decode 0x99 = .error .unknownOpcode ∧ State.reset.pending = none
        ∧ (hostNext (.regWrite 4 0x00 0x99) State.reset).host = [.regWrite 4 0x00 0x99])
      ∧ (∃ p, EngineDue (pend 0x10025 0 0 0 0 State.reset) p ∧ decode p.word = .error .reservedNotZero) :=
  ⟨⟨rfl, rfl, rfl⟩, _, due .., rfl⟩

theorem witness_StepRuns :
    (∃ p, EngineDue (pend 0x20 0 1 0 0 State.reset) p ∧ decode p.word = .ok .rbInit)
      ∧ (∃ p, EngineDue (pend 0x21 0 0 0 0 State.reset 7) p ∧ p.wait ≠ 0 ∧ decode p.word = .ok .rbEmpty)
      ∧ HostDue (hostNext .wait State.reset) .wait []
      ∧ HostDue (hostNext .wait (pend 0x20 0 1 0 0 State.reset 1)) .wait []
      ∧ State.reset.pending = none ∧ State.reset.host = [] :=
  ⟨⟨_, due .., rfl⟩, ⟨_, ⟨rfl, .inr rfl⟩, by decide, rfl⟩, due_host_idle _, due_host_busy .., rfl, rfl⟩

theorem witness_ResetInput : HostDue (hostNext .reset (pend 0x20 0 1 0 0 State.reset 1)) .reset [] := due_host_busy ..

/-- One for each of the fourteen offsets. -/
theorem witness_RegisterReads : ∀ r : Reg, HostDue (hostNext (.regRead 4 r.offset) State.reset) (.regRead 4 r.offset) [] :=
  fun _ => due_host_idle _

theorem witness_CmdWriteWhileIdle :
    State.reset.pending = none ∧ (hostNext (.regWrite 4 0x00 0x10) State.reset).host = [.regWrite 4 0x00 0x10] := ⟨rfl, rfl⟩

theorem witness_CmdWriteWhileBusy :
    ∃ p, (hostNext (.regWrite 4 0x00 0x10) (pend 0x20 0 1 0 0 State.reset 1)).pending = some p
      ∧ HostDue (hostNext (.regWrite 4 0x00 0x10) (pend 0x20 0 1 0 0 State.reset 1)) (.regWrite 4 0x00 0x10) [] :=
  ⟨_, rfl, due_host_busy ..⟩

theorem witness_ArgumentWrites :
    HostDue (hostNext (.regWrite 4 0x08 7) (pend 0x20 0 1 0 0 State.reset 1)) (.regWrite 4 0x08 7) []
      ∧ HostDue (hostNext (.regWrite 4 0x0C 7) State.reset) (.regWrite 4 0x0C 7) []
      ∧ HostDue (hostNext (.regWrite 4 0x10 7) State.reset) (.regWrite 4 0x10 7) []
      ∧ HostDue (hostNext (.regWrite 4 0x14 7) State.reset) (.regWrite 4 0x14 7) [] :=
  ⟨due_host_busy .., due_host_idle _, due_host_idle _, due_host_idle _⟩

/-- Each ground of R176 at a boundary: width, alignment, both reserved slots, the first read-only register after the
arguments, `STATUS`, and the first byte beyond `MEM_SIZE`. -/
theorem witness_RefusedAccesses :
    (∀ e ∈ ([.regRead 1 0x00, .regRead 4 0x02, .regRead 4 0x38, .regWrite 4 0x3C 0, .regWrite 4 0x18 0, .regWrite 4 0x04 0,
        .memRead 3 0, .memRead 4 0xFFE, .memRead 1 0x1000, .memWrite 2 0x1000 0] : List HostEvent),
      HostDue (hostNext e State.reset) e [] ∧ RefusedAccess State.reset.params e)
      ∧ HostDue (hostNext (.memRead 1 0x1000) (pend 0x20 0 1 0 0 State.reset 1)) (.memRead 1 0x1000) []
      ∧ RefusedAccess (pend 0x20 0 1 0 0 State.reset 1).params (.memRead 1 0x1000) := by
  refine ⟨fun e he => ⟨due_host_idle e, ?_⟩, due_host_busy .., ?_⟩
  · simp only [List.mem_cons, List.not_mem_nil, or_false] at he
    rcases he with rfl | rfl | rfl | rfl | rfl | rfl | rfl | rfl | rfl | rfl <;>
      simp [RefusedAccess, State.reset, State.resetWith, Params.sample]
  · simp [RefusedAccess, pend, State.reset, State.resetWith, Params.sample]

/-- The last word, half word and byte of `M`. -/
theorem witness_HostWrite : ∀ wa ∈ ([(4, 0xFFC), (2, 0xFFE), (1, 0xFFF)] : List (Nat × Nat)),
    State.reset.pending = none ∧ (hostNext (.memWrite wa.1 wa.2 7) State.reset).host = [.memWrite wa.1 wa.2 7]
      ∧ ¬RefusedAccess State.reset.params (.memWrite wa.1 wa.2 7) := by
  intro wa h
  simp only [List.mem_cons, List.not_mem_nil, or_false] at h
  rcases h with rfl | rfl | rfl <;>
    exact ⟨rfl, rfl, by simp [RefusedAccess, State.reset, State.resetWith, Params.sample]⟩

theorem witness_HostRead :
    (holding 0xFFC [1, 2, 3, 4]).pending = none
      ∧ (hostNext (.memRead 4 0xFFC) (holding 0xFFC [1, 2, 3, 4])).host = [.memRead 4 0xFFC]
      ∧ ¬RefusedAccess (holding 0xFFC [1, 2, 3, 4]).params (.memRead 4 0xFFC)
      ∧ ([1, 2, 3, 4] : Bytes).length = 4 ∧ Holds (holding 0xFFC [1, 2, 3, 4]).mem 0xFFC [1, 2, 3, 4] :=
  ⟨rfl, rfl, by simp [RefusedAccess, holding, State.reset, State.resetWith, Params.sample], rfl,
    (holds_of_read (n := 4) (by decide)).2⟩

theorem witness_ByteReadSeesWordWrite :
    (3 : Nat) < 4 ∧ State.reset.pending = none ∧ 0xFFC % 4 = 0 ∧ 0xFFC + 4 ≤ State.reset.params.memSize
      ∧ ({ State.reset with host := [.memWrite 4 0xFFC 7, .memRead 1 (0xFFC + 3)] } : State).host
        = [.memWrite 4 0xFFC 7, .memRead 1 (0xFFC + 3)] := by decide

theorem witness_MemoryAccessWhileBusy :
    (∀ e ∈ ([.memRead 1 0, .memWrite 4 0xFFC 7, .memRead 1 0x1000] : List HostEvent),
      (∃ p, (hostNext e (pend 0x20 0 1 0 0 State.reset 1)).pending = some p)
        ∧ HostDue (hostNext e (pend 0x20 0 1 0 0 State.reset 1)) e [] ∧ e.touchesMemory)
      ∧ ¬RefusedAccess State.reset.params (.memRead 1 0) := by
  refine ⟨fun e he => ⟨⟨_, rfl⟩, due_host_busy .., ?_⟩, by simp [RefusedAccess, State.reset, State.resetWith, Params.sample]⟩
  simp only [List.mem_cons, List.not_mem_nil, or_false] at he
  rcases he with rfl | rfl | rfl <;> trivial

theorem witness_HostReadOfUndefinedByte :
    State.reset.pending = none ∧ (hostNext (.memRead 1 0xFFF) State.reset).host = [.memRead 1 0xFFF]
      ∧ ¬RefusedAccess State.reset.params (.memRead 1 0xFFF) ∧ UndefinedIn State.reset.mem 0xFFF 1 :=
  ⟨rfl, rfl, by simp [RefusedAccess, State.reset, State.resetWith, Params.sample], 0, by decide, rfl⟩

/-- One command for each of the three ways to end. -/
theorem witness_CommandsEnd :
    (nextState (exec .rbInit (pend 0x20 0 0 0 0 State.reset))).map (·.code) = some (.fault .badCap)
      ∧ (nextState (exec .crc16 (pend 0x10 0 1 0 0 State.reset))).map (·.modelFaults) = some [.undefinedRead]
      ∧ (nextState (exec .rbInit (pend 0x20 0 1 0 0 State.reset))).map (·.code) = some (.outcome .ok) := by decide

/-- A change of `CODE` to each code a command can leave, from `OK`. -/
theorem witness_Codes :
    State.reset.code = .outcome .ok
      ∧ (nextState (exec .dec (pend 0x02 0 1 0x10 1 (holding 0 [0])))).map (·.code) = some (.outcome .decodingFailed)
      ∧ (nextState (exec .enc (pend 0x01 0 0 0 0 State.reset))).map (·.code) = some (.outcome .dstOverflow)
      ∧ (nextState (exec (.rbDeqspan 0) (pend 0x25 0 0 0 0 (ringHolding 0 [] State.reset)))).map (·.code)
        = some (.outcome .noSpan)
      ∧ (nextState (exec .rbAdd (pend 0x22 0 9 0 0 (ringHolding 0 [] State.reset)))).map (·.code)
        = some (.fault .rbOverflow)
      ∧ (nextState (exec .crc16 (pend 0x10 0x1000 1 0 0 State.reset))).map (·.code) = some (.fault .badRange)
      ∧ (nextState (exec .rbDeq (pend 0x23 0 0 0 0 State.reset))).map (·.code) = some (.fault .rbUninit)
      ∧ (nextState (exec .rbInit (pend 0x20 0 0x1001 0 0 State.reset))).map (·.code) = some (.fault .badCap) := by decide

theorem witness_CommandsLeave :
    (∃ t, exec .enc (pend 0x01 0 0 0 1 State.reset) = .next t) ∧ ∃ t, exec (.rbHasspan 0) (pend 0x24 0 0 0 0 State.reset) = .next t :=
  ⟨⟨_, rfl⟩, _, rfl⟩

/-- `RB_INIT` changes ring registers, and so does the reset input. -/
theorem witness_RingStateChanges :
    (nextState (step (pend 0x20 0 1 0 0 State.reset))).map (fun t => (t.init, t.rbCap)) = some (true, 1)
      ∧ State.reset.init = false
      ∧ (nextState (step (hostNext .reset (ringHolding 0 [1] State.reset)))).map (·.init) = some false
      ∧ (ringHolding 0 [1] State.reset).init = true := by decide

theorem witness_ResultsChange :
    HostDue (hostNext (.regRead 4 0x18) (pend 0x20 0 1 0 0 State.reset 1)) (.regRead 4 0x18) []
      ∧ HostEvent.regRead 4 0x18 ≠ .reset
      ∧ ∃ t, step (hostNext (.regRead 4 0x18) (pend 0x20 0 1 0 0 State.reset 1)) = .next t :=
  ⟨due_host_busy .., by decide, _, rfl⟩

/-- A state with every part of the fault record set, whose step is a command's. -/
def faulted : State :=
  { pend 0x20 0 0 0 0 State.reset with fault := true, fcause := some .badAccess, modelFaults := [.undefinedRead] }

theorem witness_FaultRecordIsSticky :
    (∀ rest, ¬HostDue faulted .reset rest) ∧ (∃ t, step faulted = .next t) ∧ faulted.fault = true
      ∧ faulted.fcause = some .badAccess ∧ .undefinedRead ∈ faulted.modelFaults :=
  ⟨fun rest h => by simp [HostDue, faulted, pend, State.reset, State.resetWith] at h, ⟨_, rfl⟩, rfl, rfl, by decide⟩

/-- R175, cause by cause. -/
theorem witness_FirstCause :
    (∃ p, EngineDue (pend 0x99 0 0 0 0 State.reset) p ∧ decode p.word = .error .unknownOpcode)
      ∧ State.reset.init = false
      ∧ State.reset.params.memSize < (0xFFFFFFFF : Word).toNat + (2 : Word).toNat
      ∧ (ringHolding 0 [] State.reset).init = true
      ∧ ((0 : Word).toNat < 1 ∧ State.reset.params.rbCapMax < (0x1001 : Word).toNat)
      ∧ (ringHolding 0 [] State.reset).free < (9 : Word).toNat
      ∧ UndefinedIn State.reset.mem (0xFFF : Word).toNat (1 : Word).toNat
      ∧ (0xFFF : Word).toNat + (1 : Word).toNat ≤ State.reset.params.memSize
      ∧ (1 : Word).toNat ≤ (ringHolding 0 [] State.reset).free
      ∧ (Holds (holding 0 [0x01, 0x01]).mem 0 [0x01, 0x01] ∧ (0 : Word).toNat < (decodeRaw [0x01, 0x01]).out.length)
      ∧ (packetDecode [0x01, 0x01]).ok = false
      ∧ heldBytes (ringHolding 0 [] State.reset) = some [] ∧ ∀ i j, ¬IsSpan 0 [] i j :=
  ⟨⟨_, due .., rfl⟩, rfl, by decide, rfl, by decide, by decide, ⟨0, by decide, rfl⟩, by decide, by decide,
    ⟨(holds_of_read (n := 2) (by decide)).2, by decide⟩, by decide, by decide, fun i j h => by simp [IsSpan] at h⟩

/-- Blocks of the boundary lengths 253 and 254. -/
theorem witness_EncodeRawBlocks :
    (0x00 ∉ List.replicate 253 (0x41 : Byte) ∧ (List.replicate 253 (0x41 : Byte)).length ≤ 253)
      ∧ 0x00 ∉ List.replicate 254 (0x41 : Byte) ∧ (List.replicate 254 (0x41 : Byte)).length = 254 :=
  ⟨⟨fun h => absurd (List.eq_of_mem_replicate h) (by decide), le_of_eq List.length_replicate⟩,
    fun h => absurd (List.eq_of_mem_replicate h) (by decide), List.length_replicate⟩

/-- A truncated block, an empty whole block, and a full block. -/
theorem witness_DecodeRawBlocks :
    ((0xFF : Byte) ≠ 0x00 ∧ (List.replicate 253 (0x41 : Byte)).length < (0xFF : Byte).toNat - 1)
      ∧ ((0x01 : Byte) ≠ 0x00 ∧ ([] : Bytes).length = (0x01 : Byte).toNat - 1)
      ∧ (0xFF : Byte) ≠ 0x00 ∧ (List.replicate 254 (0x41 : Byte)).length = (0xFF : Byte).toNat - 1 :=
  ⟨⟨by decide, by rw [List.length_replicate]; decide⟩, ⟨by decide, by decide⟩, by decide,
    by rw [List.length_replicate]; decide⟩

theorem witness_FrameRoundTrip : 2 ≤ ([0x11, 0x22] : Bytes).length ∧ ([0x11] : Bytes).length < 2 := by decide

/-- An `ENCPKT` at its tightest destination and the `DECPKT` after it, for a packet of four bytes and for one of one byte. -/
theorem witness_FrameRoundTripThroughCommands :
    ∀ w ∈ ([([0x11, 0x22, 0x00, 0x33], 4, 7), ([0x11], 1, 4)] : List (Bytes × Word × Word)),
      let s := pend 0x03 0x100 w.2.1 0x200 w.2.2 (holding 0x100 w.1)
      let t := (nextState (exec .encpkt s)).getD s
      let u := pend 0x04 0x201 (w.2.2 - 1) 0x300 w.2.1 t
      exec .encpkt s = .next t
        ∧ (∃ p, s.pending = some p ∧ w.1.length = p.args.a1.toNat ∧ Holds s.mem p.args.a0.toNat w.1
          ∧ p.args.a0.toNat + p.args.a1.toNat ≤ s.params.memSize ∧ p.args.a2.toNat + p.args.a3.toNat ≤ s.params.memSize
          ∧ (encodeRaw w.1).length + 2 ≤ p.args.a3.toNat
          ∧ ∃ q, u.pending = some q ∧ u.mem = t.mem ∧ u.params = s.params ∧ q.args.a0.toNat = p.args.a2.toNat + 1
            ∧ q.args.a1.toNat = t.res0.toNat - 1 ∧ q.args.a2.toNat + q.args.a3.toNat ≤ s.params.memSize
            ∧ w.1.length ≤ q.args.a3.toNat) := by
  intro w hw
  simp only [List.mem_cons, List.not_mem_nil, or_false] at hw
  rcases hw with rfl | rfl
  · exact ⟨rfl, _, rfl, by decide, (holds_of_read (n := 4) (by decide)).2, by decide, by decide, by decide,
      _, rfl, rfl, rfl, by decide, by decide, by decide, by decide⟩
  · exact ⟨rfl, _, rfl, by decide, (holds_of_read (n := 1) (by decide)).2, by decide, by decide, by decide,
      _, rfl, rfl, rfl, by decide, by decide, by decide, by decide⟩

/-- A frame that is accepted and one that is not. -/
theorem witness_AcceptedFrames :
    (decodeRaw [0x03, 0x11, 0x22, 0x00] = ⟨[0x11, 0x22, 0x00], .zero, 3, true⟩
        ∧ packetDecode [0x03, 0x11, 0x22, 0x00] = ⟨true, [0x11, 0x22], 3, ⟨true, false, false, false⟩⟩)
      ∧ decodeRaw [] = ⟨[], .ended, 0, false⟩ ∧ packetDecode [] = ⟨false, [], 0, ⟨false, false, true, false⟩⟩ := by decide

/-- The source `11 22 00 33` at `0x100` with a destination at `0x200`: every hypothesis of `ENC`, `ENCPKT`, `CRC16` on a
range of defined bytes, the tight and the too small destination, an undefined source, and ranges beyond `MEM_SIZE`. -/
theorem witness_Enc_Encpkt_Crc16 :
    let s := pend 0x01 0x100 4 0x200 5 (holding 0x100 [0x11, 0x22, 0x00, 0x33])
    let src : Bytes := [0x11, 0x22, 0x00, 0x33]
    (∃ p, s.pending = some p ∧ p.args.a0.toNat + p.args.a1.toNat ≤ s.params.memSize
      ∧ p.args.a2.toNat + p.args.a3.toNat ≤ s.params.memSize ∧ src.length = p.args.a1.toNat
      ∧ Holds s.mem p.args.a0.toNat src ∧ (encodeRaw src).length ≤ p.args.a3.toNat
      ∧ p.args.a3.toNat < (encodeRaw src).length + 2 ∧ (encodeRaw src).length < 2 ^ 32)
      ∧ (4 : Word).toNat < (encodeRaw src).length ∧ (encodeRaw src).length + 2 ≤ (7 : Word).toNat
      ∧ UndefinedIn State.reset.mem (0x100 : Word).toNat (4 : Word).toNat
      ∧ s.params.memSize < (0x1000 : Word).toNat + (1 : Word).toNat :=
  ⟨⟨_, rfl, by decide, by decide, by decide, (holds_of_read (n := 4) (by decide)).2, by decide, by decide, by decide⟩,
    by decide, by decide, ⟨0, by decide, rfl⟩, by decide⟩

/-- The source `03 11 22 02 33 00`, raw and as a frame, with destinations that fit and that do not. -/
theorem witness_Dec_Decpkt :
    let src : Bytes := [0x03, 0x11, 0x22, 0x02, 0x33, 0x00]
    let s := pend 0x02 0x100 6 0x200 5 (holding 0x100 src)
    (∃ p, s.pending = some p ∧ p.args.a0.toNat + p.args.a1.toNat ≤ s.params.memSize
      ∧ p.args.a2.toNat + p.args.a3.toNat ≤ s.params.memSize ∧ src.length = p.args.a1.toNat
      ∧ Holds s.mem p.args.a0.toNat src ∧ decodeRaw src = ⟨[0x11, 0x22, 0x00, 0x33, 0x00], .zero, 5, true⟩
      ∧ packetDecode src = ⟨true, [0x11, 0x22, 0x00, 0x33], 5, ⟨true, false, false, false⟩⟩
      ∧ (5 : Nat) ≤ p.args.a3.toNat)
      ∧ (4 : Word).toNat < 5 ∧ (3 : Word).toNat < 4
      ∧ packetDecode [0x01, 0x00] = ⟨false, [], 1, ⟨true, false, false, true⟩⟩ :=
  ⟨⟨_, rfl, by decide, by decide, by decide, (holds_of_read (n := 6) (by decide)).2, by decide, by decide, by decide⟩,
    by decide, by decide, by decide⟩

/-- Two blocks that agree on the source only. -/
theorem witness_CodecDepends :
    let s := pend 0x01 0x100 2 0x200 3 (holding 0x100 [0x11, 0x22])
    let s' := pend 0x02 0x100 2 0x200 3 (ringHolding 1 [0x41] (holding 0x100 [0x11, 0x22]))
    (∃ p p', s.pending = some p ∧ s'.pending = some p' ∧ p'.args = p.args ∧ s'.params = s.params
      ∧ ([0x11, 0x22] : Bytes).length = p.args.a1.toNat
      ∧ Holds s.mem p.args.a0.toNat [0x11, 0x22] ∧ Holds s'.mem p.args.a0.toNat [0x11, 0x22]) ∧ s ≠ s' :=
  ⟨⟨_, _, rfl, rfl, rfl, rfl, by decide, (holds_of_read (n := 2) (by decide)).2,
    (holds_of_read (n := 2) (by decide)).2⟩, by decide⟩

/-- The same two bytes at two places. -/
theorem witness_Crc16Determined :
    let s := pend 0x10 0x100 2 0 0 (holding 0x100 [0x11, 0x22])
    let s' := pend 0x10 0xFFE 2 0 0 (holding 0xFFE [0x11, 0x22])
    ∃ p p', s.pending = some p ∧ s'.pending = some p' ∧ p.args.a0.toNat + p.args.a1.toNat ≤ s.params.memSize
      ∧ p'.args.a0.toNat + p'.args.a1.toNat ≤ s'.params.memSize ∧ ([0x11, 0x22] : Bytes).length = p.args.a1.toNat
      ∧ ([0x11, 0x22] : Bytes).length = p'.args.a1.toNat ∧ Holds s.mem p.args.a0.toNat [0x11, 0x22]
      ∧ Holds s'.mem p'.args.a0.toNat [0x11, 0x22] :=
  ⟨_, _, rfl, rfl, by decide, by decide, by decide, by decide, (holds_of_read (n := 2) (by decide)).2,
    (holds_of_read (n := 2) (by decide)).2⟩

/-- The smallest region, the largest that ends at `MEM_SIZE`, and the three grounds of `BAD_CAP`. -/
theorem witness_RbInit :
    let p := State.reset.params
    (1 ≤ (1 : Word).toNat ∧ (1 : Word).toNat ≤ p.rbCapMax ∧ (0xFFF : Word).toNat + (1 : Word).toNat ≤ p.memSize)
      ∧ ((0x1000 : Word).toNat ≤ p.rbCapMax ∧ (0 : Word).toNat + (0x1000 : Word).toNat ≤ p.memSize)
      ∧ (0 : Word).toNat < 1 ∧ p.rbCapMax < (0x1001 : Word).toNat
      ∧ p.memSize < (0x1000 : Word).toNat + (1 : Word).toNat := by decide

/-- A ready ring that is empty, one that is full, and one that wraps. -/
theorem ready_empty : (ringHolding 0 [] State.reset).RingReady := ready_of_read (bs := []) rfl (by decide) (by decide)

theorem ready_full : (ringHolding 3 [0, 0, 0x44, 0x45, 0, 0, 0, 0x58] State.reset).RingReady :=
  ready_of_read (bs := [0, 0, 0x44, 0x45, 0, 0, 0, 0x58]) rfl (by decide) (by decide)

theorem ready_wrapped : (ringHolding 6 [0, 0x41, 0, 0x42] (holding 0x100 [1, 2, 3, 4])).RingReady :=
  ready_of_read (bs := [0, 0x41, 0, 0x42]) rfl (by decide) (by decide)

theorem witness_RbEmpty_RingCount :
    State.reset.init = false ∧ (ringHolding 0 [] State.reset).RingReady
      ∧ (ringHolding 3 [0, 0, 0x44, 0x45, 0, 0, 0, 0x58] State.reset).RingReady
      ∧ (ringHolding 6 [0, 0x41, 0, 0x42] (holding 0x100 [1, 2, 3, 4])).full = false
      ∧ (ringHolding 6 [0, 0x41, 0, 0x42] (holding 0x100 [1, 2, 3, 4])).rbHead.toNat
        < (ringHolding 6 [0, 0x41, 0, 0x42] (holding 0x100 [1, 2, 3, 4])).rbTail.toNat :=
  ⟨rfl, ready_empty, ready_full, by decide, by decide⟩

/-- A ring one byte short of full, and a full one. -/
theorem witness_PushAndPop :
    let s := ringHolding 3 [0, 0, 0x44, 0x45, 0, 0, 0] State.reset
    let u := ringHolding 3 [0, 0, 0x44, 0x45, 0, 0, 0, 0x58] State.reset
    (s.RingReady ∧ s.count < s.rbCap.toNat ∧ heldBytes s = some [0, 0, 0x44, 0x45, 0, 0, 0])
      ∧ u.RingReady ∧ heldBytes u = some (0 :: [0, 0x44, 0x45, 0, 0, 0, 0x58]) :=
  ⟨⟨ready_of_read (bs := [0, 0, 0x44, 0x45, 0, 0, 0]) rfl (by decide) (by decide), by decide, by decide⟩, ready_full,
    by decide⟩

/-- Four bytes fill the ring; five do not fit; a source beyond `MEM_SIZE`; no ring. -/
theorem witness_RbAdd :
    let s := pend 0x22 0x100 4 0 0 (ringHolding 6 [0, 0x41, 0, 0x42] (holding 0x100 [1, 2, 3, 4]))
    (∃ p, s.pending = some p ∧ s.RingReady ∧ p.args.a0.toNat + p.args.a1.toNat ≤ s.params.memSize
      ∧ p.args.a1.toNat ≤ s.free ∧ ([1, 2, 3, 4] : Bytes).length = p.args.a1.toNat
      ∧ Holds s.mem p.args.a0.toNat [1, 2, 3, 4] ∧ heldBytes s = some [0, 0x41, 0, 0x42])
      ∧ s.free < (5 : Word).toNat ∧ s.init = true
      ∧ s.params.memSize < (0xFFF : Word).toNat + (2 : Word).toNat ∧ State.reset.init = false :=
  ⟨⟨_, rfl, ready_of_read (bs := [0, 0x41, 0, 0x42]) rfl (by decide) (by decide), by decide, by decide, by decide,
    (holds_of_read (n := 4) (by decide)).2, by decide⟩, by decide, by decide, by decide, rfl⟩

/-- A destination clear of ring storage that ends where it begins. -/
theorem witness_RbDeq :
    let s := pend 0x23 0 2 0x2FE 0 (ringHolding 6 [0, 0x41, 0, 0x42] State.reset)
    (∃ p, s.pending = some p ∧ s.RingReady ∧ p.args.a2.toNat + p.args.a1.toNat ≤ s.params.memSize
      ∧ heldBytes s = some [0, 0x41, 0, 0x42]
      ∧ Disjoint p.args.a2.toNat p.args.a1.toNat s.rbBase.toNat s.rbCap.toNat)
      ∧ s.init = true ∧ s.params.memSize < (0xFFF : Word).toNat + (2 : Word).toNat :=
  ⟨⟨_, rfl, ready_of_read (bs := [0, 0x41, 0, 0x42]) rfl (by decide) (by decide), by decide, by decide,
    .inl (by decide)⟩, by decide, by decide⟩

/-- The first span of `00 41 00 42` is its first three bytes; `41` has none. -/
theorem firstSpan_example : IsFirstSpan 0 [0, 0x41, 0, 0x42] 0 2 := by
  refine ⟨⟨by decide, rfl, rfl, fun k h1 h2 => ?_⟩, fun i j h => by have := h.1; omega⟩
  obtain rfl : k = 1 := by omega
  decide

theorem noSpan_example : ∀ i j, ¬IsSpan 0 [0x41] i j := by
  intro i j h
  have h1 := h.2.1
  rcases i with _ | i <;> simp at h1

theorem witness_Hasspan_Deqspan :
    let s := pend 0x25 0 0 0x380 3 (ringHolding 6 [0, 0x41, 0, 0x42] State.reset)
    let u := pend 0x25 0 0 0x380 3 (ringHolding 0 [0x41] State.reset)
    (∃ p, s.pending = some p ∧ s.RingReady ∧ p.args.a2.toNat + p.args.a3.toNat ≤ s.params.memSize
      ∧ heldBytes s = some [0, 0x41, 0, 0x42] ∧ IsFirstSpan 0 [0, 0x41, 0, 0x42] 0 2 ∧ 2 - 0 + 1 ≤ p.args.a3.toNat
      ∧ Disjoint p.args.a2.toNat p.args.a3.toNat s.rbBase.toNat s.rbCap.toNat)
      ∧ (2 : Word).toNat < 2 - 0 + 1
      ∧ (u.RingReady ∧ heldBytes u = some [0x41] ∧ ∀ i j, ¬IsSpan 0 [0x41] i j)
      ∧ State.reset.init = false ∧ s.params.memSize < (0xFFF : Word).toNat + (2 : Word).toNat :=
  ⟨⟨_, rfl, ready_of_read (bs := [0, 0x41, 0, 0x42]) rfl (by decide) (by decide), by decide, by decide, firstSpan_example,
    by decide, .inr (.inl (by decide))⟩, by decide,
    ⟨ready_of_read (bs := [0x41]) rfl (by decide) (by decide), by decide, noSpan_example⟩, rfl, by decide⟩

theorem witness_RingStorageReads :
    (pend 0x23 0 8 0x380 0 (ringHolding 3 [0, 0, 0x44, 0x45, 0, 0, 0, 0x58] State.reset)).RingReady
      ∧ ∀ i ∈ ([.rbInit, .rbEmpty, .rbDeq, .rbHasspan 0, .rbDeqspan 0] : List Instr),
        ∃ t, exec i (pend 0x23 0 8 0x380 0 (ringHolding 3 [0, 0, 0x44, 0x45, 0, 0, 0, 0x58] State.reset)) = .next t :=
  ⟨ready_of_read (bs := [0, 0, 0x44, 0x45, 0, 0, 0, 0x58]) rfl (by decide) (by decide), fun i _ => by cases i <;> exact ⟨_, rfl⟩⟩

/-- The state a command leads to. -/
def after (i : Instr) (s : State) : State := (nextState (exec i s)).getD s

theorem exec_after (i : Instr) (s : State) : exec i s = .next (after i s) := by cases i <;> rfl

/-- An empty ring and an `RB_ADD` of `55 00 41 00 58`; the ring that holds them and an `RB_DEQSPAN`; the ring that holds what
the span leaves and an `RB_DEQ`. -/
def fifoAdd : State := pend 0x22 0x100 5 0 0 (ringHolding 0 [] (holding 0x100 [0x55, 0, 0x41, 0, 0x58]))
def fifoSpan : State := pend 0x25 0 0 0x380 3 (after .rbAdd fifoAdd)
def fifoDeq : State := pend 0x23 0 1 0x390 0 (after (.rbDeqspan 0) fifoSpan)

theorem sameRing_pend (w a0 a1 a2 a3 : Word) (s : State) : SameRing s (pend w a0 a1 a2 a3 s) :=
  ⟨rfl, rfl, rfl, rfl, rfl, rfl, rfl, fun _ _ => rfl⟩

theorem fifo_added : RingRun fifoAdd fifoSpan [0x55, 0, 0x41, 0, 0x58] [] :=
  .between (.add (src := [0x55, 0, 0x41, 0, 0x58]) .start rfl (exec_after _ _) (by decide) (by decide) (by decide)
    (holds_of_read (n := 5) (by decide)).2) (sameRing_pend ..)

theorem fifo_span : RingRun fifoAdd fifoDeq [0x55, 0, 0x41, 0, 0x58] [0x55, 0, 0x41, 0] := by
  have h := RingRun.deqspan (held := [0x55, 0, 0x41, 0, 0x58]) (out := [0, 0x41, 0]) fifo_added rfl
    (exec_after (.rbDeqspan 0) fifoSpan) (by decide) (by decide) (.inr (.inl (by decide))) (by decide) (by decide)
    (holds_of_read (n := 3) (by decide)).2
  rw [show (after (.rbDeqspan 0) fifoSpan).res1 = 1 from by decide] at h
  exact .between h (sameRing_pend ..)

/-- From an empty ring: five bytes added, a span taken out with the byte before it, then the last byte dequeued. -/
theorem witness_RingIsAFifoQueue :
    fifoAdd.RingReady ∧ fifoAdd.count = 0
      ∧ RingRun fifoAdd (after .rbDeq fifoDeq) [0x55, 0, 0x41, 0, 0x58] [0x55, 0, 0x41, 0, 0x58]
      ∧ (after .rbDeq fifoDeq).count = 0 :=
  ⟨ready_of_read (bs := []) rfl (by decide) (by decide), by decide,
    .deq (out := [0x58]) fifo_span rfl (exec_after _ _) (by decide) (by decide) (.inr (.inl (by decide))) (by decide)
      (holds_of_read (n := 1) (by decide)).2, by decide⟩

/-- A ring that holds the frame `00 03 11 22 00` and the first byte of the next. -/
theorem witness_FramesLeaveTheRingWhole :
    let s := pend 0x25 0 0 0x380 5 (ringHolding 4 [0, 0x03, 0x11, 0x22, 0, 0] State.reset)
    ∃ p, s.pending = some p ∧ s.RingReady ∧ heldBytes s = some (0x00 :: encodeRaw [0x11, 0x22] ++ [0x00] ++ [0])
      ∧ p.args.a2.toNat + p.args.a3.toNat ≤ s.params.memSize ∧ (encodeRaw [0x11, 0x22]).length + 2 ≤ p.args.a3.toNat
      ∧ Disjoint p.args.a2.toNat p.args.a3.toNat s.rbBase.toNat s.rbCap.toNat :=
  ⟨_, rfl, ready_of_read (bs := [0, 0x03, 0x11, 0x22, 0, 0]) rfl (by decide) (by decide), by decide, by decide, by decide,
    .inr (.inl (by decide))⟩

/-- The example parameters, and the largest memory there is. -/
theorem witness_ResetMeetsTheInvariant :
    Params.sample.legal = true
      ∧ ({ memSize := 2 ^ 32, rbCapMax := 2 ^ 32, regBase := 0, bufBase := 2 ^ 32 } : Params).legal = true := by decide

/-- A state off reset that meets the invariant, with a step. -/
theorem witness_EveryStepKeepsTheInvariant :
    let s := pend 0x23 0 2 0x380 0 (ringHolding 6 [0, 0x41, 0, 0x42] State.reset)
    s.Inv ∧ ∃ t, step s = .next t := by
  refine ⟨⟨by decide, ⟨by decide, fun c hc => ?_⟩,
    .inl (ready_of_read (bs := [0, 0x41, 0, 0x42]) rfl (by decide) (by decide)),
    ⟨by decide, fun c hc => ?_, by decide⟩, fun p hp => ?_⟩, _, rfl⟩
  · revert c; decide
  · cases hc
  · cases hp; rfl

/-- A draw of three, a host that reads, no reset to come, for a legal word and for an illegal one. -/
theorem witness_PendingCommandCompletes :
    ∀ w ∈ ([0x20, 0x99] : List Word), ∃ p, (hostNext .wait (pend w 0 1 0 0 State.reset 3)).pending = some p
      ∧ .reset ∉ (hostNext .wait (pend w 0 1 0 0 State.reset 3)).host := fun _ _ => ⟨_, rfl, by simp [hostNext]⟩

/-- An empty slot; a command whose draw has not run out; the illegal word `0x99`. -/
theorem witness_WaitYieldsTheResult :
    let s := hostNext .wait (pend 0x20 0 1 0 0 State.reset 3)
    let u := hostNext .wait (pend 0x99 0 0 0 0 State.reset 3)
    ((hostNext .wait State.reset).host = [.wait] ∧ (hostNext .wait State.reset).pending = none)
      ∧ (∃ p t, s.pending = some p ∧ s.host = [.wait] ∧ p.wait ≠ 0 ∧ decode p.word = .ok .rbInit ∧ exec .rbInit s = .next t)
      ∧ ∃ p, u.pending = some p ∧ u.host = [.wait] ∧ decode p.word = .error .unknownOpcode :=
  ⟨⟨rfl, rfl⟩, ⟨_, _, rfl, rfl, by decide, rfl, rfl⟩, _, rfl, rfl, rfl⟩

end Sys2Proof.Tests
end

/-! ## The invariant: every operation a step is made of keeps it -/

namespace Sys2Proof.Machine

/-! ### Defined bytes stay defined, and a memory stays inside `MEM_SIZE` -/

/-- A store never makes a byte undefined. -/
theorem Memory.isSome_read_write {m : Memory} {x : Nat} (a : Nat) (b : Byte) (h : (m.read x).isSome = true) :
    ((m.write a b).read x).isSome = true := by
  by_cases hx : x = a
  · simp [hx]
  · rwa [Memory.read_write_other m b hx]

/-- Storing a sequence never makes a byte undefined. -/
theorem Memory.isSome_read_writeRange {m : Memory} {x : Nat} (a : Nat) (bs : Bytes)
    (h : (m.read x).isSome = true) : ((m.writeRange a bs).read x).isSome = true := by
  induction bs generalizing m a with
  | nil => exact h
  | cons b bs ih => exact ih (a + 1) (Memory.isSome_read_write a b h)

/-- A sequence stored below `MEM_SIZE` keeps the memory canonical and below `MEM_SIZE` (R50). -/
theorem State.memInv_writeRange {s : State} {a : Nat} {bs : Bytes} (h : s.memInv)
    (hfit : a + bs.length ≤ s.params.memSize) :
    ({ s with mem := s.mem.writeRange a bs } : State).memInv := by
  obtain ⟨hwf, hlt⟩ := h
  refine ⟨Memory.wf_writeRange a bs hwf, fun c hc => ?_⟩
  rcases Memory.mem_writeRange hc with hc | ⟨-, hc⟩
  · exact hlt c hc
  · exact hc.trans_le hfit

/-! ### The ring's quantities on a ready ring, and `Push` and `Pop` -/

/-- A ready ring holds at most its capacity (R28). -/
theorem State.RingReady.count_le {s : State} (h : s.RingReady) : s.count ≤ s.rbCap.toNat := by
  rw [State.count_eq h.head_lt h.tail_lt]
  have := h.head_lt
  split_ifs <;> omega

/-- A ready ring is full exactly when it holds its capacity (R28). -/
theorem State.RingReady.full_iff {s : State} (h : s.RingReady) : s.full = true ↔ s.count = s.rbCap.toNat := by
  rw [State.count_eq h.head_lt h.tail_lt]
  have := h.head_lt
  have := h.tail_lt
  split_ifs <;> simp [*] <;> omega

/-- `free` and `count` make up the capacity of a ready ring (R28). -/
theorem State.RingReady.free_add_count {s : State} (h : s.RingReady) : s.free + s.count = s.rbCap.toNat := by
  have := h.count_le
  rw [State.free]
  omega

/-- `Push` on a ring with room makes the count one more (R131). -/
theorem State.RingReady.count_ringPush {s : State} (h : s.RingReady) (b : Byte) (hroom : s.count < s.rbCap.toNat) :
    (ringPush b s).count = s.count + 1 := by
  have hh := h.head_lt
  have ht := h.tail_lt
  have hnf : s.full = false := by
    rw [Bool.eq_false_iff, ne_eq, h.full_iff]; omega
  have hnext : (nextIndex s s.rbHead).toNat = _ := (nextIndex_toNat h.cap_pos).trans (succ_mod_eq hh)
  have hlt : (nextIndex s s.rbHead).toNat < s.rbCap.toNat := by rw [hnext]; split <;> omega
  rw [State.count_eq hh ht] at hroom ⊢
  rw [State.count_eq (s := ringPush b s) hlt ht]
  simp only [ringPush_full, ringPush_rbHead, ringPush_rbTail, ringPush_rbCap, ← BitVec.toNat_inj, hnext, hnf,
    Bool.if_false_right, Bool.and_true, decide_eq_true_eq, Bool.false_eq_true, if_false] at hroom ⊢
  split_ifs at hroom ⊢ <;> omega

/-- `Push` on a ready ring with room leaves it ready (R131, R134). -/
theorem State.RingReady.ringPush {s : State} (h : s.RingReady) (b : Byte) (hroom : s.count < s.rbCap.toNat) :
    (ringPush b s).RingReady where
  init := h.init
  cap_pos := h.cap_pos
  cap_le := h.cap_le
  region := h.region
  head_lt := by
    rw [ringPush_rbHead, nextIndex_toNat h.cap_pos]
    exact Nat.mod_lt _ h.cap_pos
  tail_lt := h.tail_lt
  full_eq := by
    have hnf : s.full = false := by
      rw [Bool.eq_false_iff, ne_eq, h.full_iff]; omega
    simp [hnf]
  held := by
    intro k hk
    rw [h.count_ringPush b hroom] at hk
    have hpos : ringPos (Machine.ringPush b s) k = ringPos s k := rfl
    rw [hpos, ringPush_mem]
    by_cases hlast : k = s.count
    · have : ringPos s k = s.rbBase.toNat + s.rbHead.toNat := by rw [h.head_eq, hlast]; rfl
      simp [this]
    · exact Memory.isSome_read_write _ _ (h.held k (by omega))

/-- `Pop` on a ring that holds a byte makes the count one less (R131). -/
theorem State.RingReady.count_ringPop {s : State} (h : s.RingReady) (hne : 0 < s.count) :
    (ringPop s).count + 1 = s.count := by
  have hh := h.head_lt
  have ht := h.tail_lt
  have hnext : (nextIndex s s.rbTail).toNat = _ := (nextIndex_toNat h.cap_pos).trans (succ_mod_eq ht)
  have hlt : (nextIndex s s.rbTail).toNat < s.rbCap.toNat := by rw [hnext]; split <;> omega
  rw [State.count_eq hh ht] at hne ⊢
  rw [State.count_eq (s := ringPop s) hh hlt]
  simp only [ringPop_full, ringPop_rbHead, ringPop_rbTail, ringPop_rbCap, hnext, Bool.false_eq_true, if_false]
  by_cases hf : s.full = true
  · have hidx := congrArg BitVec.toNat (h.full_eq hf)
    rw [if_pos hf]
    split_ifs <;> omega
  · rw [if_neg hf] at hne ⊢
    split_ifs at hne ⊢ <;> omega

/-- `Pop` moves every logical position on by one (R130, R131). -/
theorem ringPos_ringPop {s : State} (h : 1 ≤ s.rbCap.toNat) (k : Nat) :
    ringPos (ringPop s) k = ringPos s (k + 1) := by
  simp only [ringPos, ringPop_rbBase, ringPop_rbCap, ringPop_rbTail, nextIndex_toNat h, Nat.mod_add_mod]
  rw [show s.rbTail.toNat + 1 + k = s.rbTail.toNat + (k + 1) by omega]

/-- `Pop` on a ready ring that holds a byte leaves it ready (R131, R134). -/
theorem State.RingReady.ringPop {s : State} (h : s.RingReady) (hne : 0 < s.count) : (ringPop s).RingReady where
  init := h.init
  cap_pos := h.cap_pos
  cap_le := h.cap_le
  region := h.region
  head_lt := h.head_lt
  tail_lt := by
    rw [ringPop_rbTail, nextIndex_toNat h.cap_pos]
    exact Nat.mod_lt _ h.cap_pos
  full_eq := by simp
  held := by
    intro k hk
    have := h.count_ringPop hne
    rw [ringPos_ringPop h.cap_pos]
    exact h.held (k + 1) (by omega)

/-! ### What each shared operation does to the invariant -/

/-- A ring whose `init` is 1 is ready in a state that meets the invariant. -/
theorem State.Inv.ringReady {s : State} (h : s.Inv) (hi : s.init = true) : s.RingReady :=
  h.ring.resolve_right fun hu => by simp [hu.init] at hi

/-- A recorded first cause is one (R174). -/
theorem firstCause_ne_none (old : Option FaultCode) (c : FaultCode) : firstCause old c ≠ none := by
  cases old <;> simp [firstCause]

/-- The invariant of a state that differs from one that meets it in neither the parameters, the memory nor a ring
register. -/
theorem State.Inv.of_status {s t : State} (h : s.Inv)
    (ht : t = { t with
      params := s.params
      mem := s.mem
      rbBase := s.rbBase
      rbCap := s.rbCap
      rbHead := s.rbHead
      rbTail := s.rbTail
      full := s.full
      init := s.init })
    (hs : t.StatusInv) (hslot : ∀ p, t.pending = some p → p.word = t.cmd) : t.Inv := by
  have hp : t.params = s.params := (congrArg State.params ht :)
  have hm : t.mem = s.mem := (congrArg State.mem ht :)
  have hb : t.rbBase = s.rbBase := (congrArg State.rbBase ht :)
  have hc : t.rbCap = s.rbCap := (congrArg State.rbCap ht :)
  have hh : t.rbHead = s.rbHead := (congrArg State.rbHead ht :)
  have htl : t.rbTail = s.rbTail := (congrArg State.rbTail ht :)
  have hf : t.full = s.full := (congrArg State.full ht :)
  have hi : t.init = s.init := (congrArg State.init ht :)
  refine ⟨hp ▸ h.params, ?_, ?_, hs, hslot⟩
  · rw [State.memInv, hm, hp]; exact h.mem
  · refine h.ring.imp (fun hr => hr.congr hp hb hc hh htl hf hi fun _ _ _ hd => hm ▸ hd) fun hu => ?_
    exact ⟨hi.trans hu.init, hb.trans hu.base, hc.trans hu.cap, hh.trans hu.head, htl.trans hu.tail, hf.trans hu.full⟩

/-- A store below `MEM_SIZE` keeps the invariant (R50, R134). -/
theorem State.Inv.writeMem {s : State} (h : s.Inv) {a : Nat} {bs : Bytes}
    (hfit : a + bs.length ≤ s.params.memSize) : ({ s with mem := s.mem.writeRange a bs } : State).Inv where
  params := h.params
  mem := State.memInv_writeRange h.mem hfit
  ring := h.ring.imp
    (fun hr => hr.congr rfl rfl rfl rfl rfl rfl rfl fun _ _ _ hd => Memory.isSome_read_writeRange a bs hd)
    fun hu => ⟨hu.init, hu.base, hu.cap, hu.head, hu.tail, hu.full⟩
  status := ⟨h.status.fault_iff, h.status.code_fault, h.status.nodup⟩
  slot := h.slot

/-- The non-fault completion keeps the invariant (R172). -/
theorem State.Inv.finish {s : State} (h : s.Inv) (c : OutcomeCode) (r0 r1 : Word) (d : Dstat) :
    (finish c r0 r1 d s).Inv :=
  h.of_status rfl ⟨h.status.fault_iff, nofun, h.status.nodup⟩ nofun

/-- The fault completion of an engine fault keeps the invariant (R173, R174). -/
theorem State.Inv.raiseFault {s : State} (h : s.Inv) {c : FaultCode} (hc : c ≠ .badAccess ∧ c ≠ .cmdWhileBusy) :
    (raiseFault c s).Inv := by
  refine h.of_status rfl ⟨?_, ?_, h.status.nodup⟩ nofun
  · simp [firstCause_ne_none]
  · rintro _ ⟨⟩
    exact ⟨rfl, hc⟩

/-- A command that meets an undefined byte keeps the invariant (R57). -/
theorem State.Inv.undefinedRead {s : State} (h : s.Inv) : (undefinedRead s).Inv :=
  h.of_status rfl ⟨h.status.fault_iff, h.status.code_fault, nodup_recordModelFault h.status.nodup⟩ nofun

/-- Recording a fault of a host access keeps the invariant (R174, R176, R177). -/
theorem State.Inv.recordFault {s : State} (h : s.Inv) (c : FaultCode) : (recordFault c s).Inv := by
  refine h.of_status rfl ⟨?_, fun c' hc' => ⟨rfl, (h.status.code_fault c' hc').2⟩, h.status.nodup⟩ h.slot
  simp [firstCause_ne_none]

/-- Recording a model fault keeps the invariant (R32). -/
theorem State.Inv.recordModelFault {s : State} (h : s.Inv) (f : Fault) : (recordModelFault f s).Inv :=
  h.of_status rfl ⟨h.status.fault_iff, h.status.code_fault, nodup_recordModelFault h.status.nodup⟩ h.slot

/-- Putting an answer on the bus keeps the invariant. -/
theorem State.Inv.respond {s : State} (h : s.Inv) (r : Response) : (respond r s).Inv :=
  h.of_status rfl ⟨h.status.fault_iff, h.status.code_fault, h.status.nodup⟩ h.slot

/-- Taking an event off the host's list keeps the invariant: the pending word stays (R30, R210). -/
theorem State.Inv.advanceHost {s : State} (h : s.Inv) (rest : List HostEvent) : (advanceHost rest s).Inv := by
  refine h.of_status rfl ⟨h.status.fault_iff, h.status.code_fault, h.status.nodup⟩ fun p hp => ?_
  simp only [advanceHost_pending, Option.map_eq_some_iff] at hp
  obtain ⟨q, hq, rfl⟩ := hp
  exact h.slot q hq

/-- Accepting a command keeps the invariant: the slot takes the word `CMD` takes (R22). -/
theorem State.Inv.acceptCommand {s : State} (h : s.Inv) (w : Word) : (acceptCommand w s).Inv := by
  refine h.of_status rfl ⟨h.status.fault_iff, h.status.code_fault, h.status.nodup⟩ ?_
  rintro _ ⟨⟩
  rfl

/-- `Push` with room keeps the invariant (R131). -/
theorem State.Inv.ringPush {s : State} (h : s.Inv) (hi : s.init = true) (b : Byte)
    (hroom : s.count < s.rbCap.toNat) : (ringPush b s).Inv := by
  have hr := h.ringReady hi
  have hfit : s.rbBase.toNat + s.rbHead.toNat + [b].length ≤ s.params.memSize := by
    have := hr.head_lt
    have := hr.region
    simp only [List.length_singleton]
    omega
  exact ⟨h.params, State.memInv_writeRange h.mem hfit, .inl (hr.ringPush b hroom),
    ⟨h.status.fault_iff, h.status.code_fault, h.status.nodup⟩, h.slot⟩

/-- `Push` of as many bytes as there is room for keeps the invariant (R137). -/
theorem State.Inv.ringPushAll {bs : Bytes} {s : State} (h : s.Inv) (hi : s.init = true)
    (hroom : s.count + bs.length ≤ s.rbCap.toNat) : (ringPushAll bs s).Inv := by
  induction bs generalizing s with
  | nil => exact h
  | cons b bs ih =>
    rw [List.length_cons] at hroom
    have hone : s.count < s.rbCap.toNat := by omega
    have hcount := (h.ringReady hi).count_ringPush b hone
    exact ih (h.ringPush hi b hone) hi (by rw [ringPush_rbCap]; omega)

/-- `Pop` of a held byte keeps the invariant (R131). -/
theorem State.Inv.ringPop {s : State} (h : s.Inv) (hi : s.init = true) (hne : 0 < s.count) : (ringPop s).Inv :=
  ⟨h.params, h.mem, .inl ((h.ringReady hi).ringPop hne),
    ⟨h.status.fault_iff, h.status.code_fault, h.status.nodup⟩, h.slot⟩

/-- `Pop` of no more bytes than are held keeps the invariant (R138, R140). -/
theorem State.Inv.ringPopN {n : Nat} {s : State} (h : s.Inv) (hi : s.init = true) (hn : n ≤ s.count) :
    (ringPopN n s).Inv := by
  induction n generalizing s with
  | zero => exact h
  | succ n ih =>
    have hcount := (h.ringReady hi).count_ringPop (by omega)
    exact ih (h.ringPop hi (by omega)) hi (by omega)

/-! ### What each command does to the invariant -/

/-- Delivery into a valid destination keeps the invariant (R103 to R107). -/
theorem State.Inv.deliver {s : State} (h : s.Inv) (out : Bytes) (c : OutcomeCode) (r1 : Word) (d : Dstat)
    (hdst : s.operands.a2.toNat + s.operands.a3.toNat ≤ s.params.memSize) : (deliver out c r1 d s).Inv := by
  rcases Nat.lt_or_ge s.operands.a3.toNat out.length with hlen | hlen
  · rw [deliver_of_overflow hlen]
    exact h.finish ..
  · rw [deliver_of_fits hlen]
    exact (h.writeMem (by omega)).finish ..

/-- A command with a source and a destination keeps the invariant when what it goes on with does (R175). -/
theorem State.Inv.withSourceAndDest {s : State} (h : s.Inv) {k : Bytes → State}
    (hk : s.operands.a2.toNat + s.operands.a3.toNat ≤ s.params.memSize → ∀ src, (k src).Inv) :
    (withSourceAndDest s k).Inv := by
  rcases withSourceAndDest_cases s k with ⟨src, -, -, hdst, hw⟩ | hw | hw <;> rw [hw]
  · exact hk hdst src
  · exact h.undefinedRead
  · exact h.raiseFault (by simp)

/-- A gated ring command keeps the invariant when what is behind the gate does (R133). -/
theorem State.Inv.withRing {s k : State} (h : s.Inv) (hk : s.init = true → k.Inv) : (withRing s k).Inv := by
  cases hi : s.init with
  | true => rw [withRing_of_init hi]; exact hk hi
  | false => rw [withRing_of_not_init hi]; exact h.raiseFault (by simp)

/-- Appending bytes there is room for keeps the invariant (R137). -/
theorem State.Inv.appendBytes {s : State} (h : s.Inv) (hi : s.init = true) {bs : Bytes} (hroom : bs.length ≤ s.free) :
    (appendBytes bs s).Inv := by
  have := (h.ringReady hi).free_add_count
  exact (h.ringPushAll hi (by omega)).finish ..

/-- Removing held bytes and storing others below `MEM_SIZE` keeps the invariant (R138, R140). -/
theorem State.Inv.extractBytes {s : State} (h : s.Inv) (hi : s.init = true) {n : Nat} {bs : Bytes} {dst : Word}
    (hn : n ≤ s.count) (hfit : dst.toNat + bs.length ≤ s.params.memSize) (r0 r1 : Word) :
    (extractBytes n bs dst r0 r1 s).Inv := by
  have hpop := (h.ringPopN hi hn).writeMem (a := dst.toNat) (bs := bs) (by rwa [ringPopN_params])
  rw [ringPopN_mem] at hpop
  exact hpop.finish ..

/-- Initialising the ring over a legal region keeps the invariant (R135). -/
theorem State.Inv.startRing {s : State} (h : s.Inv) {base cap : Word} (hpos : 1 ≤ cap.toNat)
    (hcap : cap.toNat ≤ s.params.rbCapMax) (hregion : base.toNat + cap.toNat ≤ s.params.memSize) :
    ({ s with rbBase := base, rbCap := cap, rbHead := 0, rbTail := 0, full := false, init := true } : State).Inv := by
  refine ⟨h.params, h.mem, .inl ⟨rfl, hpos, hcap, hregion, hpos, hpos, nofun, fun k hk => ?_⟩,
    ⟨h.status.fault_iff, h.status.code_fault, h.status.nodup⟩, h.slot⟩
  simp [State.count] at hk

/-- The scan of `FindSpan` answers an index below the end of what it scans (R132). -/
theorem findSpanFrom_lt {d : Byte} {k i j : Nat} {prev : Option Nat} {bs : Bytes}
    (h : findSpanFrom d k prev bs = some (i, j)) : j < k + bs.length := by
  induction bs generalizing k prev with
  | nil => cases h
  | cons b bs ih =>
    rw [List.length_cons]
    unfold findSpanFrom at h
    split at h
    · split at h
      · split at h
        · cases h; omega
        · have := ih h; omega
      · have := ih h; omega
    · have := ih h; omega

/-- A span `FindSpan` finds ends at a held byte (R132). -/
theorem findSpan_lt {d : Byte} {i j : Nat} {held : Bytes} (h : findSpan d held = some (i, j)) : j < held.length := by
  simpa using findSpanFrom_lt h

/-- Every command keeps the invariant. -/
theorem State.Inv.exec {i : Instr} {s t : State} (h : s.Inv) (ht : exec i s = .next t) : t.Inv := by
  cases i with
  | enc =>
    cases ht
    exact h.withSourceAndDest fun hdst _ => h.deliver _ _ _ _ hdst
  | dec =>
    cases ht
    exact h.withSourceAndDest fun hdst _ => h.deliver _ _ _ _ hdst
  | encpkt =>
    cases ht
    exact h.withSourceAndDest fun hdst _ => h.deliver _ _ _ _ hdst
  | decpkt =>
    cases ht
    refine h.withSourceAndDest fun hdst src => ?_
    dsimp only
    split
    · exact h.deliver _ _ _ _ hdst
    · exact h.finish ..
  | crc16 =>
    cases ht
    rcases withSource_cases s fun data => Machine.finish .ok ((crc16 data).setWidth 32) 0 Dstat.zero s with
      ⟨src, -, -, -, hw⟩ | hw | hw <;> rw [hw]
    · exact h.finish ..
    · exact h.undefinedRead
    · exact h.raiseFault (by simp)
  | rbInit =>
    cases ht
    split
    · exact h.raiseFault (by simp)
    · exact (h.startRing (by omega) (by omega) (by omega)).finish ..
  | rbEmpty =>
    cases ht
    exact h.withRing fun _ => h.finish ..
  | rbAdd =>
    cases ht
    refine h.withRing fun hi => ?_
    split
    · split
      · exact h.raiseFault (by simp)
      · rcases readSource_cases s fun bs => Machine.appendBytes bs s with ⟨src, hlen, -, hw⟩ | ⟨-, hw⟩ <;> rw [hw]
        · exact h.appendBytes hi (by omega)
        · exact h.undefinedRead
    · exact h.raiseFault (by simp)
  | rbDeq =>
    cases ht
    refine h.withRing fun hi => ?_
    split
    · rename_i hvalid
      rw [rangeValid_iff] at hvalid
      split
      · rename_i bs hbs
        have hlen := (ringBytes_eq_some.1 hbs).1
        exact h.extractBytes hi (by omega) (by omega) _ _
      · exact h.undefinedRead
    · exact h.raiseFault (by simp)
  | rbHasspan d =>
    cases ht
    refine h.withRing fun _ => ?_
    split
    · split <;> exact h.finish ..
    · exact h.undefinedRead
  | rbDeqspan d =>
    cases ht
    refine h.withRing fun hi => ?_
    split
    · rename_i hvalid
      rw [rangeValid_iff] at hvalid
      split
      · rename_i held hheld
        have hlen := (heldBytes_eq_some.1 hheld).1
        split
        · rename_i i j hspan
          have hj := findSpan_lt hspan
          split
          · exact h.finish ..
          · have htake := List.length_take_le (j - i + 1) (held.drop i)
            exact h.extractBytes hi (by omega) (by omega) _ _
        · exact h.finish ..
      · exact h.undefinedRead
    · exact h.raiseFault (by simp)

/-- The engine's step keeps the invariant (R58, R75). -/
theorem State.Inv.engineStep {p : Pending} {s t : State} (h : s.Inv) (ht : engineStep p s = .next t) : t.Inv := by
  unfold Machine.engineStep at ht
  split at ht
  · exact h.exec ht
  · cases ht
    exact h.raiseFault (by simp)

/-! ### What each host event does to the invariant -/

/-- A refused access keeps the invariant (R176). -/
theorem State.Inv.badAccess {s : State} (h : s.Inv) (r : Response) : (badAccess r s).Inv :=
  (h.recordFault _).respond r

/-- Recording an access to `M` while busy keeps the invariant (R205). -/
theorem State.Inv.noteBusyAccess {s : State} (h : s.Inv) : (noteBusyAccess s).Inv := by
  unfold Machine.noteBusyAccess
  split
  · exact h.recordModelFault _
  · exact h

/-- A write to a named register keeps the invariant (R21, R22, R24, R177). -/
theorem State.Inv.hostWriteReg {s : State} (h : s.Inv) (r : Reg) (v : Word) : (hostWriteReg r v s).Inv := by
  cases r <;> simp only [Machine.hostWriteReg, hostWriteCmd]
  case cmd =>
    split
    · exact h.recordFault _
    · exact h.acceptCommand v
  case arg0 | arg1 | arg2 | arg3 =>
    exact h.of_status rfl ⟨h.status.fault_iff, h.status.code_fault, h.status.nodup⟩ h.slot
  all_goals exact h.recordFault _

/-- A register write keeps the invariant (R51, R176). -/
theorem State.Inv.hostRegWrite {s : State} (h : s.Inv) (width : Nat) (offset : BitVec 6) (v : Word) :
    (hostRegWrite width offset v s).Inv := by
  unfold Machine.hostRegWrite
  split
  · exact (h.hostWriteReg _ v).respond _
  · exact h.badAccess _

/-- A register read keeps the invariant (R51, R59, R176). -/
theorem State.Inv.hostRegRead {s : State} (h : s.Inv) (width : Nat) (offset : BitVec 6) :
    (hostRegRead width offset s).Inv := by
  unfold Machine.hostRegRead
  split
  · exact h.respond _
  · exact h.badAccess _

/-- The low bytes of a value are as many as asked for (R52). -/
theorem length_littleEndianBytes (v : Word) (n : Nat) : (littleEndianBytes v n).length = n := by
  induction n generalizing v with
  | zero => rfl
  | succ n ih => rw [littleEndianBytes, List.length_cons, ih]

/-- An access to `M` the block takes ends below `MEM_SIZE` (R52). -/
theorem le_memSize_of_memAccessLegal {s : State} {width a : Nat} (h : memAccessLegal s width a = true) :
    a + width ≤ s.params.memSize := by
  simp only [memAccessLegal, Bool.and_eq_true, decide_eq_true_eq] at h
  exact h.2

/-- A host write to `M` keeps the invariant (R52, R176, R205). -/
theorem State.Inv.hostMemWrite {s : State} (h : s.Inv) (width a : Nat) (v : Word) : (hostMemWrite width a v s).Inv := by
  unfold Machine.hostMemWrite
  split
  · rename_i hlegal
    split
    · exact h.noteBusyAccess.respond _
    · refine (h.writeMem ?_).respond _
      rw [length_littleEndianBytes]
      exact le_memSize_of_memAccessLegal hlegal
  · exact h.noteBusyAccess.badAccess _

/-- A host read of `M` keeps the invariant (R52, R57, R176, R205). -/
theorem State.Inv.hostMemRead {s : State} (h : s.Inv) (width a : Nat) : (hostMemRead width a s).Inv := by
  unfold Machine.hostMemRead
  split
  · split
    · exact h.noteBusyAccess.respond _
    · exact (h.noteBusyAccess.recordModelFault _).respond _
  · exact h.noteBusyAccess.badAccess _

/-- The line `wait` keeps the invariant (R79). -/
theorem State.Inv.hostWait {s : State} (h : s.Inv) (rest : List HostEvent) : (hostWait rest s).Inv := by
  unfold Machine.hostWait
  split
  · exact (h.advanceHost _).respond _
  · exact (h.advanceHost _).respond _

/-- The state after reset meets the invariant for legal parameters (R35). -/
theorem State.inv_resetWith {p : Params} (h : p.legal = true) : (State.resetWith p).Inv where
  params := h
  mem := ⟨rfl, nofun⟩
  ring := .inr ⟨rfl, rfl, rfl, rfl, rfl, rfl⟩
  status := ⟨by simp [State.resetWith], nofun, List.nodup_nil⟩
  slot := nofun

/-- The reset input leads to a state that meets the invariant (R200). -/
theorem State.Inv.resetBlock {s : State} (h : s.Inv) : (resetBlock s).Inv :=
  have hreset := State.inv_resetWith h.params
  hreset.of_status rfl ⟨hreset.status.fault_iff, hreset.status.code_fault, hreset.status.nodup⟩ hreset.slot

/-- Every host event keeps the invariant. -/
theorem State.Inv.hostStep {s : State} (h : s.Inv) : (hostStep s).Inv := by
  unfold Machine.hostStep
  split
  · exact h
  · exact (h.advanceHost _).hostRegWrite ..
  · exact (h.advanceHost _).hostRegRead ..
  · exact (h.advanceHost _).hostMemWrite ..
  · exact (h.advanceHost _).hostMemRead ..
  · exact h.hostWait _
  · exact (h.advanceHost _).resetBlock

/-- Settles O58: every operation a command or a host event is made of keeps the invariant, so every step does. -/
theorem everyStepKeepsTheInvariant : Obligations.EveryStepKeepsTheInvariant := by
  intro s t h ht
  rcases step_cases s with ⟨p, -, hstep⟩ | ⟨e, rest, -, hstep⟩ | ⟨-, -, hstep⟩ <;> rw [hstep] at ht
  · exact h.engineStep ht
  · cases ht
    exact h.hostStep
  · cases ht
    exact h

/-- Settles O57: the reset values meet each clause, whatever the parameters. -/
theorem resetMeetsTheInvariant : Obligations.ResetMeetsTheInvariant :=
  ⟨fun _ h => State.inv_resetWith h, rfl, State.inv_resetWith (by decide)⟩

end Sys2Proof.Machine

/-! ## Frames, two runs of a codec command, and the ring's derived quantities -/

namespace Sys2Proof.Machine

/-! ### Frames: what a command, a host access and reset leave alone -/

/-- Settles O23: none of the ways a command ends writes a host register. -/
theorem commandsLeaveHostRegistersAlone : Obligations.CommandsLeaveHostRegistersAlone := by
  intro i s t h
  cases exec_ends h with
  | fault c _ => exact ⟨rfl, rfl, rfl, rfl, rfl, rfl, rfl, rfl, rfl, rfl, fun _ _ => rfl⟩
  | undefined => exact ⟨rfl, rfl, rfl, rfl, rfl, rfl, rfl, rfl, rfl, rfl, fun _ _ => rfl⟩
  | finished c r0 r1 d u _ _ hu =>
    obtain ⟨m, _, _, _, _, _, _, hm, -⟩ := hu
    exact ⟨rfl, rfl, rfl, rfl, rfl, rfl, rfl, rfl, rfl, rfl, fun hi a => congrArg (Memory.read · a) (hm hi)⟩

/-- The ring registers of `t` are those of `s` (R27). -/
def SameRingRegisters (s t : State) : Prop :=
  t.rbBase = s.rbBase ∧ t.rbCap = s.rbCap ∧ t.rbHead = s.rbHead ∧ t.rbTail = s.rbTail ∧ t.full = s.full
    ∧ t.init = s.init

/-- A command that is not one of the four ring-writing ones leaves the ring registers alone (R27). -/
theorem sameRingRegisters_exec {i : Instr} {s t : State} (h : exec i s = .next t)
    (hi : ¬(i = .rbInit ∨ i = .rbAdd ∨ i = .rbDeq ∨ ∃ d, i = .rbDeqspan d)) : SameRingRegisters s t := by
  cases exec_ends h with
  | fault c _ => exact ⟨rfl, rfl, rfl, rfl, rfl, rfl⟩
  | undefined => exact ⟨rfl, rfl, rfl, rfl, rfl, rfl⟩
  | finished c r0 r1 d u _ _ hu =>
    obtain ⟨_, _, _, _, _, _, _, -, hr⟩ := hu
    exact hr hi

/-- A host event other than reset leaves the results and the ring registers alone (R206). -/
theorem HostChanged.results_and_ring {s t : State} (h : HostChanged s t) :
    t.code = s.code ∧ t.dstat = s.dstat ∧ t.res0 = s.res0 ∧ t.res1 = s.res1 ∧ SameRingRegisters s t := by
  cases h
  exact ⟨rfl, rfl, rfl, rfl, rfl, rfl, rfl, rfl, rfl, rfl⟩

/-- A due host event that is not the reset input is a step that may change only what such an event can. -/
theorem hostChanged_of_hostDue {s t : State} {e : HostEvent} {rest : List HostEvent} (h : HostDue s e rest)
    (he : e ≠ .reset) (ht : step s = .next t) : HostChanged s t := by
  rw [step_of_hostDue h] at ht
  cases ht
  refine hostChanged_hostStep fun rest' hreset => he ?_
  rw [h.1] at hreset
  exact (List.cons.inj hreset).1

/-- Settles O24: every other step is a command, a fault, an idle step or a host event that leaves the ring registers
alone. -/
theorem ringStateChangesOnlyByRingCommands : Obligations.RingStateChangesOnlyByRingCommands := by
  intro s t ht hchanged
  change ¬SameRingRegisters s t at hchanged
  rcases step_cases s with ⟨p, hdue, hstep⟩ | ⟨e, rest, hdue, -⟩ | ⟨-, -, hstep⟩
  · rw [hstep, engineStep] at ht
    split at ht
    · rename_i i hdecode
      by_cases hi : i = .rbInit ∨ i = .rbAdd ∨ i = .rbDeq ∨ ∃ d, i = .rbDeqspan d
      · exact .inl ⟨p, i, hdue, hdecode, hi⟩
      · exact absurd (sameRingRegisters_exec ht hi) hchanged
    · cases ht
      exact absurd ⟨rfl, rfl, rfl, rfl, rfl, rfl⟩ hchanged
  · by_cases he : e = .reset
    · exact .inr ⟨rest, he ▸ hdue⟩
    · obtain ⟨-, -, -, -, hring⟩ := (hostChanged_of_hostDue hdue he ht).results_and_ring
      exact absurd hring hchanged
  · rw [hstep] at ht
    cases ht
    exact absurd ⟨rfl, rfl, rfl, rfl, rfl, rfl⟩ hchanged

/-- Settles O25: a due host event other than reset is a `HostChanged`. -/
theorem resultsChangeOnlyAtCompletion : Obligations.ResultsChangeOnlyAtCompletion :=
  fun _ _ _ _ hdue he ht => (hostChanged_of_hostDue hdue he ht).results_and_ring

/-! ### Two runs of a codec command -/

/-- Storing the same bytes at the same place of two memories: each address is left alone in both, or reads the same in
both. -/
theorem Memory.read_writeRange_two (m m' : Memory) (a x : Nat) (bs : Bytes) :
    (m.writeRange a bs).read x = m.read x ∧ (m'.writeRange a bs).read x = m'.read x
      ∨ (m'.writeRange a bs).read x = (m.writeRange a bs).read x := by
  obtain ⟨hin, hout⟩ := Memory.storedAt_writeRange m a bs
  obtain ⟨hin', hout'⟩ := Memory.storedAt_writeRange m' a bs
  by_cases hx : x < a ∨ a + bs.length ≤ x
  · exact .inl ⟨hout x hx, hout' x hx⟩
  · obtain ⟨k, rfl⟩ : ∃ k, x = a + k := ⟨x - a, by omega⟩
    exact .inr ((hin' k (by omega)).trans (hin k (by omega)).symm)

/-- `t` from `s` and `t'` from `s'` have the same results, and the two changed memory in the same places to the same
bytes (R34). -/
def SameAnswer (s s' t t' : State) : Prop :=
  t'.code = t.code ∧ t'.res0 = t.res0 ∧ t'.res1 = t.res1 ∧ t'.dstat = t.dstat
    ∧ ∀ a, t.mem.read a = s.mem.read a ∧ t'.mem.read a = s'.mem.read a ∨ t'.mem.read a = t.mem.read a

/-- Completing alike without a store. -/
theorem sameAnswer_finish (s s' : State) (c : OutcomeCode) (r0 r1 : Word) (d : Dstat) :
    SameAnswer s s' (finish c r0 r1 d s) (finish c r0 r1 d s') :=
  ⟨rfl, rfl, rfl, rfl, fun _ => .inl ⟨rfl, rfl⟩⟩

/-- Delivery answers and stores the same for the same operands and output (R34). -/
theorem sameAnswer_deliver {s s' : State} (hops : s'.operands = s.operands) (out : Bytes) (c : OutcomeCode) (r1 : Word)
    (d : Dstat) : SameAnswer s s' (deliver out c r1 d s) (deliver out c r1 d s') := by
  rcases Nat.lt_or_ge s.operands.a3.toNat out.length with hlen | hlen
  · rw [deliver_of_overflow hlen, deliver_of_overflow (hops ▸ hlen), hops]
    exact sameAnswer_finish ..
  · rw [deliver_of_fits hlen, deliver_of_fits (hops ▸ hlen), hops]
    exact ⟨rfl, rfl, rfl, rfl, fun x => Memory.read_writeRange_two ..⟩

/-- A command with a source and a destination answers and stores the same when what it goes on with does. -/
theorem sameAnswer_withSourceAndDest {s s' : State} {src : Bytes} {k k' : Bytes → State}
    (hops : s'.operands = s.operands) (hparams : s'.params = s.params) (hlen : src.length = s.operands.a1.toNat)
    (hsrc : Holds s.mem s.operands.a0.toNat src) (hsrc' : Holds s'.mem s.operands.a0.toNat src)
    (hk : SameAnswer s s' (k src) (k' src)) :
    SameAnswer s s' (withSourceAndDest s k) (withSourceAndDest s' k') := by
  by_cases hvalid : s.operands.a0.toNat + s.operands.a1.toNat ≤ s.params.memSize
      ∧ s.operands.a2.toNat + s.operands.a3.toNat ≤ s.params.memSize
  · obtain ⟨h1, h2⟩ := hvalid
    rw [withSourceAndDest_of_valid k h1 h2, readSource_of_holds k hlen hsrc,
      withSourceAndDest_of_valid k' (by rwa [hops, hparams]) (by rwa [hops, hparams]),
      readSource_of_holds k' (by rwa [hops]) (by rwa [hops])]
    exact hk
  · rw [withSourceAndDest_of_invalid k (by omega), withSourceAndDest_of_invalid k' (by rw [hops, hparams]; omega)]
    exact ⟨rfl, rfl, rfl, rfl, fun _ => .inl ⟨rfl, rfl⟩⟩

/-- Settles O41: what each codec command does with its source bytes is a delivery or a completion of values they alone
determine. -/
theorem codecDependsOnlyOnOperandsAndSource : Obligations.CodecDependsOnlyOnOperandsAndSource := by
  intro i s s' p p' src hi hp hp' hargs hparams hlen hsrc hsrc'
  have hops : s'.operands = s.operands := by rw [operands_of_pending hp, operands_of_pending hp', hargs]
  rw [← operands_of_pending hp] at hlen hsrc hsrc'
  rcases hi with rfl | rfl | rfl | rfl <;>
    refine ⟨_, _, rfl, rfl, sameAnswer_withSourceAndDest hops hparams hlen hsrc hsrc' ?_⟩
  case inl | inr.inl | inr.inr.inl => exact sameAnswer_deliver hops ..
  case inr.inr.inr =>
    dsimp only
    split
    · exact sameAnswer_deliver hops ..
    · exact sameAnswer_finish ..

/-! ### The ring's derived quantities -/

/-- A ready ring is empty exactly when it holds no byte (R28). -/
theorem State.RingReady.empty_iff {s : State} (h : s.RingReady) : s.empty = true ↔ s.count = 0 := by
  have hh := h.head_lt
  have ht := h.tail_lt
  rw [State.count_eq hh ht, State.empty, Bool.and_eq_true, beq_iff_eq, ← BitVec.toNat_inj, Bool.not_eq_true']
  split_ifs <;> simp [*] <;> omega

/-- `RB_COUNT` of a ready ring is its count: the register has room for it (R28). -/
theorem State.RingReady.rbCountWord_toNat {s : State} (h : s.RingReady) : (rbCountWord s).toNat = s.count := by
  have hle := h.count_le
  have hcap := s.rbCap.isLt
  rw [rbCountWord, if_pos h.init, BitVec.toNat_ofNat, Nat.mod_eq_of_lt (by omega)]

/-- Settles O47, from the equation of `count` without the modulus. -/
theorem ringCountAgreesWithItsFlags : Obligations.RingCountAgreesWithItsFlags := by
  refine ⟨fun s h => ⟨h.count_le, h.full_iff, h.empty_iff, ?_, h.free_add_count, fun hf hle => ?_, fun hf hlt => ?_,
    h.rbCountWord_toNat⟩, fun s hi => ?_⟩
  · simp [State.empty]
  · rw [State.count_eq h.head_lt h.tail_lt, if_neg (by simp [hf]), if_pos hle]
  · rw [State.count_eq h.head_lt h.tail_lt, if_neg (by simp [hf]), if_neg (by omega)]
  · simp [readReg, rbCountWord, hi]

end Sys2Proof.Machine

/-! ## The register window: status words, reset values, reads and writes -/

namespace Sys2Proof.Machine

/-! ### The status words bit by bit -/

/-- A one-bit field is its bit at its place (R23, R29). -/
@[simp] theorem getLsbD_bitField (b : Bool) {k : Nat} (hk : k < 32) (i : Nat) :
    (bitField b k).getLsbD i = (decide (i = k) && b) := by
  simp only [bitField, BitVec.getLsbD_shiftLeft, BitVec.getLsbD_setWidth, BitVec.getLsbD_ofBool]
  rcases Nat.lt_trichotomy i k with h | h | h
  · simp [h, h.ne]
  · simp [h, hk]
  · simp [h.ne', show i - k ≠ 0 by omega]

/-- An eight-bit field is its byte from its place on (R23). -/
@[simp] theorem getLsbD_byteField (v : BitVec 8) {k : Nat} (hk : k + 8 ≤ 32) (i : Nat) :
    (byteField v k).getLsbD i = (decide (k ≤ i) && v.getLsbD (i - k)) := by
  simp only [byteField, BitVec.getLsbD_shiftLeft, BitVec.getLsbD_setWidth]
  by_cases h : i < k
  · simp [h, show ¬k ≤ i by omega]
  · by_cases hi : i < k + 8
    · simp [h, show i < 32 by omega, show k ≤ i by omega, show i - k < 32 by omega]
    · simp [BitVec.getLsbD_of_ge v (i - k) (by omega)]

/-- `STATUS` bit by bit (R23): no two fields overlap. -/
theorem getLsbD_statusWord (s : State) (i : Nat) :
    (statusWord s).getLsbD i
      = (decide (i = 0) && s.busy || decide (i = 1) && s.fault || decide (8 ≤ i) && s.code.bits.getLsbD (i - 8)
        || decide (16 ≤ i) && (fcauseBits s.fcause).getLsbD (i - 16) || decide (i = 24) && s.dstat.dzero
        || decide (i = 25) && s.dstat.dtrunc || decide (i = 26) && s.dstat.dframe || decide (i = 27) && s.dstat.dshort) := by
  simp [statusWord]

/-- Bits 15:8 of `STATUS` are the number of `CODE` (R23). -/
theorem statusWord_code (s : State) : (statusWord s).extractLsb' 8 8 = s.code.bits := by
  ext i hi
  rw [BitVec.getElem_extractLsb', getLsbD_statusWord, ← BitVec.getLsbD_eq_getElem]
  interval_cases i <;> simp

/-- Bits 23:16 of `STATUS` are the number of `FCAUSE` (R23). -/
theorem statusWord_fcause (s : State) : (statusWord s).extractLsb' 16 8 = fcauseBits s.fcause := by
  ext i hi
  rw [BitVec.getElem_extractLsb', getLsbD_statusWord, ← BitVec.getLsbD_eq_getElem]
  interval_cases i <;> simp

/-- Settles O10, field by field from `getLsbD_statusWord`. -/
theorem statusWordHoldsItsFields : Obligations.StatusWordHoldsItsFields := by
  intro s
  refine ⟨?_, ?_, ?_, ?_, ?_, ?_, ?_, ?_, ?_, ?_⟩
  · rw [getLsbD_statusWord]; simp [State.busy]
  · rw [getLsbD_statusWord]; simp
  · ext i hi
    rw [BitVec.getElem_extractLsb', getLsbD_statusWord]
    interval_cases i <;> simp
  · rw [statusWord_code]
    rcases s.code with (_ | _ | _ | _) | (_ | _ | _ | _ | _ | _ | _) <;> rfl
  · rw [statusWord_fcause]
    rcases s.fcause with _ | (_ | _ | _ | _ | _ | _ | _) <;> rfl
  · rw [getLsbD_statusWord]; simp
  · rw [getLsbD_statusWord]; simp
  · rw [getLsbD_statusWord]; simp
  · rw [getLsbD_statusWord]; simp
  · ext i hi
    rw [BitVec.getElem_extractLsb', getLsbD_statusWord]
    interval_cases i <;> simp

/-- `RB_FLAGS` bit by bit (R29). -/
theorem getLsbD_rbFlagsWord (s : State) (i : Nat) :
    (rbFlagsWord s).getLsbD i
      = (decide (i = 0) && s.full || decide (i = 1) && (!s.init || s.empty) || decide (i = 2) && s.init) := by
  simp [rbFlagsWord]

/-- `RB_FLAGS` after reset (R29, R35). -/
theorem rbFlagsWord_resetWith (p : Params) : rbFlagsWord (State.resetWith p) = 0x00000002 := by
  simp only [rbFlagsWord, State.resetWith, State.empty]
  decide

/-- `STATUS` after reset (R35). -/
theorem statusWord_resetWith (p : Params) : statusWord (State.resetWith p) = 0x00000000 := by
  simp only [statusWord, State.resetWith, State.busy]
  decide

/-- Settles O11, bit by bit from `getLsbD_rbFlagsWord`. -/
theorem ringFlagsWordHoldsItsBits : Obligations.RingFlagsWordHoldsItsBits := by
  refine ⟨fun s => ⟨?_, ?_, ?_, ?_⟩, rbFlagsWord_resetWith⟩
  · rw [getLsbD_rbFlagsWord]; simp
  · rw [getLsbD_rbFlagsWord]; simp [State.empty]
  · rw [getLsbD_rbFlagsWord]; simp
  · ext i hi
    rw [BitVec.getElem_extractLsb', getLsbD_rbFlagsWord]
    simp [show 3 + i ≠ 1 by omega, show 3 + i ≠ 2 by omega]

/-- Settles O7: only the two computed status words need more than the record of `State.resetWith`. -/
theorem resetLeavesTheListedValues : Obligations.ResetLeavesTheListedValues := by
  rintro p s rfl
  refine ⟨fun r => ?_, ⟨rfl, rfl, rfl, rfl, rfl⟩, ⟨rfl, rfl⟩, rfl, fun _ => rfl, rfl, rfl, rfl⟩
  cases r with
  | status => exact statusWord_resetWith p
  | rbFlags => exact rbFlagsWord_resetWith p
  | _ => rfl

/-! ### The step and the host's register accesses -/

/-- The engine's step for a word that decodes is the decoded command (R30, R58). -/
theorem engineStep_of_decode {p : Pending} {i : Instr} (h : decode p.word = .ok i) (s : State) :
    engineStep p s = exec i s := by
  rw [engineStep, h]

/-- Settles O5: the engine's turn, the host's turn, and an idle block. -/
theorem stepRunsTheDecodedCommand : Obligations.StepRunsTheDecodedCommand := by
  refine ⟨fun s p i hdue hdecode => ?_, fun s e rest hdue => step_of_hostDue hdue, fun s hp hh => ?_⟩
  · rw [step_of_engineDue hdue, engineStep_of_decode hdecode]
  · rw [step, hp]
    simp only [hostStep, hh]

/-- Taking an event off the host's list changes what no register reads (R59). -/
@[simp] theorem readReg_advanceHost (rest : List HostEvent) (s : State) (r : Reg) :
    readReg (advanceHost rest s) r = readReg s r := by
  cases r with
  | status => simp [readReg, statusWord, State.busy]
  | _ => rfl

/-- A 32-bit read at an offset that reaches a register answers that register and has no side effect (R51, R59). -/
theorem step_regRead {s : State} {offset : BitVec 6} {r : Reg} {rest : List HostEvent}
    (h : HostDue s (.regRead 4 offset) rest) (hr : regAt offset = some r) :
    step s = .next { s with host := rest, pending := s.slotAfterAccess, response := .data (readReg s r) } := by
  rw [step_of_hostDue h, hostStep, h.1]
  simp only [hostRegRead, regAccess, if_pos, hr, readReg_advanceHost]
  rfl

/-- Settles O9: each row of the map is `readReg` of the register `regAt` finds at its offset. -/
theorem registerReadsReturnTheMap : Obligations.RegisterReadsReturnTheMap := by
  intro s offset v rest hdue hmap
  suffices ∃ r, regAt offset = some r ∧ v = readReg s r by
    obtain ⟨r, hr, rfl⟩ := this
    exact step_regRead hdue hr
  simp only [List.mem_cons, List.not_mem_nil, or_false, Prod.mk.injEq] at hmap
  rcases hmap with ⟨rfl, rfl⟩ | ⟨rfl, rfl⟩ | ⟨rfl, rfl⟩ | ⟨rfl, rfl⟩ | ⟨rfl, rfl⟩ | ⟨rfl, rfl⟩ | ⟨rfl, rfl⟩ | ⟨rfl, rfl⟩
    | ⟨rfl, rfl⟩ | ⟨rfl, rfl⟩ | ⟨rfl, rfl⟩ | ⟨rfl, rfl⟩ | ⟨rfl, rfl⟩ | ⟨rfl, rfl⟩ <;> exact ⟨_, rfl, rfl⟩

/-- A 32-bit write at an offset that reaches a register is the write to that register (R51). -/
theorem step_regWrite {s : State} {offset : BitVec 6} {v : Word} {r : Reg} {rest : List HostEvent}
    (h : HostDue s (.regWrite 4 offset v) rest) (hr : regAt offset = some r) :
    step s = .next (respond .written (hostWriteReg r v (advanceHost rest s))) := by
  rw [step_of_hostDue h, hostStep, h.1]
  simp only [hostRegWrite, regAccess, if_pos, hr]

/-- Settles O12: with an empty slot the write to `CMD` is `acceptCommand`. -/
theorem cmdWriteWhileIdleIsAccepted : Obligations.CmdWriteWhileIdleIsAccepted := by
  intro s w rest hp hhost
  have hdue : HostDue s (.regWrite 4 0x00 w) rest := ⟨hhost, by simp [hp]⟩
  rw [step_regWrite hdue (r := .cmd) rfl, advanceHost_of_idle hp]
  have hidle : State.busy { s with host := rest } = false := busy_eq_false.2 hp
  refine ⟨Config.latency s.draws, ?_⟩
  simp only [hostWriteReg, hostWriteCmd, hidle]
  rfl

/-- Settles O14: the write touches one argument register, and the slot only by the access it counts. -/
theorem argumentWritesTakeEffectAtAnyTime : Obligations.ArgumentWritesTakeEffectAtAnyTime :=
  fun _ _ _ => ⟨fun h => step_regWrite h (r := .arg0) rfl, fun h => step_regWrite h (r := .arg1) rfl,
    fun h => step_regWrite h (r := .arg2) rfl, fun h => step_regWrite h (r := .arg3) rfl⟩

end Sys2Proof.Machine

/-! ## The host's accesses to the buffer memory -/

namespace Sys2Proof.Machine

/-- With an empty slot the next host event is due (R60). -/
theorem hostDue_of_idle {s : State} {e : HostEvent} {rest : List HostEvent} (hp : s.pending = none)
    (hhost : s.host = e :: rest) : HostDue s e rest :=
  ⟨hhost, fun p h => by simp [hp] at h⟩

/-- With an empty slot, an access to `M` notes no hazard (R205). -/
theorem noteBusyAccess_of_idle {s : State} (hp : s.pending = none) : noteBusyAccess s = s := by
  simp [noteBusyAccess, busy_eq_false.2 hp]

/-- An access to `M` the block takes is at most 4 bytes wide (R52). -/
theorem width_le_of_memAccessLegal {s : State} {width a : Nat} (h : memAccessLegal s width a = true) : width ≤ 4 := by
  simp only [memAccessLegal, Bool.and_eq_true, Bool.or_eq_true, beq_iff_eq] at h
  omega

/-- An allowed write to `M` with an empty slot stores the low bytes of the value, and that is all (R52). -/
theorem hostMemWrite_of_idle {s : State} {width addr : Nat} {v : Word} (hp : s.pending = none)
    (hlegal : memAccessLegal s width addr = true) :
    hostMemWrite width addr v s
      = { s with mem := s.mem.writeRange addr (littleEndianBytes v width), response := .written } := by
  rw [hostMemWrite, if_pos hlegal, busy_eq_false.2 hp]
  rfl

/-- An allowed read of defined bytes with an empty slot answers them, and that is all (R52, R59). -/
theorem hostMemRead_of_holds {s : State} {width addr : Nat} {bs : Bytes} (hp : s.pending = none)
    (hlegal : memAccessLegal s width addr = true) (hlen : bs.length = width) (hbs : Holds s.mem addr bs) :
    hostMemRead width addr s = { s with response := .data (littleEndianValue bs) } := by
  rw [hostMemRead, if_pos hlegal, Memory.readRange_eq_some.2 ⟨hlen, hbs⟩, busy_eq_false.2 hp,
    noteBusyAccess_of_idle hp]
  rfl

/-- An allowed read with an undefined byte and an empty slot records the model fault and answers no value (R57). -/
theorem hostMemRead_of_undefinedIn {s : State} {width addr : Nat} (hp : s.pending = none)
    (hlegal : memAccessLegal s width addr = true) (hundef : UndefinedIn s.mem addr width) :
    hostMemRead width addr s
      = { s with modelFaults := (recordModelFault .undefinedRead s).modelFaults, response := .noValue } := by
  rw [hostMemRead, if_pos hlegal, Memory.readRange_eq_none.2 hundef, noteBusyAccess_of_idle hp]
  rfl

/-- The step of an allowed write to `M` with an empty slot (R52, R60). -/
theorem step_memWrite_of_idle {s : State} {width addr : Nat} {v : Word} {rest : List HostEvent} (hp : s.pending = none)
    (hhost : s.host = .memWrite width addr v :: rest) (hlegal : memAccessLegal s width addr = true) :
    step s = .next { s with
      mem := s.mem.writeRange addr (littleEndianBytes v width)
      host := rest
      response := .written } := by
  rw [step_of_hostDue (hostDue_of_idle hp hhost), hostStep, hhost]
  simp only [advanceHost_of_idle hp]
  exact congrArg _ (hostMemWrite_of_idle (s := { s with host := rest }) hp hlegal)

/-- With an empty slot, the step of a read of `M` is that read (R60). -/
theorem step_memRead_of_idle {s : State} {width addr : Nat} {rest : List HostEvent} (hp : s.pending = none)
    (hhost : s.host = .memRead width addr :: rest) :
    step s = .next (hostMemRead width addr { s with host := rest }) := by
  rw [step_of_hostDue (hostDue_of_idle hp hhost), hostStep, hhost]
  simp only [advanceHost_of_idle hp]

/-- The step of an allowed read of defined bytes with an empty slot (R52, R59, R60). -/
theorem step_memRead_of_holds {s : State} {width addr : Nat} {bs : Bytes} {rest : List HostEvent} (hp : s.pending = none)
    (hhost : s.host = .memRead width addr :: rest) (hlegal : memAccessLegal s width addr = true)
    (hlen : bs.length = width) (hbs : Holds s.mem addr bs) :
    step s = .next { s with host := rest, response := .data (littleEndianValue bs) } := by
  rw [step_memRead_of_idle hp hhost]
  exact congrArg _ (hostMemRead_of_holds (s := { s with host := rest }) hp hlegal hlen hbs)

/-- Settles O16: what is stored is `littleEndianBytes`, which is the low bytes written out. -/
theorem hostWriteStoresLittleEndian : Obligations.HostWriteStoresLittleEndian := by
  intro s width addr v rest hp hhost hallowed
  have hlegal := (memAccessLegal_iff_write s width addr v).2 hallowed
  rw [← littleEndianBytes_eq_take (width_le_of_memAccessLegal hlegal)]
  exact ⟨_, step_memWrite_of_idle hp hhost hlegal, Memory.storedAt_writeRange ..⟩

/-- Settles O17: what is answered is `littleEndianValue`, whose bytes are the bytes read. -/
theorem hostReadReturnsLittleEndian : Obligations.HostReadReturnsLittleEndian := by
  intro s width addr bs rest hp hhost hallowed hlen hbs
  have hlegal := (memAccessLegal_iff_read s width addr).2 hallowed
  exact ⟨_, step_memRead_of_holds hp hhost hlegal hlen hbs,
    extractLsb'_littleEndianValue bs (hlen ▸ width_le_of_memAccessLegal hlegal)⟩

/-- Settles O20: the record takes the model fault and forgets none. -/
theorem hostReadOfUndefinedByteIsRecorded : Obligations.HostReadOfUndefinedByteIsRecorded := by
  intro s width addr rest hp hhost hallowed hundef
  have hlegal := (memAccessLegal_iff_read s width addr).2 hallowed
  have hread := hostMemRead_of_undefinedIn (s := { s with host := rest }) hp hlegal hundef
  rw [step_memRead_of_idle hp hhost, hread]
  exact ⟨_, mem_recordModelFault .undefinedRead s, fun _ hf => mem_recordModelFault_of_mem hf, rfl⟩

/-! ### A byte of a stored word -/

/-- A memory that holds a sequence holds each byte of it at the byte's own address. -/
theorem Holds.singleton {m : Memory} {a k : Nat} {bs : Bytes} (h : Holds m a bs) (hk : k < bs.length) :
    Holds m (a + k) [bs[k]] := by
  intro j hj
  obtain rfl : j = 0 := by simpa using hj
  exact h k hk

/-- Byte `k` of the four bytes of a word is bits `8k+7:8k` of it (R52). -/
theorem getElem_littleEndianBytes (v : Word) {k : Nat} (hk : k < (littleEndianBytes v 4).length) :
    (littleEndianBytes v 4)[k] = v.extractLsb' (8 * k) 8 := by
  have hk4 : k < 4 := length_littleEndianBytes v 4 ▸ hk
  simp only [littleEndianBytes_eq_take le_rfl]
  interval_cases k <;> rfl

/-- One byte read as a value is that byte, zero-extended (R52). -/
theorem littleEndianValue_singleton (b : Byte) : littleEndianValue [b] = b.setWidth 32 := by
  simp [littleEndianValue]

/-- Every byte of a word below `MEM_SIZE` may be read on its own (R52). -/
theorem memAccessLegal_byte {s : State} {addr k : Nat} (hk : k < 4) (hend : addr + 4 ≤ s.params.memSize) :
    memAccessLegal s 1 (addr + k) = true := by
  simp only [memAccessLegal, Nat.mod_one, Bool.and_eq_true, decide_eq_true_eq]
  exact ⟨⟨rfl, trivial⟩, by omega⟩

/-- Settles O18: the write leaves byte `k` of the word at `addr + k`, which the read then answers. -/
theorem byteReadSeesWordWrite : Obligations.ByteReadSeesWordWrite := by
  intro s addr v k hk hp halign hend hhost
  have hlegal : memAccessLegal s 4 addr = true := by simp [memAccessLegal, halign, hend]
  obtain ⟨hstored, -⟩ := Memory.storedAt_writeRange s.mem addr (littleEndianBytes v 4)
  have hbyte := hstored.singleton (length_littleEndianBytes v 4 ▸ hk)
  rw [getElem_littleEndianBytes] at hbyte
  have hread := step_memRead_of_holds (s := { s with
    mem := s.mem.writeRange addr (littleEndianBytes v 4), host := [.memRead 1 (addr + k)], response := .written })
    hp rfl (memAccessLegal_byte hk hend) rfl hbyte
  exact ⟨_, (core_run_succ 1 (step_memWrite_of_idle hp hhost hlegal)).trans (core_run_succ 0 hread),
    congrArg Response.data (littleEndianValue_singleton _)⟩

end Sys2Proof.Machine

/-! ## Encoding: the decoder against the encoder, the opcode map, illegal words -/

namespace Sys2Proof

/-! ### The decoder and the encoder -/

/-- Every instruction is well formed: its opcode is in the map, and only a span command has a delimiter (R74,
R75). -/
theorem Instr.wellFormed_eq_true (i : Instr) : i.wellFormed = true := by cases i <;> rfl

/-- The decoder reads an instruction from exactly the word the encoder writes for it (R70, R74). -/
theorem decode_eq_ok_iff {w : Word} {i : Instr} : decode w = .ok i ↔ encode i = w := by
  rw [decode, decodeFields_eq_ok, encode]
  constructor
  · intro h
    rw [h, wordOfFields_cmdFields]
  · rintro rfl
    rw [cmdFields_wordOfFields]

/-- Settles O1: decoding is matching against the encoder's word, and every instruction is well formed. -/
theorem decodeInvertsEncode : Obligations.DecodeInvertsEncode := by
  intro w i
  rw [decode_eq_ok_iff, iff_and_self]
  exact fun _ => i.wellFormed_eq_true

/-! ### The opcode map as match and mask -/

/-- The words with opcode `o`, delimiter `d` and no reserved bit are those that match under the mask `0xFFFF00FF` and hold
`d` in bits 15:8 (R72, R74). -/
theorem wordOfFields_eq_iff_delimMask {o d : Byte} {w : Word} :
    wordOfFields ⟨o, d, 0⟩ = w ↔ w &&& 0xFFFF00FF = wordOfFields ⟨o, 0, 0⟩ ∧ w.extractLsb' 8 8 = d := by
  constructor
  · rintro rfl
    exact ⟨wordOfFields_and_delimMask o d 0, congrArg CmdFields.delim (cmdFields_wordOfFields ⟨o, d, 0⟩)⟩
  · rintro ⟨hmatch, rfl⟩
    have hw : wordOfFields ⟨(cmdFields w).op, (cmdFields w).delim, (cmdFields w).rsvd⟩ = w := wordOfFields_cmdFields w
    rw [← hw, wordOfFields_and_delimMask] at hmatch
    obtain ⟨hop, -, hrsvd⟩ := CmdFields.mk.inj (wordOfFields_injective hmatch)
    rw [← hop, ← hrsvd]
    exact hw

/-- A command without a delimiter is decoded from its one word (mask `0xFFFFFFFF`, R74). -/
theorem decode_eq_ok_iff_eq_encode {w : Word} {i : Instr} : decode w = .ok i ↔ w = encode i :=
  decode_eq_ok_iff.trans eq_comm

/-- Settles O2: the first nine rows are the encoder's words, the two span rows the words under the delimiter mask. -/
theorem opcodeMapMatchesByMask : Obligations.OpcodeMapMatchesByMask := fun _ =>
  ⟨decode_eq_ok_iff_eq_encode, decode_eq_ok_iff_eq_encode, decode_eq_ok_iff_eq_encode, decode_eq_ok_iff_eq_encode,
    decode_eq_ok_iff_eq_encode, decode_eq_ok_iff_eq_encode, decode_eq_ok_iff_eq_encode, decode_eq_ok_iff_eq_encode,
    decode_eq_ok_iff_eq_encode, fun _ => decode_eq_ok_iff.trans wordOfFields_eq_iff_delimMask,
    fun _ => decode_eq_ok_iff.trans wordOfFields_eq_iff_delimMask⟩

/-! ### Illegal words -/

/-- The legal fields are those an instruction is written with (R74, R75). -/
theorem CmdFields.legal_iff_exists {f : CmdFields} : f.legal = true ↔ ∃ i : Instr, i.fields = f := by
  constructor
  · obtain ⟨op, delim, rsvd⟩ := f
    simp only [CmdFields.legal, opKnown, opcodeMap, rsvdZero, delimAllowed, Bool.and_eq_true, Bool.or_eq_true,
      List.contains_iff_mem, List.mem_cons, List.not_mem_nil, or_false, beq_iff_eq]
    rintro ⟨⟨hop, rfl⟩, hdelim⟩
    by_cases hspan : op = 0x24 ∨ op = 0x25
    · rcases hspan with rfl | rfl
      · exact ⟨.rbHasspan delim, rfl⟩
      · exact ⟨.rbDeqspan delim, rfl⟩
    · obtain rfl : delim = 0 := hdelim.resolve_left hspan
      rcases hop with rfl | rfl | rfl | rfl | rfl | rfl | rfl | rfl | rfl | hop
      exacts [⟨.enc, rfl⟩, ⟨.dec, rfl⟩, ⟨.encpkt, rfl⟩, ⟨.decpkt, rfl⟩, ⟨.crc16, rfl⟩, ⟨.rbInit, rfl⟩, ⟨.rbEmpty, rfl⟩,
        ⟨.rbAdd, rfl⟩, ⟨.rbDeq, rfl⟩, absurd hop hspan]
  · rintro ⟨i, rfl⟩
    exact i.wellFormed_eq_true

/-- The decoder refuses exactly the words whose fields are not legal (R75). -/
theorem exists_decode_eq_error_iff {w : Word} : (∃ e, decode w = .error e) ↔ ¬(cmdFields w).legal = true := by
  rw [CmdFields.legal_iff_exists]
  simp only [← decodeFields_eq_ok]
  rw [decode]
  cases decodeFields (cmdFields w) <;> simp

/-- What makes fields illegal: the three grounds of R75. -/
theorem CmdFields.not_legal_iff {f : CmdFields} :
    ¬f.legal = true ↔ f.op ∉ opcodeMap ∨ f.rsvd ≠ 0 ∨ (f.op ≠ 0x24 ∧ f.op ≠ 0x25 ∧ f.delim ≠ 0) := by
  simp only [CmdFields.legal, opKnown, rsvdZero, delimAllowed, Bool.and_eq_true, Bool.or_eq_true, List.contains_iff_mem,
    beq_iff_eq]
  tauto

end Sys2Proof

namespace Sys2Proof.Machine

/-- The engine's step for a word that does not decode is the fault completion `ILLEGAL_CMD` (R75, R173). -/
theorem engineStep_of_decode_error {p : Pending} {e : DecodeError} (h : decode p.word = .error e) (s : State) :
    engineStep p s = .next (s.afterFault .illegalCmd) := by
  rw [engineStep, h, ← raiseFault_eq_afterFault]

/-- Settles O3: the grounds are those of `CmdFields.not_legal_iff`, the acceptance is that of any word, and the engine's
step raises `ILLEGAL_CMD`. -/
theorem illegalWordsFaultAndChangeNothingElse : Obligations.IllegalWordsFaultAndChangeNothingElse := by
  refine ⟨fun w => ?_, fun s w rest _ _ hp hhost => ?_, fun s p e hdue hdecode => ?_⟩
  · exact exists_decode_eq_error_iff.trans CmdFields.not_legal_iff
  · exact cmdWriteWhileIdleIsAccepted s w rest hp hhost
  · rw [step_of_engineDue hdue, engineStep_of_decode_error hdecode]
    rfl

/-- Settles O4: each word is evaluated. -/
theorem sampleWordsDecode : Obligations.SampleWordsDecode := ⟨rfl, rfl, rfl, rfl, rfl, rfl, rfl, rfl, rfl⟩

/-! ## The line `wait`: a command's effect does not depend on its latency draw -/

/-- `s` at another moment of a pending command's wait: `n` host accesses are still to come, and `r` is on the bus. -/
def State.retime (n : Nat) (r : Response) (s : State) : State :=
  { s with pending := s.pending.map fun p => { p with wait := n }, response := r }

/-- At any moment of its wait the pending command is the same but for the count (R30). -/
theorem State.retime_of_pending {s : State} {p : Pending} (h : s.pending = some p) (n : Nat) (r : Response) :
    s.retime n r = { s with pending := some { p with wait := n }, response := r } := by
  rw [State.retime, h, Option.map_some]

/-- With an empty slot only the answer on the bus is another. -/
theorem State.retime_of_idle {s : State} (h : s.pending = none) (n : Nat) (r : Response) :
    s.retime n r = { s with response := r } := by
  rw [State.retime, h, Option.map_none, ← h]

@[simp] theorem State.retime_retime (m n : Nat) (q r : Response) (s : State) :
    (s.retime m q).retime n r = s.retime n r := by
  simp [State.retime, Function.comp_def]

/-! ### Every operation of a command's meaning commutes with `retime` -/

/-- The captured operands do not change while a command waits (R30). -/
@[simp] theorem operands_retime (n : Nat) (r : Response) (s : State) : (s.retime n r).operands = s.operands := by
  cases h : s.pending <;> simp [State.operands, State.retime, h]

section
variable {n : Nat} {r : Response} {s : State} {k k' : Bytes → State}

@[simp] theorem params_retime : (s.retime n r).params = s.params := rfl
@[simp] theorem mem_retime : (s.retime n r).mem = s.mem := rfl
@[simp] theorem init_retime : (s.retime n r).init = s.init := rfl
@[simp] theorem count_retime : (s.retime n r).count = s.count := rfl
@[simp] theorem free_retime : (s.retime n r).free = s.free := rfl

@[simp] theorem finish_retime (c : OutcomeCode) (r0 r1 : Word) (d : Dstat) :
    finish c r0 r1 d (s.retime n r) = (finish c r0 r1 d s).retime n r := rfl

@[simp] theorem raiseFault_retime (c : FaultCode) : raiseFault c (s.retime n r) = (raiseFault c s).retime n r := rfl

@[simp] theorem undefinedRead_retime : undefinedRead (s.retime n r) = (undefinedRead s).retime n r := rfl

@[simp] theorem rangeValid_retime (a l : Word) : rangeValid (s.retime n r) a l = rangeValid s a l := rfl

/-- A command that reads a source commutes with `retime` when what it goes on with does. -/
theorem readSource_retime (hk : ∀ src, k' src = (k src).retime n r) :
    readSource (s.retime n r) k' = (readSource s k).retime n r := by
  simp only [readSource, operands_retime, mem_retime]
  split
  · exact hk _
  · rfl

theorem withSource_retime (hk : ∀ src, k' src = (k src).retime n r) :
    withSource (s.retime n r) k' = (withSource s k).retime n r := by
  simp only [withSource, operands_retime, rangeValid_retime, raiseFault_retime, readSource_retime hk,
    apply_ite (State.retime n r)]

theorem withSourceAndDest_retime (hk : ∀ src, k' src = (k src).retime n r) :
    withSourceAndDest (s.retime n r) k' = (withSourceAndDest s k).retime n r := by
  simp only [withSourceAndDest, operands_retime, rangeValid_retime, raiseFault_retime, readSource_retime hk,
    apply_ite (State.retime n r)]

/-- Delivery commutes with `retime`: it uses the captured operands and memory only (R103 to R107). -/
@[simp] theorem deliver_retime (out : Bytes) (c : OutcomeCode) (r1 : Word) (d : Dstat) :
    deliver out c r1 d (s.retime n r) = (deliver out c r1 d s).retime n r := by
  simp only [deliver, operands_retime, finish_retime, apply_ite (State.retime n r)]
  rfl

/-- The ring gate commutes with `retime` when what is behind it does (R133). -/
theorem withRing_retime {t t' : State} (ht : t' = t.retime n r) :
    withRing (s.retime n r) t' = (withRing s t).retime n r := by
  simp only [withRing, init_retime, raiseFault_retime, ht, apply_ite (State.retime n r)]

@[simp] theorem ringBytes_retime (j l : Nat) : ringBytes (s.retime n r) j l = ringBytes s j l := by
  induction l generalizing j with
  | zero => rfl
  | succ l ih => simp only [ringBytes, ih]; rfl

@[simp] theorem heldBytes_retime : heldBytes (s.retime n r) = heldBytes s := ringBytes_retime 0 s.count

@[simp] theorem ringPushAll_retime (bs : Bytes) :
    ringPushAll bs (s.retime n r) = (ringPushAll bs s).retime n r := by
  induction bs generalizing s with
  | nil => rfl
  | cons b bs ih => exact ih (s := ringPush b s)

@[simp] theorem ringPopN_retime (m : Nat) : ringPopN m (s.retime n r) = (ringPopN m s).retime n r := by
  induction m generalizing s with
  | zero => rfl
  | succ m ih => exact ih (s := ringPop s)

/-- Appending bytes commutes with `retime` (R137). -/
@[simp] theorem appendBytes_retime (bs : Bytes) :
    appendBytes bs (s.retime n r) = (appendBytes bs s).retime n r := by
  simp only [appendBytes, operands_retime, ringPushAll_retime, count_retime, finish_retime]

/-- Removing bytes commutes with `retime` (R138, R140). -/
@[simp] theorem extractBytes_retime (m : Nat) (bs : Bytes) (dst r0 r1 : Word) :
    extractBytes m bs dst r0 r1 (s.retime n r) = (extractBytes m bs dst r0 r1 s).retime n r := by
  simp only [extractBytes, ringPopN_retime]
  rfl

end

/-- A command's effect depends neither on the accesses left to wait for nor on what the bus answered last (R210, R212). -/
theorem exec_retime {i : Instr} {s u : State} (h : exec i s = .next u) (n : Nat) (r : Response) :
    exec i (s.retime n r) = .next (u.retime n r) := by
  cases i with
  | enc => cases h; exact congrArg Host.Outcome.next (withSourceAndDest_retime fun _ => deliver_retime ..)
  | dec => cases h; exact congrArg Host.Outcome.next (withSourceAndDest_retime fun _ => deliver_retime ..)
  | encpkt => cases h; exact congrArg Host.Outcome.next (withSourceAndDest_retime fun _ => deliver_retime ..)
  | decpkt =>
    cases h
    refine congrArg Host.Outcome.next (withSourceAndDest_retime fun _ => ?_)
    simp only [deliver_retime, finish_retime, apply_ite (State.retime n r)]
  | crc16 => cases h; exact congrArg Host.Outcome.next (withSource_retime fun _ => finish_retime ..)
  | rbInit =>
    cases h
    simp only [exec, execRbInit, operands_retime, params_retime, raiseFault_retime, apply_ite (State.retime n r)]
    rfl
  | rbEmpty => cases h; exact congrArg Host.Outcome.next (withRing_retime rfl)
  | rbAdd =>
    cases h
    refine congrArg Host.Outcome.next (withRing_retime ?_)
    simp only [operands_retime, rangeValid_retime, free_retime, raiseFault_retime, apply_ite (State.retime n r),
      readSource_retime fun bs => appendBytes_retime bs]
  | rbDeq =>
    cases h
    refine congrArg Host.Outcome.next (withRing_retime ?_)
    simp only [operands_retime, rangeValid_retime, count_retime, ringBytes_retime]
    split
    · split
      · simp only [ringPopN_retime, count_retime, extractBytes_retime]
      · rfl
    · rfl
  | rbHasspan d =>
    cases h
    refine congrArg Host.Outcome.next (withRing_retime ?_)
    simp only [heldBytes_retime]
    split
    · split <;> rfl
    · rfl
  | rbDeqspan d =>
    cases h
    refine congrArg Host.Outcome.next (withRing_retime ?_)
    simp only [operands_retime, rangeValid_retime, heldBytes_retime]
    split
    · split
      · split
        · simp only [extractBytes_retime, finish_retime, apply_ite (State.retime n r)]
        · rfl
      · rfl
    · rfl

/-! ### The engine's step while the host waits -/

/-- A command empties the slot and leaves the host where it is (R30, R58). -/
theorem exec_pending_host {i : Instr} {s u : State} (h : exec i s = .next u) : u.pending = none ∧ u.host = s.host := by
  cases exec_ends h with
  | fault => exact ⟨rfl, rfl⟩
  | undefined => exact ⟨rfl, rfl⟩
  | finished c r0 r1 d t _ _ hu =>
    cases hu
    exact ⟨rfl, rfl⟩

/-- The engine's step, of a legal word or an illegal one, empties the slot and leaves the host where it is. -/
theorem engineStep_pending_host {p : Pending} {s u : State} (h : engineStep p s = .next u) :
    u.pending = none ∧ u.host = s.host := by
  rw [engineStep] at h
  split at h
  · exact exec_pending_host h
  · cases h
    exact ⟨rfl, rfl⟩

/-- The engine's step gives the same result at every moment of the wait (R210, R212). -/
theorem engineStep_retime {p : Pending} {s u : State} (h : engineStep p s = .next u) (n : Nat) (r : Response) :
    engineStep { p with wait := n } (s.retime n r) = .next (u.retime n r) := by
  unfold engineStep at h ⊢
  dsimp only
  split at h
  · exact exec_retime h n r
  · cases h
    rfl

/-! ### The host at a `wait` -/

/-- With an empty slot, `wait` answers `STATUS` and the host moves past it (R79). -/
theorem step_wait_of_idle {s : State} {rest : List HostEvent} (hp : s.pending = none) (hhost : s.host = .wait :: rest) :
    step s = .next { s with host := rest, response := .data (statusWord s) } := by
  rw [step_of_hostDue (hostDue_of_idle hp hhost), hostStep, hhost]
  simp only [hostWait, busy_eq_false.2 hp, advanceHost_of_idle hp]
  rfl

/-- With a command pending whose draw has not run out, `wait` answers `STATUS`, counts one access and stays (R79, R210). -/
theorem step_wait_of_pending {s : State} {p : Pending} {rest : List HostEvent} (hp : s.pending = some p)
    (hhost : s.host = .wait :: rest) (hwait : p.wait ≠ 0) :
    step s = .next (s.retime (p.wait - 1) (.data (statusWord s))) := by
  have hdue : HostDue s .wait rest := ⟨hhost, by rintro q hq; cases hp.symm.trans hq; exact hwait⟩
  rw [step_of_hostDue hdue, hostStep, hhost, State.retime_of_pending hp]
  simp only [hostWait, busy_eq_true.2 ⟨p, hp⟩, stayAtWait, advanceHost_of_pending hp]
  rfl

/-- A host at a `wait` reaches the engine's step after as many steps as the draw, with nothing changed but the count of
accesses and the answer on the bus. -/
theorem core_run_wait {s : State} {p : Pending} {rest : List HostEvent} (hp : s.pending = some p)
    (hhost : s.host = .wait :: rest) (m : Nat) :
    ∃ r, Sys2Proof.core.run (m + p.wait) s = Sys2Proof.core.run m (s.retime 0 r) := by
  obtain ⟨w, args, wait⟩ := p
  induction wait generalizing s with
  | zero => exact ⟨s.response, by rw [State.retime_of_pending hp, ← hp]; rfl⟩
  | succ n ih =>
    have hstep := step_wait_of_pending hp hhost n.succ_ne_zero
    obtain ⟨r, hr⟩ := ih (s := s.retime n (.data (statusWord s))) hhost (by rw [State.retime_of_pending hp])
    rw [State.retime_retime] at hr
    exact ⟨r, (core_run_succ (m + n) hstep).trans hr⟩

/-- After its draw, the engine's step and one more read of `STATUS`, a pending command has had its whole effect and the
host is past the `wait`. -/
theorem core_run_wait_completes {s u : State} {p : Pending} {rest : List HostEvent} (hp : s.pending = some p)
    (hhost : s.host = .wait :: rest) (hu : engineStep p s = .next u) :
    Sys2Proof.core.run (p.wait + 2) s = .next { u with host := rest, response := .data (statusWord u) } := by
  obtain ⟨r, hr⟩ := core_run_wait hp hhost 2
  obtain ⟨hidle, hstay⟩ := engineStep_pending_host hu
  have hdue : EngineDue (s.retime 0 r) { p with wait := 0 } := ⟨by rw [State.retime_of_pending hp], .inl rfl⟩
  have hengine : step (s.retime 0 r) = .next { u with response := r } := by
    rw [step_of_engineDue hdue, engineStep_retime hu, State.retime_of_idle hidle]
  have hread := step_wait_of_idle (s := { u with response := r }) hidle (hstay.trans hhost)
  rw [Nat.add_comm, hr, core_run_succ 1 hengine, core_run_succ 0 hread]
  rfl

/-- Settles O60: an idle `wait`, one counted access, and the run to the end of the command, which ends the same for a legal
and an illegal word. -/
theorem waitYieldsTheResultWhateverTheLatency : Obligations.WaitYieldsTheResultWhateverTheLatency := by
  refine fun s rest hhost => ⟨fun hp => step_wait_of_idle hp hhost, fun p hp => ⟨fun hwait => ?_, fun i u hdecode hu => ?_,
    fun e hdecode => ?_⟩⟩
  · rw [step_wait_of_pending hp hhost hwait, State.retime_of_pending hp]
  · exact core_run_wait_completes hp hhost ((engineStep_of_decode hdecode s).trans hu)
  · exact core_run_wait_completes hp hhost (engineStep_of_decode_error hdecode s)

end Sys2Proof.Machine

/-! ## The codec's transforms: the stuffed form, the round trips, the acceptance of a frame -/

namespace Sys2Proof.Machine

/-! ### The encoder block by block -/

/-- `EncodeRaw` of a final block (R100). -/
theorem encodeRaw_last {blk : Bytes} (h : 0x00 ∉ blk) (hl : blk.length ≤ 253) : encodeRaw blk = stuffedBlock blk := by
  have := encodeBlocks_literals (blk := []) h (by simpa using hl) []
  rwa [List.append_nil, List.nil_append, encodeBlocks] at this

/-- `EncodeRaw` of a block ended by a delimiter (R100). -/
theorem encodeRaw_delim {blk : Bytes} (h : 0x00 ∉ blk) (hl : blk.length ≤ 253) (p : Bytes) :
    encodeRaw (blk ++ 0x00 :: p) = stuffedBlock blk ++ encodeRaw p := by
  rw [encodeRaw, encodeBlocks_literals h (by simpa using hl), List.nil_append]
  exact encodeBlocks_delim blk p

/-- `EncodeRaw` of a full block, whatever comes after it (R100). -/
theorem encodeRaw_full {blk : Bytes} {b : Byte} (h : 0x00 ∉ blk) (hl : blk.length = 253) (hb : b ≠ 0x00) (p : Bytes) :
    encodeRaw (blk ++ b :: p) = fullBlock (blk ++ [b]) ++ encodeRaw p := by
  rw [encodeRaw, encodeBlocks_literals h (by simp [hl]), List.nil_append, encodeBlocks_fill hb hl]
  rfl

/-- Settles O28: the last byte of a full block is the one that fills it. -/
theorem encodeRawFollowsItsBlocks : Obligations.EncodeRawFollowsItsBlocks := by
  refine ⟨fun blk h hl => encodeRaw_last h hl, fun blk p h hl => encodeRaw_delim h hl p, fun blk p h hl => ?_⟩
  obtain ⟨lits, b, rfl⟩ := List.eq_nil_or_concat' blk |>.resolve_left (by rintro rfl; simp at hl)
  simp only [List.mem_append, List.mem_singleton, not_or, List.length_append, List.length_singleton] at h hl
  rw [List.append_assoc, List.singleton_append, encodeRaw_full h.1 (by omega) (Ne.symm h.2)]
  rfl

/-- Induction on a payload along the blocks of `EncodeRaw` (R100): it is a final block, or a block ended by a delimiter
or a full block with a payload after it. The proof follows the encoder's loop, with `blk` the open block. -/
theorem payload_induction {motive : Bytes → Prop}
    (last : ∀ blk : Bytes, 0x00 ∉ blk → blk.length ≤ 253 → motive blk)
    (delim : ∀ blk p : Bytes, 0x00 ∉ blk → blk.length ≤ 253 → motive p → motive (blk ++ 0x00 :: p))
    (full : ∀ (blk : Bytes) (b : Byte) (p : Bytes), 0x00 ∉ blk → blk.length = 253 → b ≠ 0x00 → motive p →
      motive (blk ++ b :: p)) (p : Bytes) : motive p := by
  suffices hopen : ∀ blk : Bytes, 0x00 ∉ blk → blk.length ≤ 253 → motive (blk ++ p) from hopen [] (by simp) (by simp)
  induction p with
  | nil =>
    intro blk h hl
    simpa using last blk h hl
  | cons b p ih =>
    intro blk h hl
    have hp : motive p := ih [] (by simp) (by simp)
    by_cases hb : b = 0x00
    · exact hb ▸ delim blk p h hl hp
    · by_cases hfull : blk.length = 253
      · exact full blk b p h hfull hb hp
      · have hnext : 0x00 ∉ blk ++ [b] := by
          rw [List.mem_append, List.mem_singleton, not_or]
          exact ⟨h, Ne.symm hb⟩
        have := ih (blk ++ [b]) hnext (by rw [List.length_append, List.length_singleton]; omega)
        rwa [List.append_assoc, List.singleton_append] at this

/-- The count byte of a block that is not full, as a number: it is never `0x00` or `0xFF` (R100). -/
theorem toNat_countByte {n : Nat} (h : n ≤ 253) : (BitVec.ofNat 8 (n + 1)).toNat = n + 1 := by
  rw [BitVec.toNat_ofNat, Nat.mod_eq_of_lt (by omega)]

theorem countByte_ne_zero {n : Nat} (h : n ≤ 253) : BitVec.ofNat 8 (n + 1) ≠ 0x00 := by
  intro h0
  have := congrArg BitVec.toNat h0
  rw [toNat_countByte h] at this
  simp at this

theorem countByte_ne_sentinel {n : Nat} (h : n ≤ 253) : BitVec.ofNat 8 (n + 1) ≠ 0xFF := by
  intro hff
  have := congrArg BitVec.toNat hff
  rw [toNat_countByte h] at this
  simp at this
  omega

/-- A block that is not full holds no delimiter when its literals do not (R102 (a)). -/
theorem delim_notMem_stuffedBlock {blk : Bytes} (h : 0x00 ∉ blk) (hl : blk.length ≤ 253) : 0x00 ∉ stuffedBlock blk := by
  rw [stuffedBlock, List.mem_cons, not_or]
  exact ⟨(countByte_ne_zero hl).symm, h⟩

/-- Settles O30: no count byte is `0x00`, and no literal byte is. -/
theorem encodedStreamHasNoDelimiter : Obligations.EncodedStreamHasNoDelimiter := by
  intro p
  induction p using payload_induction with
  | last blk h hl => exact encodeRaw_last h hl ▸ delim_notMem_stuffedBlock h hl
  | delim blk p h hl ih =>
    rw [encodeRaw_delim h hl, List.mem_append, not_or]
    exact ⟨delim_notMem_stuffedBlock h hl, ih⟩
  | full blk b p h hl hb ih =>
    simp only [encodeRaw_full h hl hb, fullBlock, List.mem_append, List.mem_cons, List.not_mem_nil, or_false, not_or]
    exact ⟨⟨by decide, h, Ne.symm hb⟩, ih⟩

/-- Counting full blocks goes past literal bytes that do not fill the open block (R102 (b)). -/
theorem fullBlocksFrom_literals {n : Nat} {lits : Bytes} (h : 0x00 ∉ lits) (hl : n + lits.length ≤ 253) (p : Bytes) :
    fullBlocksFrom n (lits ++ p) = fullBlocksFrom (n + lits.length) p := by
  induction lits generalizing n with
  | nil => rfl
  | cons b lits ih =>
    simp only [List.mem_cons, not_or, List.length_cons] at h hl
    rw [List.cons_append, fullBlocksFrom, if_neg (Ne.symm h.1), if_neg (by omega), ih h.2 (by omega), List.length_cons]
    congr 1
    omega

/-- Settles O31: a delimiter makes way for a count byte, a full block gets one more, and the final block one. -/
theorem encodedLengthCountsFullBlocks : Obligations.EncodedLengthCountsFullBlocks := by
  intro p
  induction p using payload_induction with
  | last blk h hl =>
    have hcount := fullBlocksFrom_literals (n := 0) h (by omega) []
    rw [List.append_nil, fullBlocksFrom] at hcount
    rw [encodeRaw_last h hl, hcount, stuffedBlock, List.length_cons]
    omega
  | delim blk p h hl ih =>
    have hcount : fullBlocksFrom 0 (blk ++ 0x00 :: p) = fullBlocksFrom 0 p := by
      rw [fullBlocksFrom_literals h (by omega), fullBlocksFrom, if_pos rfl]
    rw [encodeRaw_delim h hl, hcount, stuffedBlock]
    simp only [List.length_append, List.length_cons]
    omega
  | full blk b p h hl hb ih =>
    have hcount : fullBlocksFrom 0 (blk ++ b :: p) = fullBlocksFrom 0 p + 1 := by
      rw [fullBlocksFrom_literals h (by omega), fullBlocksFrom, if_neg hb, if_pos (by omega)]
    rw [encodeRaw_full h hl hb, hcount, fullBlock]
    simp only [List.length_append, List.length_cons, List.length_nil]
    omega

/-! ### The decoder block by block -/

/-- `DecodeRaw` of a block that ends the input (R101). -/
theorem decodeRaw_lastBlock {c : Byte} {lits : Bytes} (hc : c ≠ 0x00) (hl : lits.length = c.toNat - 1) :
    decodeRaw (c :: lits) = ⟨lits, .ended, lits.length + 1, false⟩ := by
  rw [decodeRaw, List.length_cons, decodeBlocks_lastBlock hc hl, List.nil_append]
  congr 1
  omega

/-- `DecodeRaw` of a block with input after it (R101). -/
theorem decodeRaw_block {c b : Byte} {lits rest : Bytes} (hc : c ≠ 0x00) (hl : lits.length = c.toNat - 1) :
    decodeRaw (c :: lits ++ b :: rest)
      = { out := lits ++ (if c = 0xFF then [] else [0x00]) ++ (decodeRaw (b :: rest)).out
          outcome := (decodeRaw (b :: rest)).outcome
          stop := lits.length + 1 + (decodeRaw (b :: rest)).stop
          artifact := if b = 0x00 then !decide (c = 0xFF) else (decodeRaw (b :: rest)).artifact } := by
  rw [decodeRaw, List.cons_append, decodeBlocks_block hc hl,
    decodeBlocks_eq_decodeRaw (by simp only [List.length_append, List.length_cons]; omega)]
  simp only [RawDecode.mk.injEq, List.nil_append, true_and]
  exact ⟨rfl, by omega, rfl⟩

/-- Settles O29: the first turn of the decoder's loop, and the rest by `decodeRaw_block`. -/
theorem decodeRawFollowsItsBlocks : Obligations.DecodeRawFollowsItsBlocks := by
  refine ⟨rfl, fun rest => rfl, fun c tl hc hl => ?_, fun c lits hc hl => decodeRaw_lastBlock hc hl,
    fun c lits b rest hc hl => decodeRaw_block hc hl⟩
  have hc' : c ≠ codecDelim := hc
  rw [decodeRaw, decodeBlocks, if_neg hc', if_pos hl, List.nil_append]
  congr 1
  omega

/-! ### Round trips of the raw transforms -/

/-- A stuffed form begins with a count byte, which is not `0x00` (R100). -/
theorem encodeRaw_eq_cons (p : Bytes) : ∃ b rest, b ≠ 0x00 ∧ encodeRaw p = b :: rest := by
  have hlen := (encodedLengthCountsFullBlocks p).1
  have hzero := encodedStreamHasNoDelimiter p
  cases h : encodeRaw p with
  | nil => rw [h, List.length_nil] at hlen; omega
  | cons b rest => exact ⟨b, rest, fun hb => hzero (by simp [h, hb]), rfl⟩

/-- `DecodeRaw` of a block before a stuffed form goes on with what that decodes to, and with its artifact. -/
theorem decodeRaw_block_encodeRaw {c : Byte} {lits : Bytes} (hc : c ≠ 0x00) (hl : lits.length = c.toNat - 1)
    (p tail : Bytes) :
    decodeRaw (c :: lits ++ (encodeRaw p ++ tail))
      = { decodeRaw (encodeRaw p ++ tail) with
          out := lits ++ (if c = 0xFF then [] else [0x00]) ++ (decodeRaw (encodeRaw p ++ tail)).out
          stop := lits.length + 1 + (decodeRaw (encodeRaw p ++ tail)).stop } := by
  obtain ⟨b, rest, hb, h⟩ := encodeRaw_eq_cons p
  have htail : encodeRaw p ++ tail = b :: (rest ++ tail) := by rw [h, List.cons_append]
  rw [htail, decodeRaw_block hc hl, if_neg hb]

/-- `DecodeRaw` of a block that is not full, before a stuffed form: the literals and a delimiter come first. -/
theorem decodeRaw_stuffedBlock_encodeRaw {blk : Bytes} (hl : blk.length ≤ 253) (p tail : Bytes) :
    decodeRaw (stuffedBlock blk ++ (encodeRaw p ++ tail))
      = { decodeRaw (encodeRaw p ++ tail) with
          out := blk ++ 0x00 :: (decodeRaw (encodeRaw p ++ tail)).out
          stop := (stuffedBlock blk).length + (decodeRaw (encodeRaw p ++ tail)).stop } := by
  have hcount := toNat_countByte hl
  rw [stuffedBlock, decodeRaw_block_encodeRaw (countByte_ne_zero hl) (by omega), if_neg (countByte_ne_sentinel hl)]
  simp

/-- `DecodeRaw` of a full block before a stuffed form: the literals come first. -/
theorem decodeRaw_fullBlock_encodeRaw {blk : Bytes} (hl : blk.length = 254) (p tail : Bytes) :
    decodeRaw (fullBlock blk ++ (encodeRaw p ++ tail))
      = { decodeRaw (encodeRaw p ++ tail) with
          out := blk ++ (decodeRaw (encodeRaw p ++ tail)).out
          stop := (fullBlock blk).length + (decodeRaw (encodeRaw p ++ tail)).stop } := by
  rw [fullBlock, decodeRaw_block_encodeRaw (by decide) (by simp [hl])]
  simp

/-- If `DecodeRaw` undoes the final block of every payload, with `tail` after it, up to a suffix `extra` of the output,
then it undoes every payload: the blocks before the final one come back one by one (R102). -/
theorem decodeRaw_encodeRaw_append {tail extra : Bytes} {oc : DecodeOutcome} {a : Bool}
    (last : ∀ blk : Bytes, blk.length ≤ 253 →
      decodeRaw (stuffedBlock blk ++ tail) = ⟨blk ++ extra, oc, (stuffedBlock blk).length, a⟩) (p : Bytes) :
    decodeRaw (encodeRaw p ++ tail) = ⟨p ++ extra, oc, (encodeRaw p).length, a⟩ := by
  induction p using payload_induction with
  | last blk h hl => rw [encodeRaw_last h hl, last blk hl]
  | delim blk p h hl ih =>
    rw [encodeRaw_delim h hl, List.append_assoc, decodeRaw_stuffedBlock_encodeRaw hl, ih]
    simp
  | full blk b p h hl hb ih =>
    rw [encodeRaw_full h hl hb, List.append_assoc, decodeRaw_fullBlock_encodeRaw (by simp [hl]), ih]
    simp

/-- Settles O32: at the end of input the final block adds its literals only. -/
theorem rawRoundTrip : Obligations.RawRoundTrip := by
  intro p
  have := decodeRaw_encodeRaw_append (tail := []) (extra := []) (oc := .ended) (a := false) (fun blk hl => ?_) p
  · exact ⟨false, by simpa using this⟩
  · have hcount := toNat_countByte hl
    rw [List.append_nil, List.append_nil, stuffedBlock, decodeRaw_lastBlock (countByte_ne_zero hl) (by omega)]
    rfl

/-- With the closing delimiter after it, the stuffed form decodes to the payload and one re-inserted delimiter (R102
(d)). -/
theorem decodeRaw_encodeRaw_delim (p : Bytes) :
    decodeRaw (encodeRaw p ++ [0x00]) = ⟨p ++ [0x00], .zero, (encodeRaw p).length, true⟩ := by
  refine decodeRaw_encodeRaw_append (fun blk hl => ?_) p
  have hcount := toNat_countByte hl
  have hff := countByte_ne_sentinel hl
  have hzero : decodeRaw [0x00] = ⟨[], .zero, 0, false⟩ := rfl
  rw [stuffedBlock, decodeRaw_block (countByte_ne_zero hl) (by omega), hzero, if_pos rfl, if_neg hff,
    decide_eq_false hff]
  simp

/-- The last count byte of a block with bytes after it is the last one of those, or its own when there is none. -/
theorem getLast?_countBytes_block {fuel : Nat} {c : Byte} {lits rest : Bytes} (hl : lits.length = c.toNat - 1)
    (hfuel : (c :: lits ++ rest).length ≤ fuel) :
    ∃ f, rest.length ≤ f
      ∧ (countBytes fuel (c :: lits ++ rest)).getLast? = some ((countBytes f rest).getLast?.getD c) := by
  simp only [List.cons_append, List.length_cons, List.length_append] at hfuel
  obtain ⟨f, rfl⟩ : ∃ f, fuel = f + 1 := ⟨fuel - 1, by omega⟩
  exact ⟨f, by omega, by rw [List.cons_append, countBytes, ← hl, List.drop_left, List.getLast?_cons]⟩

/-- The last count byte of a stuffed form is neither `0x00` nor `0xFF` (R102 (e)). -/
theorem getLast?_countBytes_encodeRaw (p : Bytes) {fuel : Nat} (hfuel : (encodeRaw p).length ≤ fuel) :
    ∃ c, (countBytes fuel (encodeRaw p)).getLast? = some c ∧ c ≠ 0x00 ∧ c ≠ 0xFF := by
  induction p using payload_induction generalizing fuel with
  | last blk h hl =>
    have hcount := toNat_countByte hl
    rw [encodeRaw_last h hl, ← List.append_nil (stuffedBlock blk)] at hfuel ⊢
    obtain ⟨f, -, hlast⟩ := getLast?_countBytes_block (by omega) hfuel
    have hnil : countBytes f [] = [] := by cases f <;> rfl
    rw [hnil] at hlast
    exact ⟨_, hlast, countByte_ne_zero hl, countByte_ne_sentinel hl⟩
  | delim blk p h hl ih =>
    have hcount := toNat_countByte hl
    rw [encodeRaw_delim h hl] at hfuel ⊢
    obtain ⟨f, hf, hlast⟩ := getLast?_countBytes_block (by omega) hfuel
    obtain ⟨c, hc, hne⟩ := ih hf
    exact ⟨c, by rw [stuffedBlock, hlast, hc]; rfl, hne⟩
  | full blk b p h hl hb ih =>
    rw [encodeRaw_full h hl hb] at hfuel ⊢
    obtain ⟨f, hf, hlast⟩ := getLast?_countBytes_block (by simp [hl]) hfuel
    obtain ⟨c, hc, hne⟩ := ih hf
    exact ⟨c, by rw [fullBlock, hlast, hc]; rfl, hne⟩

/-- Settles O33, by the round trip up to the closing delimiter and the last count byte. -/
theorem roundTripWithClosingDelimiter : Obligations.RoundTripWithClosingDelimiter :=
  fun p => ⟨decodeRaw_encodeRaw_delim p, getLast?_countBytes_encodeRaw p le_rfl⟩

/-! ### The acceptance of a frame -/

/-- The decoder's loop flags an artifact only when the byte it made last is a re-inserted delimiter (R101). -/
theorem decodeBlocks_artifact (fuel : Nat) (rest : Bytes) (k : Nat) {out : Bytes} {a : Bool}
    (h : a = true → ∃ o, out = o ++ [codecDelim]) (hr : (decodeBlocks fuel rest k out a).artifact = true) :
    ∃ o, (decodeBlocks fuel rest k out a).out = o ++ [codecDelim] := by
  induction fuel generalizing rest k out a with
  | zero => exact h hr
  | succ fuel ih =>
    rcases rest with _ | ⟨c, tl⟩
    · exact h hr
    · rw [decodeBlocks] at hr ⊢
      split_ifs at hr ⊢
      · exact h hr
      · exact ih _ _ (fun _ => ⟨_, rfl⟩) hr
      · exact ih _ _ (by simp) hr

/-- `DecodeRaw` flags an artifact only when its last byte is a re-inserted delimiter (R101). -/
theorem decodeRaw_artifact {input : Bytes} (h : (decodeRaw input).artifact = true) :
    ∃ o, (decodeRaw input).out = o ++ [0x00] :=
  decodeBlocks_artifact _ input 0 nofun h

theorem packetStatus_dzero (n : Nat) (r : RawDecode) : (packetStatus n r).dzero = true ↔ r.outcome = .zero :=
  beq_iff_eq

theorem packetStatus_dtrunc (n : Nat) (r : RawDecode) : (packetStatus n r).dtrunc = true ↔ r.outcome = .trunc :=
  beq_iff_eq

/-- `DFRAME` (R106): the input was not truncated, and it did not stop on a zero at its last byte just after a
re-inserted delimiter. -/
theorem packetStatus_dframe (n : Nat) (r : RawDecode) :
    (packetStatus n r).dframe = true
      ↔ (packetStatus n r).dtrunc = false ∧ (r.outcome = .ended ∨ r.stop + 1 ≠ n ∨ r.artifact = false) := by
  simp [packetStatus, or_assoc]

/-- `DSHORT` (R106): a frame in form, whose packet would be shorter than a `FrameHeader`. -/
theorem packetStatus_dshort (n : Nat) (r : RawDecode) :
    (packetStatus n r).dshort = true
      ↔ (packetStatus n r).dtrunc = false ∧ (packetStatus n r).dframe = false ∧ r.out.length ≤ 2 := by
  change (!(packetStatus n r).dtrunc && !(packetStatus n r).dframe && decide (r.out.length < frameHeaderSize + 1))
    = true ↔ _
  simp [frameHeaderSize, and_assoc, Nat.lt_succ_iff]

/-- Acceptance by the status bits (R106). -/
theorem packetDecode_ok {input : Bytes} :
    (packetDecode input).ok = true
      ↔ (packetDecode input).dstat.dtrunc = false ∧ (packetDecode input).dstat.dframe = false
        ∧ (packetDecode input).dstat.dshort = false := by
  simp [packetDecode, and_assoc]

theorem packetDecode_dstat (input : Bytes) :
    (packetDecode input).dstat = packetStatus input.length (decodeRaw input) := rfl

theorem packetDecode_rawLength (input : Bytes) : (packetDecode input).rawLength = (decodeRaw input).out.length := rfl

/-- The packet of an accepted frame is all but the last byte (R106). -/
theorem packetDecode_pkt_of_ok {input : Bytes} (h : (packetDecode input).ok = true) :
    (packetDecode input).pkt = (decodeRaw input).out.dropLast :=
  if_pos h

/-- A rejected frame has no packet (R106). -/
theorem packetDecode_pkt_of_not_ok {input : Bytes} (h : (packetDecode input).ok = false) :
    (packetDecode input).pkt = [] :=
  if_neg (Bool.not_eq_true _ ▸ h)

/-- Acceptance by what `DecodeRaw` answers (R106): a stop on a zero at the last byte just after a re-inserted delimiter,
and two bytes besides that delimiter. -/
theorem packetDecode_ok_iff {input : Bytes} :
    (packetDecode input).ok = true
      ↔ (decodeRaw input).outcome = .zero ∧ (decodeRaw input).stop + 1 = input.length
        ∧ (decodeRaw input).artifact = true ∧ 3 ≤ (decodeRaw input).out.length := by
  simp only [packetDecode_ok, packetDecode_dstat, ← Bool.not_eq_true, packetStatus_dshort, packetStatus_dframe,
    packetStatus_dtrunc]
  cases (decodeRaw input).outcome with
  | zero => grind
  | ended | trunc => simp

/-- The status of an input that stops on a zero at its last byte just after a re-inserted delimiter (R106). -/
theorem packetStatus_of_artifact (pkt : Bytes) (stop : Nat) :
    packetStatus (stop + 1) ⟨pkt ++ [0x00], .zero, stop, true⟩ = ⟨true, false, false, decide (pkt.length < 2)⟩ := by
  have htrunc : (DecodeOutcome.zero == .trunc) = false := rfl
  have hended : (DecodeOutcome.zero == .ended) = false := rfl
  simp [packetStatus, frameHeaderSize, htrunc, hended, Nat.lt_succ_iff]

/-- The answer of `PacketDecode` to an input that stops so: all but the re-inserted delimiter, if that is two
bytes or more (R106). -/
theorem packetDecode_of_artifact {input pkt : Bytes} {stop : Nat} (hstop : stop + 1 = input.length)
    (hraw : decodeRaw input = ⟨pkt ++ [0x00], .zero, stop, true⟩) :
    packetDecode input
      = { ok := decide (2 ≤ pkt.length)
          pkt := if 2 ≤ pkt.length then pkt else []
          rawLength := pkt.length + 1
          dstat := ⟨true, false, false, decide (pkt.length < 2)⟩ } := by
  rw [packetDecode, hraw, ← hstop, packetStatus_of_artifact]
  simp [Nat.succ_le_iff, ← decide_not]

/-- Settles O34: the byte dropped from an accepted frame is the artifact; the status bits one by one. -/
theorem acceptedFramesLoseOnlyTheArtifact : Obligations.AcceptedFramesLoseOnlyTheArtifact := by
  refine ⟨fun input pkt => ⟨?_, ?_⟩, ?_⟩
  · rintro ⟨hok, rfl⟩
    obtain ⟨hzero, hstop, hart, hlen⟩ := packetDecode_ok_iff.1 hok
    obtain ⟨o, ho⟩ := decodeRaw_artifact hart
    have hpkt : (packetDecode input).pkt = o := by rw [packetDecode_pkt_of_ok hok, ho, List.dropLast_concat]
    rw [ho, List.length_append, List.length_singleton] at hlen
    rw [hpkt, ← ho, ← hzero, ← hart, ← hstop]
    exact ⟨by omega, rfl, by rintro rfl; simp at hstop⟩
  · rintro ⟨hlen, hraw, hne⟩
    rw [packetDecode_of_artifact (Nat.sub_add_cancel (List.length_pos_iff.2 hne)) hraw]
    exact ⟨decide_eq_true hlen, if_pos hlen⟩
  · intro input out pkt oc stop r art ok dzero dtrunc dframe dshort hraw hpkt
    obtain ⟨rfl, rfl, rfl, rfl⟩ := RawDecode.mk.inj hraw.symm
    obtain ⟨rfl, rfl, rfl, hstatus⟩ := PacketDecode.mk.inj hpkt.symm
    obtain ⟨rfl, rfl, rfl, rfl⟩ := Dstat.mk.inj hstatus
    exact ⟨packetStatus_dzero input.length _, packetStatus_dtrunc input.length _, packetStatus_dframe ..,
      packetStatus_dshort .., packetDecode_ok, packetDecode_rawLength input, packetDecode_pkt_of_ok,
      packetDecode_pkt_of_not_ok⟩

/-- Settles O35: the artifact of the closing delimiter is what `PacketDecode` drops. -/
theorem frameRoundTrip : Obligations.FrameRoundTrip := by
  intro p
  rw [packetDecode_of_artifact (by simp) (decodeRaw_encodeRaw_delim p)]
  refine ⟨fun hlen => ?_, fun hlen => ?_⟩
  · rw [decide_eq_true hlen, if_pos hlen, decide_eq_false (Nat.not_lt.2 hlen)]
  · rw [decide_eq_false (Nat.not_le.2 hlen), if_neg (Nat.not_le.2 hlen), decide_eq_true hlen]

end Sys2Proof.Machine

/-! ## The codec's commands: the four in every case, and the frame round trip through two of them -/

namespace Sys2Proof.Machine

/-! ### Ranges, the undefined source, and delivery, by the captured operands -/

/-- The cases the four codec commands share: a range that is not valid, an undefined source byte, and a defined source,
with whose bytes the command goes on (R54, R57, R175). -/
theorem codecCommand_cases {i : Instr} {s : State} {p : Pending} {k : Bytes → State} {defined : Prop}
    (hp : s.pending = some p) (hexec : exec i s = .next (withSourceAndDest s k))
    (hdefined : (∀ src : Bytes, src.length = p.args.a1.toNat → Holds s.mem p.args.a0.toNat src →
      exec i s = .next (k src)) → defined) :
    (s.params.memSize < p.args.a0.toNat + p.args.a1.toNat ∨ s.params.memSize < p.args.a2.toNat + p.args.a3.toNat →
      exec i s = .next (s.afterFault .badRange))
    ∧ (p.args.a0.toNat + p.args.a1.toNat ≤ s.params.memSize → p.args.a2.toNat + p.args.a3.toNat ≤ s.params.memSize →
      (UndefinedIn s.mem p.args.a0.toNat p.args.a1.toNat → ∃ t, exec i s = .next t ∧ RecordsUndefinedRead s t)
        ∧ defined) := by
  rw [← operands_of_pending hp] at hdefined ⊢
  refine ⟨fun hbad => ?_, fun hsrc hdst => ⟨fun hundef => ?_, hdefined fun src hlen hbytes => ?_⟩⟩
  · rw [hexec, withSourceAndDest_of_invalid k hbad, raiseFault_eq_afterFault]
  · rw [hexec, withSourceAndDest_of_valid k hsrc hdst, readSource_of_undefined k hundef]
    exact ⟨_, rfl, undefinedRead_records s⟩
  · rw [hexec, withSourceAndDest_of_valid k hsrc hdst, readSource_of_holds k hlen hbytes]

/-- Delivery of an output longer than the destination, field by field (R103 to R107, R172). -/
theorem deliver_eq_of_overflow {s : State} {p : Pending} (hp : s.pending = some p) {out : Bytes} (c : OutcomeCode)
    (r1 : Word) (d : Dstat) (h : p.args.a3.toNat < out.length) :
    deliver out c r1 d s = { s with
      code := .outcome .dstOverflow
      res0 := lengthWord p.args out
      res1 := r1
      dstat := d
      pending := none } := by
  rw [← operands_of_pending hp] at h ⊢
  rw [deliver_of_overflow h, finish]

/-- Delivery of an output that fits, field by field: the bytes are stored at the destination (R103 to R107, R172). -/
theorem deliver_eq_of_fits {s : State} {p : Pending} (hp : s.pending = some p) {out : Bytes} (c : OutcomeCode)
    (r1 : Word) (d : Dstat) (h : out.length ≤ p.args.a3.toNat) :
    ∃ m, deliver out c r1 d s = { s with
        code := .outcome c
        res0 := lengthWord p.args out
        res1 := r1
        dstat := d
        pending := none
        mem := m }
      ∧ StoredAt s.mem m p.args.a2.toNat out := by
  rw [← operands_of_pending hp] at h ⊢
  exact ⟨_, deliver_of_fits h, Memory.storedAt_writeRange ..⟩

/-- A number no greater than a register's value fits in a register (R7): so do the decoders' lengths and stop indices,
which the length of the source bounds. -/
theorem toNat_ofNat_of_le {w : Word} {n : Nat} (h : n ≤ w.toNat) : (BitVec.ofNat 32 n).toNat = n := by
  rw [BitVec.toNat_ofNat, Nat.mod_eq_of_lt (h.trans_lt w.isLt)]

/-! ### The four commands -/

/-- Settles O37: `ENC` delivers `EncodeRaw` of its source. -/
theorem encDeliversTheStuffedPayload : Obligations.EncDeliversTheStuffedPayload := by
  refine ⟨rfl, fun s p hp => codecCommand_cases hp rfl fun hexec src hlen hsrc =>
    ⟨lengthWord p.args (encodeRaw src), lengthWord_toNat, fun hlong => ?_, fun hfits => ?_⟩⟩
  · exact (hexec src hlen hsrc).trans (congrArg _ (deliver_eq_of_overflow hp _ _ _ hlong))
  · obtain ⟨m, hm, hstored⟩ := deliver_eq_of_fits hp .ok 0 Dstat.zero hfits
    exact ⟨m, (hexec src hlen hsrc).trans (congrArg _ hm), hstored⟩

/-- Settles O38: `DEC` delivers the output of `DecodeRaw`, whatever the outcome. -/
theorem decDeliversEverythingDecodedSoFar : Obligations.DecDeliversEverythingDecodedSoFar := by
  refine ⟨rfl, fun s p hp => codecCommand_cases hp rfl fun hexec src out oc stop art hlen hsrc hraw => ?_⟩
  have hnext := hexec src hlen hsrc
  obtain ⟨hout, hstop⟩ := decodeRaw_bounds src
  rw [hraw, hlen] at hout hstop
  simp only [hraw] at hnext
  refine ⟨lengthWord p.args out, BitVec.ofNat 32 stop, lengthWord_toNat (hout.trans_lt p.args.a1.isLt),
    toNat_ofNat_of_le hstop, fun hlong => ?_, fun hfits => ?_⟩
  · exact hnext.trans (congrArg _ (deliver_eq_of_overflow hp _ _ _ hlong))
  · obtain ⟨m, hm, hstored⟩ := deliver_eq_of_fits hp (if oc = .ended then .ok else .decodingFailed)
      (BitVec.ofNat 32 stop) (rawStatus ⟨out, oc, stop, art⟩) hfits
    exact ⟨m, hnext.trans (congrArg _ hm), hstored⟩

theorem length_frameOf (p : Bytes) : (frameOf p).length = (encodeRaw p).length + 2 := by simp [frameOf]

/-- Settles O39: `ENCPKT` delivers the frame of its source. -/
theorem encpktDeliversTheFrame : Obligations.EncpktDeliversTheFrame := by
  refine ⟨rfl, fun s p hp => codecCommand_cases hp rfl fun hexec src hlen hsrc => ?_⟩
  rw [← length_frameOf]
  refine ⟨lengthWord p.args (frameOf src), lengthWord_toNat, fun hlong => ?_, fun hfits => ?_⟩
  · exact (hexec src hlen hsrc).trans (congrArg _ (deliver_eq_of_overflow hp _ _ _ hlong))
  · obtain ⟨m, hm, hstored⟩ := deliver_eq_of_fits hp .ok 0 Dstat.zero hfits
    exact ⟨m, (hexec src hlen hsrc).trans (congrArg _ hm), hstored⟩

/-- A packet is no longer than the raw output, and that no longer than the input (R106). -/
theorem packetDecode_bounds (input : Bytes) :
    (packetDecode input).pkt.length ≤ (packetDecode input).rawLength
      ∧ (packetDecode input).rawLength ≤ input.length := by
  refine ⟨?_, (decodeRaw_bounds input).1⟩
  rw [packetDecode_rawLength]
  cases h : (packetDecode input).ok with
  | false => simp [packetDecode_pkt_of_not_ok h]
  | true => simp [packetDecode_pkt_of_ok h]

/-- Settles O40: `DECPKT` delivers the packet of an accepted frame, and completes without a store on a rejected one. -/
theorem decpktDeliversThePacket : Obligations.DecpktDeliversThePacket := by
  refine ⟨rfl, fun s p hp => codecCommand_cases hp rfl fun hexec src pkt ok r d hlen hsrc hdecode => ?_⟩
  have hnext := hexec src hlen hsrc
  obtain ⟨hpkt, hr⟩ := packetDecode_bounds src
  rw [hdecode] at hpkt hr
  rw [hlen] at hr
  simp only [hdecode] at hnext
  refine ⟨lengthWord p.args pkt, BitVec.ofNat 32 r, lengthWord_toNat ((hpkt.trans hr).trans_lt p.args.a1.isLt),
    toNat_ofNat_of_le hr, ?_, ?_, ?_⟩
  · rintro rfl
    exact hnext
  · rintro rfl hlong
    exact hnext.trans (congrArg _ (deliver_eq_of_overflow hp _ _ _ hlong))
  · rintro rfl hfits
    obtain ⟨m, hm, hstored⟩ := deliver_eq_of_fits hp .ok (BitVec.ofNat 32 r) d hfits
    exact ⟨m, hnext.trans (congrArg _ hm), hstored⟩

/-! ### The frame round trip -/

/-- A memory that holds a sequence holds what comes after its first byte. -/
theorem Holds.tail {m : Memory} {a : Nat} {b : Byte} {bs : Bytes} (h : Holds m a (b :: bs)) : Holds m (a + 1) bs := by
  intro k hk
  have := h (k + 1) (Nat.succ_lt_succ hk)
  rwa [← Nat.add_assoc, Nat.add_right_comm] at this

/-- Settles O36: what `DECPKT` reads is the frame `ENCPKT` stored without its leading delimiter, and `PacketDecode`
gives the packet back. -/
theorem frameRoundTripThroughCommands : Obligations.FrameRoundTripThroughCommands := by
  intro s u p q pkt hp hlen hsrc hsrcRange hdstRange hroom
  obtain ⟨-, hdefined⟩ := (encpktDeliversTheFrame.2 s p hp).2 hsrcRange hdstRange
  obtain ⟨r, hr, -, hfits⟩ := hdefined pkt hlen hsrc
  obtain ⟨m, hexec, hstored, -⟩ := hfits hroom
  refine ⟨_, hexec, rfl, fun hmem hparams hq ha0 ha1 hqdst => ?_⟩
  have hres : r.toNat = (encodeRaw pkt).length + 2 := hr (hroom.trans_lt p.args.a3.isLt)
  have hbody : q.args.a1.toNat = (encodeRaw pkt).length + 1 := by
    rw [ha1]
    exact congrArg (· - 1) hres
  have hlen' : (encodeRaw pkt ++ [0x00]).length = q.args.a1.toNat := by
    rw [hbody, List.length_append, List.length_singleton]
  have hqsrc : q.args.a0.toNat + q.args.a1.toNat ≤ u.params.memSize := by
    rw [hparams, hbody, ha0]
    omega
  have hread : Holds u.mem q.args.a0.toNat (encodeRaw pkt ++ [0x00]) := by
    rw [hmem, ha0]
    exact hstored.tail
  obtain ⟨-, hdecpkt⟩ := (decpktDeliversThePacket.2 u q hq).2 hqsrc (by rwa [hparams])
  refine ⟨fun htwo hdcap => ?_, fun hshort => ?_⟩
  · obtain ⟨r0, r1, hr0, -, -, -, hok⟩ := hdecpkt _ _ _ _ _ hlen' hread ((frameRoundTrip pkt).1 htwo)
    obtain ⟨m', hv, hpkt, -⟩ := hok rfl hdcap
    exact ⟨_, hv, rfl, hr0, hpkt⟩
  · obtain ⟨r0, r1, -, -, hrejected, -, -⟩ := hdecpkt _ _ _ _ _ hlen' hread ((frameRoundTrip pkt).2 hshort)
    exact ⟨_, hrejected rfl, rfl, rfl, rfl⟩

end Sys2Proof.Machine

/-! ## The ring as a queue: `Push` and `Pop` repeated, removal into a destination, `FindSpan` -/

namespace Sys2Proof.Machine

/-! ### `Push` and `Pop` on the held bytes -/

/-- The logical position after the held bytes is the head's (R130, R131). -/
theorem State.RingReady.ringPos_count {s : State} (h : s.RingReady) :
    ringPos s s.count = s.rbBase.toNat + s.rbHead.toNat := by
  rw [h.head_eq, ringPos]

/-- `Push` with room appends one byte to the held bytes (R131). -/
theorem State.RingReady.heldBytes_ringPush {s : State} (h : s.RingReady) (b : Byte) (hroom : s.count < s.rbCap.toNat)
    {held : Bytes} (hheld : heldBytes s = some held) : heldBytes (Machine.ringPush b s) = some (held ++ [b]) := by
  obtain ⟨hlen, hread⟩ := heldBytes_eq_some.1 hheld
  refine heldBytes_eq_some.2 ⟨by simp [h.count_ringPush b hroom, hlen], fun i hi => ?_⟩
  have hpos : ringPos (Machine.ringPush b s) i = ringPos s i := rfl
  rw [List.length_append, List.length_singleton] at hi
  rw [hpos, ringPush_mem, ← h.ringPos_count]
  by_cases hlast : i = s.count
  · simp [hlast, ← hlen]
  · have hne : ringPos s i ≠ ringPos s s.count := ringPos_ne h.tail_lt (by omega) hroom hlast
    rw [Memory.read_write_other _ _ hne, hread i (by omega), List.getElem_append_left (by omega)]

/-- `Pop` removes the oldest of the held bytes (R131). -/
theorem State.RingReady.heldBytes_ringPop {s : State} (h : s.RingReady) {b : Byte} {held : Bytes}
    (hheld : heldBytes s = some (b :: held)) : heldBytes (Machine.ringPop s) = some held := by
  obtain ⟨hlen, hread⟩ := heldBytes_eq_some.1 hheld
  rw [List.length_cons] at hlen
  have hcount := h.count_ringPop (by omega)
  refine heldBytes_eq_some.2 ⟨by omega, fun i hi => ?_⟩
  rw [ringPop_mem, ringPos_ringPop h.cap_pos]
  exact hread (i + 1) (Nat.succ_lt_succ hi)

/-- Settles O48: `Push` fills the position after the held bytes, `Pop` gives up the position of the oldest one. -/
theorem pushAndPopActOnTheQueue : Obligations.PushAndPopActOnTheQueue := by
  refine ⟨fun s b held h hroom hheld => ?_, fun s b held h hheld => ?_⟩
  · have hcount := h.count_ringPush b hroom
    have hfull := (h.ringPush b hroom).full_iff
    rw [hcount, ringPush_rbCap] at hfull
    exact ⟨h.ringPush b hroom, h.heldBytes_ringPush b hroom hheld, hcount, hfull, nextIndex_toNat h.cap_pos, rfl,
      Memory.storedAt_writeRange s.mem _ [b]⟩
  · obtain ⟨hlen, hread⟩ := heldBytes_eq_some.1 hheld
    have hne : 0 < s.count := hlen ▸ Nat.succ_pos _
    have holdest := hread 0 (Nat.succ_pos _)
    rw [ringPos_eq h.tail_lt (Nat.zero_le _), Nat.add_zero, if_pos h.tail_lt] at holdest
    exact ⟨holdest, h.ringPop hne, h.heldBytes_ringPop hheld, h.count_ringPop hne, nextIndex_toNat h.cap_pos, rfl, rfl,
      rfl⟩

/-- `Push` of bytes there is room for leaves the ring ready and holding as many more (R137). -/
theorem State.RingReady.ringPushAll {bs : Bytes} {s : State} (h : s.RingReady)
    (hroom : s.count + bs.length ≤ s.rbCap.toNat) :
    (ringPushAll bs s).RingReady ∧ (ringPushAll bs s).count = s.count + bs.length := by
  induction bs generalizing s with
  | nil => exact ⟨h, rfl⟩
  | cons b bs ih =>
    rw [List.length_cons] at hroom ⊢
    have hcount := h.count_ringPush b (by omega)
    obtain ⟨hready, hcount'⟩ := ih (h.ringPush b (by omega)) (by rw [ringPush_rbCap]; omega)
    exact ⟨hready, by rw [Machine.ringPushAll, hcount', hcount]; omega⟩

/-- `Push` of bytes there is room for appends them to the held bytes, in order (R137). -/
theorem State.RingReady.heldBytes_ringPushAll {bs : Bytes} {s : State} (h : s.RingReady)
    (hroom : s.count + bs.length ≤ s.rbCap.toNat) {held : Bytes} (hheld : heldBytes s = some held) :
    heldBytes (Machine.ringPushAll bs s) = some (held ++ bs) := by
  induction bs generalizing s held with
  | nil => rwa [List.append_nil]
  | cons b bs ih =>
    rw [List.length_cons] at hroom
    have hcount := h.count_ringPush b (by omega)
    have hpush := h.heldBytes_ringPush b (by omega) hheld
    have := ih (h.ringPush b (by omega)) (by rw [ringPush_rbCap]; omega) hpush
    rwa [List.append_assoc, List.singleton_append] at this

/-- `Push` of bytes stores at the logical positions after the held bytes and nowhere else (R137). -/
theorem State.RingReady.read_ringPushAll_other {bs : Bytes} {s : State} (h : s.RingReady)
    (hroom : s.count + bs.length ≤ s.rbCap.toNat) {a : Nat}
    (ha : ∀ k, k < bs.length → a ≠ ringPos s (s.count + k)) :
    (Machine.ringPushAll bs s).mem.read a = s.mem.read a := by
  induction bs generalizing s with
  | nil => rfl
  | cons b bs ih =>
    rw [List.length_cons] at hroom ha
    have hcount := h.count_ringPush b (by omega)
    have hrest := ih (h.ringPush b (by omega)) (by rw [ringPush_rbCap]; omega) fun k hk => by
      have := ha (k + 1) (by omega)
      rwa [← Nat.add_assoc, Nat.add_right_comm, ← hcount] at this
    have hhead := ha 0 (Nat.succ_pos _)
    rw [Nat.add_zero, h.ringPos_count] at hhead
    rw [Machine.ringPushAll, hrest, ringPush_mem, Memory.read_write_other _ _ hhead]

/-- `Pop` of no more bytes than are held leaves the ring ready and holding as many fewer (R138, R140). -/
theorem State.RingReady.ringPopN {n : Nat} {s : State} (h : s.RingReady) (hn : n ≤ s.count) :
    (ringPopN n s).RingReady ∧ (ringPopN n s).count + n = s.count := by
  induction n generalizing s with
  | zero => exact ⟨h, rfl⟩
  | succ n ih =>
    have hcount := h.count_ringPop (by omega)
    obtain ⟨hready, hcount'⟩ := ih (h.ringPop (by omega)) (by omega)
    exact ⟨hready, by rw [Machine.ringPopN]; omega⟩

/-- `Pop` of no more bytes than are held removes the oldest ones (R138, R140). -/
theorem State.RingReady.heldBytes_ringPopN {n : Nat} {s : State} (h : s.RingReady) {held : Bytes}
    (hheld : heldBytes s = some held) (hn : n ≤ s.count) : heldBytes (Machine.ringPopN n s) = some (held.drop n) := by
  induction n generalizing s held with
  | zero => exact hheld
  | succ n ih =>
    have hlen := (heldBytes_eq_some.1 hheld).1
    have hcount := h.count_ringPop (by omega)
    obtain ⟨b, held, rfl⟩ := List.exists_cons_of_length_pos (l := held) (by omega)
    exact ih (h.ringPop (by omega)) (h.heldBytes_ringPop hheld) (by omega)

/-- The oldest `n` of the held bytes are those at the first `n` logical indices (R130). -/
theorem ringBytes_take {s : State} {held : Bytes} (hheld : heldBytes s = some held) (n : Nat) :
    ringBytes s 0 (min n s.count) = some (held.take n) := by
  obtain ⟨hlen, hread⟩ := heldBytes_eq_some.1 hheld
  refine ringBytes_eq_some.2 ⟨by rw [List.length_take, hlen], fun i hi => ?_⟩
  rw [Nat.zero_add, List.getElem_take]
  exact hread i _

/-! ### The same ring in another state, and removal into a destination -/

/-- The same ring has the same logical positions (R130). -/
theorem SameRing.ringPos_eq {s t : State} (h : SameRing s t) (k : Nat) : ringPos t k = ringPos s k := by
  obtain ⟨-, hbase, hcap, -, htail, -, -, -⟩ := h
  rw [ringPos, hbase, htail, hcap, ringPos]

/-- The same ring has the same count (R28). -/
theorem SameRing.count_eq {s t : State} (h : SameRing s t) : t.count = s.count := by
  obtain ⟨-, -, hcap, hhead, htail, hfull, -, -⟩ := h
  rw [State.count, hcap, hhead, htail, hfull, State.count]

/-- The same ring reads the same at every storage address. -/
theorem SameRing.read_eq {s t : State} (h : SameRing s t) {a : Nat} (hlo : s.rbBase.toNat ≤ a)
    (hhi : a < s.rbBase.toNat + s.rbCap.toNat) : t.mem.read a = s.mem.read a := by
  obtain ⟨-, -, -, -, -, -, -, hmem⟩ := h
  have := hmem (a - s.rbBase.toNat) (by omega)
  rwa [Nat.add_sub_cancel' hlo] at this

/-- The same ring is ready when the other is. -/
theorem SameRing.ringReady {s t : State} (h : SameRing s t) (hs : s.RingReady) : t.RingReady := by
  obtain ⟨hparams, hbase, hcap, hhead, htail, hfull, hinit, -⟩ := id h
  exact hs.congr hparams hbase hcap hhead htail hfull hinit fun a hlo hhi hdef => by rwa [h.read_eq hlo hhi]

/-- The same ring holds the same bytes. -/
theorem SameRing.heldBytes_eq {s t : State} (h : SameRing s t) (hs : s.RingReady) : heldBytes t = heldBytes s := by
  refine Option.ext fun held => ?_
  have hread (k : Nat) : t.mem.read (ringPos t k) = s.mem.read (ringPos s k) := by
    obtain ⟨hlo, hhi⟩ := ringPos_bounds hs.cap_pos k
    rw [h.ringPos_eq, h.read_eq hlo hhi]
  simp only [heldBytes_eq_some, hread, h.count_eq]

/-- A part of a range clear of another is clear of it. -/
theorem Disjoint.of_le {a n n' b k : Nat} (h : Disjoint a n b k) (hn : n' ≤ n) : Disjoint a n' b k := by
  unfold Disjoint at h ⊢
  omega

/-- Removing held bytes leaves the ring ready and holding as many fewer, wherever they are stored (R138, R140). -/
theorem State.RingReady.extractBytes {s : State} (h : s.RingReady) {n : Nat} (hn : n ≤ s.count) (bs : Bytes)
    (dst r0 r1 : Word) :
    (extractBytes n bs dst r0 r1 s).RingReady ∧ (extractBytes n bs dst r0 r1 s).count + n = s.count := by
  obtain ⟨hready, hcount⟩ := h.ringPopN hn
  refine ⟨hready.congr rfl rfl rfl rfl rfl rfl rfl fun a _ _ hdef => ?_, hcount⟩
  rw [ringPopN_mem] at hdef
  exact Memory.isSome_read_writeRange _ _ hdef

/-- Removing bytes into a destination clear of ring storage has the ring of the repeated `Pop` (R138, R140). -/
theorem sameRing_extractBytes {s : State} {n : Nat} {bs : Bytes} {dst : Word} (r0 r1 : Word)
    (hclear : Disjoint dst.toNat bs.length s.rbBase.toNat s.rbCap.toNat) :
    SameRing (ringPopN n s) (extractBytes n bs dst r0 r1 s) := by
  refine ⟨rfl, rfl, rfl, rfl, rfl, rfl, rfl, fun k hk => ?_⟩
  rw [ringPopN_rbCap] at hk
  rw [ringPopN_mem, ringPopN_rbBase]
  refine (Memory.storedAt_writeRange s.mem dst.toNat bs).2 _ ?_
  unfold Disjoint at hclear
  omega

/-- Removing held bytes into a destination clear of ring storage keeps the others (R138, R140). -/
theorem State.RingReady.heldBytes_extractBytes {s : State} (h : s.RingReady) {n : Nat} (hn : n ≤ s.count) {held : Bytes}
    (hheld : heldBytes s = some held) {bs : Bytes} {dst : Word} (r0 r1 : Word)
    (hclear : Disjoint dst.toNat bs.length s.rbBase.toNat s.rbCap.toNat) :
    heldBytes (Machine.extractBytes n bs dst r0 r1 s) = some (held.drop n) := by
  rw [(sameRing_extractBytes r0 r1 hclear).heldBytes_eq (h.ringPopN hn).1, h.heldBytes_ringPopN hheld hn]

/-- What appending bytes leaves in the ring is what the repeated `Push` leaves (R137). -/
theorem sameRing_appendBytes (bs : Bytes) (s : State) : SameRing (ringPushAll bs s) (appendBytes bs s) :=
  ⟨rfl, rfl, rfl, rfl, rfl, rfl, rfl, fun _ _ => rfl⟩

/-- Appending bytes there is room for leaves the ring ready and holding as many more (R137). -/
theorem State.RingReady.appendBytes {s : State} (h : s.RingReady) {bs : Bytes}
    (hroom : s.count + bs.length ≤ s.rbCap.toNat) :
    (appendBytes bs s).RingReady ∧ (appendBytes bs s).count = s.count + bs.length := by
  obtain ⟨hready, hcount⟩ := h.ringPushAll hroom
  have hsame := sameRing_appendBytes bs s
  exact ⟨hsame.ringReady hready, hsame.count_eq.trans hcount⟩

/-- Appending bytes there is room for puts them after the held bytes (R137). -/
theorem State.RingReady.heldBytes_appendBytes {s : State} (h : s.RingReady) {bs : Bytes}
    (hroom : s.count + bs.length ≤ s.rbCap.toNat) {held : Bytes} (hheld : heldBytes s = some held) :
    heldBytes (Machine.appendBytes bs s) = some (held ++ bs) := by
  rw [(sameRing_appendBytes bs s).heldBytes_eq (h.ringPushAll hroom).1, h.heldBytes_ringPushAll hroom hheld]

/-! ### `FindSpan` -/

/-- `i` is the last occurrence of `d` before index `k`. -/
def LastBefore (d : Byte) (bs : Bytes) (k i : Nat) : Prop :=
  i < k ∧ bs[i]? = some d ∧ ∀ m, i < m → m < k → bs[m]? ≠ some d

/-- There is one last occurrence at most. -/
theorem LastBefore.unique {d : Byte} {bs : Bytes} {k i i' : Nat} (h : LastBefore d bs k i) (h' : LastBefore d bs k i') :
    i = i' := by
  obtain ⟨hlt, hat, hlast⟩ := h
  obtain ⟨hlt', hat', hlast'⟩ := h'
  rcases Nat.lt_trichotomy i i' with hii | hii | hii
  · exact absurd hat' (hlast i' hii hlt')
  · exact hii
  · exact absurd hat (hlast' i hii hlt)

/-- After an occurrence, the last one is that. -/
theorem lastBefore_succ_of_eq {d : Byte} {bs : Bytes} {k : Nat} (hk : bs[k]? = some d) (i : Nat) :
    k = i ↔ LastBefore d bs (k + 1) i := by
  have hself : LastBefore d bs (k + 1) k := ⟨Nat.lt_succ_self k, hk, fun m hkm hmk => by omega⟩
  constructor
  · rintro rfl
    exact hself
  · exact hself.unique

/-- After another byte, the last occurrence is the one before. -/
theorem lastBefore_succ_of_ne {d : Byte} {bs : Bytes} {k : Nat} (hk : bs[k]? ≠ some d) (i : Nat) :
    LastBefore d bs k i ↔ LastBefore d bs (k + 1) i := by
  constructor
  · rintro ⟨hlt, hat, hlast⟩
    refine ⟨by omega, hat, fun m him hmk => ?_⟩
    rcases Nat.lt_succ_iff_lt_or_eq.1 hmk with hmk | rfl
    · exact hlast m him hmk
    · exact hk
  · rintro ⟨hlt, hat, hlast⟩
    have hne : i ≠ k := by
      rintro rfl
      exact hk hat
    exact ⟨by omega, hat, fun m him hmk => hlast m him (by omega)⟩

/-- A span is an occurrence and the last one before it, two or more back (R132). -/
theorem isSpan_iff {d : Byte} {bs : Bytes} {i j : Nat} :
    IsSpan d bs i j ↔ i + 2 ≤ j ∧ bs[j]? = some d ∧ LastBefore d bs j i := by
  constructor
  · rintro ⟨hfar, hi, hj, hbetween⟩
    exact ⟨hfar, hj, by omega, hi, hbetween⟩
  · rintro ⟨hfar, hj, -, hi, hbetween⟩
    exact ⟨hfar, hi, hj, hbetween⟩

/-- The scan goes past a byte that is not the delimiter (R132). -/
theorem findSpanFrom_cons_of_ne {d b : Byte} (hb : b ≠ d) (k : Nat) (prev : Option Nat) (bs : Bytes) :
    findSpanFrom d k prev (b :: bs) = findSpanFrom d (k + 1) prev bs := by
  cases prev <;> simp [findSpanFrom, hb]

/-- The scan at the first delimiter (R132). -/
theorem findSpanFrom_cons_first (d : Byte) (k : Nat) (bs : Bytes) :
    findSpanFrom d k none (d :: bs) = findSpanFrom d (k + 1) (some k) bs := by simp [findSpanFrom]

/-- The scan at a delimiter after the one at `p` (R132). -/
theorem findSpanFrom_cons_next (d : Byte) (k p : Nat) (bs : Bytes) :
    findSpanFrom d k (some p) (d :: bs) = if 2 ≤ k - p then some (p, k) else findSpanFrom d (k + 1) (some k) bs := by
  simp [findSpanFrom]

/-- What an answer of `FindSpan` says of the held bytes (R132). -/
def SpanAnswer (d : Byte) (held : Bytes) : Option (Nat × Nat) → Prop
  | some (i, j) => IsFirstSpan d held i j
  | none => ∀ i j, ¬IsSpan d held i j

/-- The scan of `FindSpan` from index `k` on is right when `prev` is the last occurrence before `k` and no span ends
before `k` (R132). -/
theorem spanAnswer_findSpanFrom {d : Byte} {held bs : Bytes} {k : Nat} {prev : Option Nat} (hbs : held.drop k = bs)
    (hprev : ∀ i, prev = some i ↔ LastBefore d held k i) (hdone : ∀ i j, IsSpan d held i j → k ≤ j) :
    SpanAnswer d held (findSpanFrom d k prev bs) := by
  induction bs generalizing k prev with
  | nil =>
    intro i j hspan
    have hj := (List.getElem?_eq_some_iff.1 (isSpan_iff.1 hspan).2.1).1
    have := hdone i j hspan
    have := List.drop_eq_nil_iff.1 hbs
    omega
  | cons b bs ih =>
    have hat : held[k]? = some b := by rw [← List.head?_drop, hbs, List.head?_cons]
    have htail : held.drop (k + 1) = bs := by rw [← List.tail_drop, hbs, List.tail_cons]
    have hskip (hno : ∀ i, ¬IsSpan d held i k) (i j : Nat) (hspan : IsSpan d held i j) : k + 1 ≤ j := by
      have hne : j ≠ k := by
        rintro rfl
        exact hno i hspan
      have := hdone i j hspan
      omega
    by_cases hb : b = d
    · subst hb
      have hgo (hno : ∀ i, ¬IsSpan b held i k) : SpanAnswer b held (findSpanFrom b (k + 1) (some k) bs) :=
        ih htail (fun i => by rw [Option.some.injEq]; exact lastBefore_succ_of_eq hat i) (hskip hno)
      cases prev with
      | none =>
        rw [findSpanFrom_cons_first]
        refine hgo fun i hspan => ?_
        obtain ⟨-, -, hlast⟩ := isSpan_iff.1 hspan
        cases (hprev i).2 hlast
      | some p =>
        have hp : LastBefore b held k p := (hprev p).1 rfl
        rw [findSpanFrom_cons_next]
        split
        · exact ⟨isSpan_iff.2 ⟨by omega, hat, hp⟩, hdone⟩
        · refine hgo fun i hspan => ?_
          obtain ⟨hfar, -, hlast⟩ := isSpan_iff.1 hspan
          have := hp.unique hlast
          omega
    · have hne : held[k]? ≠ some d := by simpa [hat] using hb
      rw [findSpanFrom_cons_of_ne hb]
      exact ih htail (fun i => (hprev i).trans (lastBefore_succ_of_ne hne i))
        (hskip fun i hspan => hne (isSpan_iff.1 hspan).2.1)

theorem spanAnswer_findSpan (d : Byte) (held : Bytes) : SpanAnswer d held (findSpan d held) :=
  spanAnswer_findSpanFrom rfl (fun i => ⟨nofun, fun h => absurd h.1 (Nat.not_lt_zero i)⟩) fun _ _ _ => Nat.zero_le _

/-- There is one first span at most (R132). -/
theorem IsFirstSpan.unique {d : Byte} {bs : Bytes} {i j i' j' : Nat} (h : IsFirstSpan d bs i j)
    (h' : IsFirstSpan d bs i' j') : i = i' ∧ j = j' := by
  obtain ⟨hspan, hfirst⟩ := h
  obtain ⟨hspan', hfirst'⟩ := h'
  obtain rfl : j = j' := Nat.le_antisymm (hfirst _ _ hspan') (hfirst' _ _ hspan)
  obtain ⟨-, -, hlast⟩ := isSpan_iff.1 hspan
  obtain ⟨-, -, hlast'⟩ := isSpan_iff.1 hspan'
  exact ⟨hlast.unique hlast', rfl⟩

/-- `FindSpan` answers the first span (R132). -/
theorem findSpan_eq_some {d : Byte} {held : Bytes} {i j : Nat} :
    findSpan d held = some (i, j) ↔ IsFirstSpan d held i j := by
  have hanswer := spanAnswer_findSpan d held
  constructor
  · intro h
    rwa [h] at hanswer
  · intro h
    cases hf : findSpan d held with
    | none =>
      rw [hf] at hanswer
      exact absurd h.1 (hanswer i j)
    | some q =>
      rw [hf] at hanswer
      obtain ⟨hi, hj⟩ := IsFirstSpan.unique hanswer h
      rw [← hi, ← hj]

/-- `FindSpan` answers none exactly when there is no span (R132). -/
theorem findSpan_eq_none {d : Byte} {held : Bytes} : findSpan d held = none ↔ ∀ i j, ¬IsSpan d held i j := by
  have hanswer := spanAnswer_findSpan d held
  constructor
  · intro h
    rwa [h] at hanswer
  · intro h
    cases hf : findSpan d held with
    | none => rfl
    | some q =>
      rw [hf] at hanswer
      exact absurd hanswer.1 (h q.1 q.2)

/-- Settles O51: the answer of the scan is right, and a first span is the only one. -/
theorem findSpanFindsTheFirstSpan : Obligations.FindSpanFindsTheFirstSpan := fun _ _ =>
  ⟨fun _ _ => findSpan_eq_some, findSpan_eq_none⟩

end Sys2Proof.Machine

/-! ## The ring's commands: the six in every case, and the queue over a sequence of them -/

namespace Sys2Proof.Machine

/-! ### The initialisation gate and the range check -/

/-- A command has one next state. -/
theorem exec_unique {i : Instr} {s t u : State} (hu : exec i s = .next u) (ht : exec i s = .next t) : t = u :=
  (Host.Outcome.next.inj (hu.symm.trans ht)).symm

/-- A gated ring command before initialisation (R133). -/
theorem exec_eq_of_not_init {i : Instr} {s k : State} (hexec : exec i s = .next (withRing s k)) (h : s.init = false) :
    exec i s = .next (s.afterFault .rbUninit) := by
  rw [hexec, withRing_of_not_init h, raiseFault_eq_afterFault]

/-- A gated ring command after initialisation (R133). -/
theorem exec_eq_of_init {i : Instr} {s k : State} (hexec : exec i s = .next (withRing s k)) (h : s.init = true) :
    exec i s = .next k := by
  rw [hexec, withRing_of_init h]

/-- A gated ring command whose range is not valid (R54, R175). -/
theorem exec_eq_of_invalid {i : Instr} {s k : State} {a n : Word}
    (hexec : exec i s = .next (withRing s (if rangeValid s a n then k else raiseFault .badRange s)))
    (hinit : s.init = true) (h : s.params.memSize < a.toNat + n.toNat) :
    exec i s = .next (s.afterFault .badRange) := by
  rw [exec_eq_of_init hexec hinit, if_neg (by rw [rangeValid_iff]; omega), raiseFault_eq_afterFault]

/-- A gated ring command whose range is valid (R54, R175). -/
theorem exec_eq_of_valid {i : Instr} {s k : State} {a n : Word}
    (hexec : exec i s = .next (withRing s (if rangeValid s a n then k else raiseFault .badRange s)))
    (hinit : s.init = true) (h : a.toNat + n.toNat ≤ s.params.memSize) : exec i s = .next k := by
  rw [exec_eq_of_init hexec hinit, if_pos (rangeValid_iff.2 h)]

/-! ### `RB_INIT` and `RB_EMPTY` -/

/-- `RB_INIT` of an illegal region (R135). -/
theorem exec_rbInit_of_badCap {s : State}
    (h : s.operands.a1.toNat < 1 ∨ s.params.rbCapMax < s.operands.a1.toNat
      ∨ s.params.memSize < s.operands.a0.toNat + s.operands.a1.toNat) :
    exec .rbInit s = .next (s.afterFault .badCap) :=
  congrArg Host.Outcome.next ((if_pos h).trans (raiseFault_eq_afterFault ..))

/-- `RB_INIT` of a legal region (R135). -/
theorem exec_rbInit_of_legal {s : State} (hpos : 1 ≤ s.operands.a1.toNat)
    (hcap : s.operands.a1.toNat ≤ s.params.rbCapMax)
    (hregion : s.operands.a0.toNat + s.operands.a1.toNat ≤ s.params.memSize) :
    exec .rbInit s = .next (finish .ok 0 0 Dstat.zero { s with
      rbBase := s.operands.a0
      rbCap := s.operands.a1
      rbHead := 0
      rbTail := 0
      full := false
      init := true }) :=
  congrArg Host.Outcome.next (if_neg (by omega))

/-- Settles O45: what `RB_INIT` writes does not depend on what the ring held before. -/
theorem rbInitStartsAnEmptyRing : Obligations.RbInitStartsAnEmptyRing := by
  refine ⟨rfl, fun s p hp => ?_⟩
  rw [← operands_of_pending hp]
  refine ⟨exec_rbInit_of_badCap, fun hpos hcap hregion =>
    ⟨_, exec_rbInit_of_legal hpos hcap hregion, rfl, ?_, ?_⟩⟩
  · simp [State.count]
  · simp [rbFlagsWord, State.empty, bitField]

/-- Settles O46: the count of a ready ring fits in `RES1`. -/
theorem rbEmptyAnswersEmptinessAndCount : Obligations.RbEmptyAnswersEmptinessAndCount := by
  refine ⟨rfl, fun s p _ => ⟨exec_eq_of_not_init rfl, fun h => ⟨_, toNat_ofNat_of_le h.count_le, ?_⟩⟩⟩
  have hempty : s.empty = true ↔ s.rbHead = s.rbTail ∧ s.full = false := by simp [State.empty]
  rw [exec_eq_of_init (i := .rbEmpty) rfl h.init]
  simp only [hempty, finish, Dstat.zero]

/-! ### `RB_ADD` -/

/-- `RB_ADD` of more bytes than are free (R137). -/
theorem exec_rbAdd_of_overflow {s : State} (hinit : s.init = true)
    (hvalid : s.operands.a0.toNat + s.operands.a1.toNat ≤ s.params.memSize) (h : s.free < s.operands.a1.toNat) :
    exec .rbAdd s = .next (s.afterFault .rbOverflow) := by
  rw [exec_eq_of_valid (i := .rbAdd) rfl hinit hvalid, if_pos h, raiseFault_eq_afterFault]

/-- `RB_ADD` of a defined source there is room for (R137). -/
theorem exec_rbAdd_of_room {s : State} (hinit : s.init = true)
    (hvalid : s.operands.a0.toNat + s.operands.a1.toNat ≤ s.params.memSize) (hroom : s.operands.a1.toNat ≤ s.free)
    {src : Bytes} (hlen : src.length = s.operands.a1.toNat) (hsrc : Holds s.mem s.operands.a0.toNat src) :
    exec .rbAdd s = .next (appendBytes src s) := by
  rw [exec_eq_of_valid (i := .rbAdd) rfl hinit hvalid, if_neg (Nat.not_lt.2 hroom), readSource_of_holds _ hlen hsrc]

/-- No more bytes than are free fit in the ring with those it holds (R28). -/
theorem State.RingReady.count_add_le_cap {s : State} (h : s.RingReady) {n : Nat} (hn : n ≤ s.free) :
    s.count + n ≤ s.rbCap.toNat := by
  have := h.free_add_count
  omega

/-- Settles O49: an accepted source is appended by `Push`, byte by byte. -/
theorem rbAddAppendsTheSource : Obligations.RbAddAppendsTheSource := by
  refine ⟨rfl, fun s p hp => ?_⟩
  rw [← operands_of_pending hp]
  refine ⟨exec_eq_of_not_init rfl, exec_eq_of_invalid rfl, exec_rbAdd_of_overflow,
    fun src held h hvalid hroom hlen hsrc hheld => ?_⟩
  have hfit := h.count_add_le_cap (hlen.trans_le hroom)
  obtain ⟨hready, hcount⟩ := h.ringPushAll hfit
  have hhead := hready.head_eq
  rw [hcount, ringPushAll_rbTail, ringPushAll_rbCap, ← Nat.add_assoc, ← Nat.mod_add_mod, ← h.head_eq] at hhead
  have hfull := hready.full_iff
  rw [hcount, ringPushAll_rbCap] at hfull
  have hres1 : (BitVec.ofNat 32 (ringPushAll src s).count).toNat = s.count + src.length := by
    rw [hcount]
    exact toNat_ofNat_of_le hfit
  exact ⟨_, _, _, _, _, exec_rbAdd_of_room h.init hvalid hroom hlen hsrc, appendBytes_eq src s, hhead, hres1,
    (h.appendBytes hfit).2, hfull, h.heldBytes_appendBytes hfit hheld, fun _ ha => h.read_ringPushAll_other hfit ha⟩

/-! ### `RB_DEQ` -/

/-- `RB_DEQ` into a valid destination delivers and removes the oldest bytes (R138). -/
theorem exec_rbDeq_of_valid {s : State} (hinit : s.init = true)
    (hvalid : s.operands.a2.toNat + s.operands.a1.toNat ≤ s.params.memSize) {held : Bytes}
    (hheld : heldBytes s = some held) {n : Nat} (hn : n = min s.operands.a1.toNat s.count) :
    exec .rbDeq s = .next (extractBytes n (held.take s.operands.a1.toNat) s.operands.a2 (BitVec.ofNat 32 n)
      (BitVec.ofNat 32 (ringPopN n s).count) s) := by
  have hout := ringBytes_take hheld s.operands.a1.toNat
  have hlen : (held.take s.operands.a1.toNat).length = n := hn ▸ (ringBytes_eq_some.1 hout).1
  rw [exec_eq_of_valid (i := .rbDeq) rfl hinit hvalid]
  simp only [hout, hlen]

/-- There are no held bytes to drop beyond the count (R138). -/
theorem drop_min_count {s : State} {held : Bytes} (hheld : heldBytes s = some held) (n : Nat) :
    held.drop (min n s.count) = held.drop n := by
  rw [← (heldBytes_eq_some.1 hheld).1, ← List.drop_eq_drop_min]

/-- A full ring holds a byte, so a dequeue of `max` bytes leaves it full only for `max = 0` (R138). -/
theorem State.RingReady.full_and_min_count {s : State} (h : s.RingReady) (max : Word) :
    (s.full && min max.toNat s.count == 0) = (s.full && max == 0) := by
  cases hf : s.full with
  | false => rfl
  | true =>
    have hcap := h.full_iff.1 hf
    have hpos := h.cap_pos
    have hzero : max = 0 ↔ max.toNat = 0 := BitVec.toNat_inj.symm
    rw [Bool.true_and, Bool.true_and, Bool.eq_iff_iff, beq_iff_eq, beq_iff_eq, hzero]
    omega

/-- Settles O50: `RB_DEQ` stores the oldest bytes and removes as many by `Pop`. -/
theorem rbDeqDeliversTheOldestBytes : Obligations.RbDeqDeliversTheOldestBytes := by
  refine ⟨rfl, fun s p hp => ?_⟩
  rw [← operands_of_pending hp]
  refine ⟨exec_eq_of_not_init rfl, exec_eq_of_invalid rfl, fun held h hvalid hheld => ?_⟩
  obtain ⟨n, hn⟩ : ∃ n, n = min s.operands.a1.toNat s.count := ⟨_, rfl⟩
  have hle : n ≤ s.count := hn ▸ Nat.min_le_right ..
  have hres0 := toNat_ofNat_of_le (hle.trans h.count_le)
  obtain ⟨-, hcount⟩ := h.ringPopN hle
  have hres1 := toNat_ofNat_of_le ((Nat.le.intro hcount).trans h.count_le)
  have hfull := h.full_and_min_count s.operands.a1
  rw [← hn] at hfull
  refine ⟨_, _, _, _, _, exec_rbDeq_of_valid h.init hvalid hheld hn, hfull ▸ extractBytes_eq .., hres0.trans hn,
    by rw [hres0, hres1, hcount], hres1.symm, ?_, Memory.storedAt_writeRange .., fun hclear => ?_⟩
  · rw [hres0]
    exact ringPopN_tail n h.tail_lt
  · rw [← drop_min_count hheld, ← hn]
    exact h.heldBytes_extractBytes hle hheld _ _ (hclear.of_le (List.length_take_le ..))

/-! ### `RB_HASSPAN` and `RB_DEQSPAN` -/

/-- `RB_HASSPAN` when no span is held (R139). -/
theorem exec_rbHasspan_of_none {d : Byte} {s : State} {held : Bytes} (hinit : s.init = true)
    (hheld : heldBytes s = some held) (hspan : findSpan d held = none) :
    exec (.rbHasspan d) s = .next (finish .ok 0 0 Dstat.zero s) := by
  rw [exec_eq_of_init (i := .rbHasspan d) rfl hinit]
  simp only [hheld, hspan]

/-- `RB_HASSPAN` when a span is held (R139). -/
theorem exec_rbHasspan_of_some {d : Byte} {s : State} {held : Bytes} {i j : Nat} (hinit : s.init = true)
    (hheld : heldBytes s = some held) (hspan : findSpan d held = some (i, j)) :
    exec (.rbHasspan d) s = .next (finish .ok 1 (BitVec.ofNat 32 (j - i + 1)) Dstat.zero s) := by
  rw [exec_eq_of_init (i := .rbHasspan d) rfl hinit]
  simp only [hheld, hspan]

/-- `RB_DEQSPAN` into a valid destination when no span is held (R140). -/
theorem exec_rbDeqspan_of_none {d : Byte} {s : State} {held : Bytes} 
    (hinit : s.init = true) (hvalid : s.operands.a2.toNat + s.operands.a3.toNat ≤ s.params.memSize)
    (hheld : heldBytes s = some held) (hspan : findSpan d held = none) :
    exec (.rbDeqspan d) s = .next (finish .noSpan 0 0 Dstat.zero s) := by
  rw [exec_eq_of_valid (i := .rbDeqspan d) rfl hinit hvalid]
  simp only [hheld, hspan]

/-- `RB_DEQSPAN` of a span longer than the destination (R140). -/
theorem exec_rbDeqspan_of_overflow {d : Byte} {s : State} {held : Bytes} {i j : Nat}
    (hinit : s.init = true)
    (hvalid : s.operands.a2.toNat + s.operands.a3.toNat ≤ s.params.memSize) (hheld : heldBytes s = some held)
    (hspan : findSpan d held = some (i, j)) (hlong : s.operands.a3.toNat < j - i + 1) :
    exec (.rbDeqspan d) s
      = .next (finish .dstOverflow (BitVec.ofNat 32 (j - i + 1)) (BitVec.ofNat 32 i) Dstat.zero s) := by
  rw [exec_eq_of_valid (i := .rbDeqspan d) rfl hinit hvalid]
  simp only [hheld, hspan, if_pos hlong]

/-- `RB_DEQSPAN` of a span that fits the destination (R140). -/
theorem exec_rbDeqspan_of_fits {d : Byte} {s : State} {held : Bytes} {i j : Nat}
    (hinit : s.init = true)
    (hvalid : s.operands.a2.toNat + s.operands.a3.toNat ≤ s.params.memSize) (hheld : heldBytes s = some held)
    (hspan : findSpan d held = some (i, j)) (hfits : j - i + 1 ≤ s.operands.a3.toNat) :
    exec (.rbDeqspan d) s = .next (extractBytes (j + 1) ((held.drop i).take (j - i + 1)) s.operands.a2
      (BitVec.ofNat 32 (j - i + 1)) (BitVec.ofNat 32 i) s) := by
  rw [exec_eq_of_valid (i := .rbDeqspan d) rfl hinit hvalid]
  simp only [hheld, hspan, if_neg (Nat.not_lt.2 hfits)]

/-- A first span of the held bytes ends within the count (R132). -/
theorem IsFirstSpan.bounds {d : Byte} {s : State} {held : Bytes} {i j : Nat} (h : IsFirstSpan d held i j)
    (hheld : heldBytes s = some held) : i < j ∧ j + 1 ≤ s.count := by
  have hij := (isSpan_iff.1 h.1).1
  have hj := findSpan_lt (findSpan_eq_some.2 h)
  have hlen := (heldBytes_eq_some.1 hheld).1
  omega

/-- The length and the start of a first span fit in the result registers (R139, R140). -/
theorem IsFirstSpan.results_toNat {d : Byte} {s : State} {held : Bytes} {i j : Nat} (hfirst : IsFirstSpan d held i j)
    (h : s.RingReady) (hheld : heldBytes s = some held) :
    (BitVec.ofNat 32 (j - i + 1)).toNat = j - i + 1 ∧ (BitVec.ofNat 32 i).toNat = i := by
  obtain ⟨hij, hj⟩ := hfirst.bounds hheld
  have hcount := h.count_le
  exact ⟨toNat_ofNat_of_le (w := s.rbCap) (by omega), toNat_ofNat_of_le (w := s.rbCap) (by omega)⟩

/-- The word of a span command (R70, R72, R74). -/
theorem wordOfFields_span (op d : Byte) : wordOfFields ⟨op, d, 0⟩ = op.setWidth 32 ||| (d.setWidth 32 <<< 8) := by
  simp [wordOfFields]

/-- Settles O52: the two cases are the two answers of `FindSpan`. -/
theorem rbHasspanAnswersWhetherASpanExists : Obligations.RbHasspanAnswersWhetherASpanExists := by
  refine fun d => ⟨decode_eq_ok_iff.2 (wordOfFields_span 0x24 d),
    fun s _ _ => ⟨exec_eq_of_not_init rfl, fun held h hheld => ⟨fun hnone => ?_, fun i j hfirst => ?_⟩⟩⟩
  · exact exec_rbHasspan_of_none h.init hheld (findSpan_eq_none.2 hnone)
  · exact ⟨_, (hfirst.results_toNat h hheld).1, exec_rbHasspan_of_some h.init hheld (findSpan_eq_some.2 hfirst)⟩

/-- Settles O53: the cases are the two answers of `FindSpan`, and whether the span fits. -/
theorem rbDeqspanDeliversTheFirstSpan : Obligations.RbDeqspanDeliversTheFirstSpan := by
  refine fun d => ⟨decode_eq_ok_iff.2 (wordOfFields_span 0x25 d), fun s p hp => ?_⟩
  rw [← operands_of_pending hp]
  refine ⟨exec_eq_of_not_init rfl, exec_eq_of_invalid rfl, fun held h hvalid hheld =>
    ⟨fun hnone => ?_, fun i j hfirst => ?_⟩⟩
  · exact exec_rbDeqspan_of_none h.init hvalid hheld (findSpan_eq_none.2 hnone)
  · have hspan := findSpan_eq_some.2 hfirst
    obtain ⟨-, hj⟩ := hfirst.bounds hheld
    obtain ⟨hres0, hres1⟩ := hfirst.results_toNat h hheld
    refine ⟨_, _, hres0, hres1, exec_rbDeqspan_of_overflow h.init hvalid hheld hspan, fun hfits => ?_⟩
    refine ⟨_, _, _, exec_rbDeqspan_of_fits h.init hvalid hheld hspan hfits, ?_, ringPopN_tail _ h.tail_lt,
      (h.extractBytes hj ..).2, Memory.storedAt_writeRange .., fun hclear => ?_⟩
    · rw [extractBytes_eq]
      simp [Dstat.zero]
    · exact h.heldBytes_extractBytes hj hheld _ _ (hclear.of_le ((List.length_take_le ..).trans hfits))

/-! ### The ring's storage is always defined -/

/-- Removing held bytes records no model fault (R138, R140). -/
theorem extractBytes_modelFaults (n : Nat) (bs : Bytes) (dst r0 r1 : Word) (s : State) :
    (extractBytes n bs dst r0 r1 s).modelFaults = s.modelFaults := by rw [extractBytes_eq]

/-- Settles O54: a ready ring answers all its bytes, so no command ends in `UndefinedRead`. -/
theorem ringStorageReadsAreDefined : Obligations.RingStorageReadsAreDefined := by
  intro s t i h hi ht
  obtain ⟨held, hheld⟩ := h.heldBytes_isSome
  rcases hi with rfl | rfl | rfl | ⟨d, rfl⟩ | ⟨d, rfl⟩
  case inl =>
    cases ht
    split <;> rfl
  case inr.inl =>
    obtain rfl := exec_unique (exec_eq_of_init rfl h.init) ht
    rfl
  case inr.inr.inl =>
    by_cases hvalid : s.operands.a2.toNat + s.operands.a1.toNat ≤ s.params.memSize
    · obtain rfl := exec_unique (exec_rbDeq_of_valid h.init hvalid hheld rfl) ht
      exact extractBytes_modelFaults ..
    · obtain rfl := exec_unique (exec_eq_of_invalid rfl h.init (Nat.lt_of_not_le hvalid)) ht
      rfl
  case inr.inr.inr.inl =>
    cases hspan : findSpan d held with
    | none =>
      obtain rfl := exec_unique (exec_rbHasspan_of_none h.init hheld hspan) ht
      rfl
    | some q =>
      obtain rfl := exec_unique (exec_rbHasspan_of_some h.init hheld hspan) ht
      rfl
  case inr.inr.inr.inr =>
    by_cases hvalid : s.operands.a2.toNat + s.operands.a3.toNat ≤ s.params.memSize
    · cases hspan : findSpan d held with
      | none =>
        obtain rfl := exec_unique (exec_rbDeqspan_of_none h.init hvalid hheld hspan) ht
        rfl
      | some q =>
        by_cases hfits : q.2 - q.1 + 1 ≤ s.operands.a3.toNat
        · obtain rfl := exec_unique (exec_rbDeqspan_of_fits h.init hvalid hheld hspan hfits) ht
          exact extractBytes_modelFaults ..
        · obtain rfl := exec_unique (exec_rbDeqspan_of_overflow h.init hvalid hheld hspan (Nat.lt_of_not_le hfits)) ht
          rfl
    · obtain rfl := exec_unique (exec_eq_of_invalid rfl h.init (Nat.lt_of_not_le hvalid)) ht
      rfl

/-! ### The queue over a sequence of commands -/

/-- A command that ends in a fault does not end `OK` (R173). -/
theorem code_ne_of_exec_eq_afterFault {i : Instr} {s t : State} {c : FaultCode}
    (hfault : exec i s = .next (s.afterFault c)) (ht : exec i s = .next t) (o : OutcomeCode) : t.code ≠ .outcome o := by
  obtain rfl := exec_unique hfault ht
  exact nofun

/-- An `RB_ADD` that ends `OK` appends its source (R137, R141). -/
theorem State.RingReady.heldBytes_of_rbAdd_ok {s t : State} (h : s.RingReady) (ht : exec .rbAdd s = .next t)
    (hok : t.code = .outcome .ok) {src held : Bytes} (hlen : src.length = s.operands.a1.toNat)
    (hsrc : Holds s.mem s.operands.a0.toNat src) (hheld : heldBytes s = some held) :
    t.RingReady ∧ heldBytes t = some (held ++ src) := by
  by_cases hvalid : s.operands.a0.toNat + s.operands.a1.toNat ≤ s.params.memSize
  · by_cases hroom : s.operands.a1.toNat ≤ s.free
    · obtain rfl := exec_unique (exec_rbAdd_of_room h.init hvalid hroom hlen hsrc) ht
      have hfit := h.count_add_le_cap (hlen.trans_le hroom)
      exact ⟨(h.appendBytes hfit).1, h.heldBytes_appendBytes hfit hheld⟩
    · have hfault := exec_rbAdd_of_overflow h.init hvalid (Nat.lt_of_not_le hroom)
      exact absurd hok (code_ne_of_exec_eq_afterFault hfault ht _)
  · have hfault := exec_eq_of_invalid (i := .rbAdd) rfl h.init (Nat.lt_of_not_le hvalid)
    exact absurd hok (code_ne_of_exec_eq_afterFault hfault ht _)

/-- An `RB_DEQ` that ends `OK` removes what it wrote, the oldest bytes (R138, R141). -/
theorem State.RingReady.heldBytes_of_rbDeq_ok {s t : State} (h : s.RingReady) (ht : exec .rbDeq s = .next t)
    (hok : t.code = .outcome .ok)
    (hclear : Disjoint s.operands.a2.toNat s.operands.a1.toNat s.rbBase.toNat s.rbCap.toNat) {out held : Bytes}
    (hlen : out.length = t.res0.toNat) (hout : Holds t.mem s.operands.a2.toNat out) (hheld : heldBytes s = some held) :
    t.RingReady ∧ ∃ rest, heldBytes t = some rest ∧ held = out ++ rest := by
  by_cases hvalid : s.operands.a2.toNat + s.operands.a1.toNat ≤ s.params.memSize
  · obtain ⟨n, hn⟩ : ∃ n, n = min s.operands.a1.toNat s.count := ⟨_, rfl⟩
    have hle : n ≤ s.count := hn ▸ Nat.min_le_right ..
    obtain rfl := exec_unique (exec_rbDeq_of_valid h.init hvalid hheld hn) ht
    have hlen' := (heldBytes_eq_some.1 hheld).1
    have htake : (held.take s.operands.a1.toNat).length = n := by rw [List.length_take, hn, hlen']
    obtain rfl : out = held.take s.operands.a1.toNat := by
      refine hout.unique (Memory.storedAt_writeRange ..).1 ?_
      rw [hlen, htake]
      exact toNat_ofNat_of_le (hle.trans h.count_le)
    refine ⟨(h.extractBytes hle ..).1, _,
      h.heldBytes_extractBytes hle hheld _ _ (hclear.of_le (List.length_take_le ..)), ?_⟩
    rw [hn, drop_min_count hheld, List.take_append_drop]
  · have hfault := exec_eq_of_invalid (i := .rbDeq) rfl h.init (Nat.lt_of_not_le hvalid)
    exact absurd hok (code_ne_of_exec_eq_afterFault hfault ht _)

/-- An `RB_DEQSPAN` that ends `OK` removes the bytes before the span, `RES1` of them, and the span it wrote (R140,
R141). -/
theorem State.RingReady.heldBytes_of_rbDeqspan_ok {d : Byte} {s t : State} (h : s.RingReady)
    (ht : exec (.rbDeqspan d) s = .next t) (hok : t.code = .outcome .ok)
    (hclear : Disjoint s.operands.a2.toNat s.operands.a3.toNat s.rbBase.toNat s.rbCap.toNat) {out held : Bytes}
    (hlen : out.length = t.res0.toNat) (hout : Holds t.mem s.operands.a2.toNat out) (hheld : heldBytes s = some held) :
    t.RingReady ∧ ∃ rest, heldBytes t = some rest ∧ held = held.take t.res1.toNat ++ out ++ rest := by
  by_cases hvalid : s.operands.a2.toNat + s.operands.a3.toNat ≤ s.params.memSize
  · cases hspan : findSpan d held with
    | none =>
      obtain rfl := exec_unique (exec_rbDeqspan_of_none h.init hvalid hheld hspan) ht
      cases hok
    | some q =>
      obtain ⟨i, j⟩ := q
      by_cases hfits : j - i + 1 ≤ s.operands.a3.toNat
      · obtain rfl := exec_unique (exec_rbDeqspan_of_fits h.init hvalid hheld hspan hfits) ht
        have hfirst := findSpan_eq_some.1 hspan
        obtain ⟨hij, hj⟩ := hfirst.bounds hheld
        obtain ⟨hres0, hres1⟩ := hfirst.results_toNat h hheld
        have hheldLen := (heldBytes_eq_some.1 hheld).1
        obtain rfl : out = (held.drop i).take (j - i + 1) := by
          refine hout.unique (Memory.storedAt_writeRange ..).1 (hlen.trans (hres0.trans ?_))
          rw [List.length_take, List.length_drop]
          omega
        refine ⟨(h.extractBytes hj ..).1, _,
          h.heldBytes_extractBytes hj hheld _ _ (hclear.of_le ((List.length_take_le ..).trans hfits)), ?_⟩
        change held = held.take (BitVec.ofNat 32 i).toNat ++ _ ++ _
        rw [hres1, ← List.take_add, show i + (j - i + 1) = j + 1 by omega, List.take_append_drop]
      · obtain rfl := exec_unique (exec_rbDeqspan_of_overflow h.init hvalid hheld hspan (Nat.lt_of_not_le hfits)) ht
        cases hok
  · have hfault := exec_eq_of_invalid (i := .rbDeqspan d) rfl h.init (Nat.lt_of_not_le hvalid)
    exact absurd hok (code_ne_of_exec_eq_afterFault hfault ht _)

/-- Settles O55, by induction on the run: each command keeps "what was added is what was removed followed by what the
ring holds". -/
theorem ringIsAFifoQueue : Obligations.RingIsAFifoQueue := by
  intro s t added removed hs hempty hrun
  suffices hqueue : t.RingReady ∧ ∃ held, heldBytes t = some held ∧ added = removed ++ held by
    obtain ⟨hready, held, hheld, hadded⟩ := hqueue
    exact ⟨hready, held, hheld, hadded, (heldBytes_eq_some.1 hheld).1⟩
  induction hrun with
  | start =>
    obtain ⟨held, hheld⟩ := hs.heldBytes_isSome
    have hlen := (heldBytes_eq_some.1 hheld).1
    exact ⟨hs, held, hheld, (List.length_eq_zero_iff.1 (hlen.trans hempty)).symm⟩
  | between _ hsame ih =>
    obtain ⟨hready, held, hheld, hadded⟩ := ih
    exact ⟨hsame.ringReady hready, held, (hsame.heldBytes_eq hready).trans hheld, hadded⟩
  | add _ hp hexec hok _ hlen hsrc ih =>
    obtain ⟨hready, held, hheld, rfl⟩ := ih
    rw [← operands_of_pending hp] at hlen hsrc
    obtain ⟨hready', hheld'⟩ := hready.heldBytes_of_rbAdd_ok hexec hok hlen hsrc hheld
    exact ⟨hready', _, hheld', List.append_assoc ..⟩
  | deq _ hp hexec hok _ hclear hlen hout ih =>
    obtain ⟨hready, held, hheld, rfl⟩ := ih
    rw [← operands_of_pending hp] at hclear hout
    obtain ⟨hready', rest, hheld', hsplit⟩ := hready.heldBytes_of_rbDeq_ok hexec hok hclear hlen hout hheld
    exact ⟨hready', rest, hheld', by rw [hsplit, List.append_assoc]⟩
  | deqspan _ hp hexec hok _ hclear hheld hlen hout ih =>
    obtain ⟨hready, _, hheldIh, rfl⟩ := ih
    cases hheldIh.symm.trans hheld
    rw [← operands_of_pending hp] at hclear hout
    obtain ⟨hready', rest, hheld', hsplit⟩ := hready.heldBytes_of_rbDeqspan_ok hexec hok hclear hlen hout hheld
    refine ⟨hready', rest, hheld', ?_⟩
    conv_lhs => rw [hsplit]
    simp only [List.append_assoc]

/-! ### Frames -/

/-- Two delimiters around a body with none in it bound the first span of what starts with them (R132, R142). -/
theorem isFirstSpan_delimited {d : Byte} {body : Bytes} (hbody : d ∉ body) (hne : body ≠ []) (rest : Bytes) :
    IsFirstSpan d (d :: body ++ [d] ++ rest) 0 (body.length + 1) := by
  have hinside (k : Nat) (hk : 0 < k) (hkl : k < body.length + 1) : (d :: body ++ [d] ++ rest)[k]? ≠ some d := by
    obtain ⟨k, rfl⟩ := Nat.exists_eq_add_one.2 hk
    rw [List.append_assoc, List.getElem?_append_left (by simpa using hkl), List.getElem?_cons_succ]
    exact fun h => hbody (List.mem_of_getElem? h)
  have hlen := List.length_pos_iff.2 hne
  refine ⟨⟨by omega, rfl, by simp, fun k hk hkl => hinside k hk hkl⟩, fun i j hspan => ?_⟩
  obtain ⟨hfar, hj, -⟩ := isSpan_iff.1 hspan
  by_contra hlt
  exact hinside j (by omega) (by omega) hj

/-- Settles O56: a frame made by `ENCPKT` has a delimiter at each end and none between (R102 (a), R105), so it is the
first span. -/
theorem framesLeaveTheRingWhole : Obligations.FramesLeaveTheRingWhole := by
  intro s p pkt rest hp h hheld hvalid hroom hclear
  obtain ⟨b, tl, -, hcons⟩ := encodeRaw_eq_cons pkt
  have hfirst := isFirstSpan_delimited (encodedStreamHasNoDelimiter pkt) (by simp [hcons]) rest
  obtain ⟨-, hdeqspan⟩ := rbDeqspanDeliversTheFirstSpan 0x00
  obtain ⟨-, -, hready⟩ := hdeqspan s p hp
  obtain ⟨-, hdelivers⟩ := hready _ h hvalid hheld
  obtain ⟨r0, r1, hr0, hr1, -, hfits⟩ := hdelivers _ _ hfirst
  obtain ⟨t, m, tail, hexec, rfl, -, -, hstored, hrest⟩ := hfits hroom
  have hlen : (0x00 :: encodeRaw pkt ++ [0x00]).length = (encodeRaw pkt).length + 1 + 1 := by simp
  rw [List.drop_zero, Nat.sub_zero, List.take_left' hlen] at hstored
  rw [List.drop_left' hlen] at hrest
  exact ⟨_, hexec, rfl, hr0, BitVec.eq_of_toNat_eq hr1, hstored.1, hrest hclear⟩

end Sys2Proof.Machine

/-! ## The checksum: the command in every case, and the CRC of data followed by its own CRC -/

namespace Sys2Proof.Machine

/-! ### R160's loop -/

/-- The bit-shifts of one byte are the iterated bit-shift (R160). -/
theorem crcShifts_eq_iterate (n : Nat) (c : BitVec 16) : crcShifts n c = crcShift^[n] c := by
  induction n generalizing c with
  | zero => rfl
  | succ n ih => exact ih (crcShift c)

/-- `Crc16` with its byte step written out (R160). -/
theorem crc16_eq_foldl_iterate (data : Bytes) :
    crc16 data = data.foldl (fun crc b => crcShift^[8] (crc ^^^ b.setWidth 16)) 0xFFFF := by
  have hbyte : crcByte = fun crc b => crcShift^[8] (crc ^^^ b.setWidth 16) :=
    funext₂ fun _ _ => crcShifts_eq_iterate ..
  rw [crc16, hbyte, crcInit]

/-- Bit-shifts that shift out zeros only never add the polynomial (R160). -/
theorem crcShifts_of_low_zero {n : Nat} {c : BitVec 16} (h : ∀ i < n, c.getLsbD i = false) :
    crcShifts n c = c >>> n := by
  induction n generalizing c with
  | zero => rfl
  | succ n ih =>
    have hshift : crcShift c = c >>> 1 := if_neg (ne_true_of_eq_false (h 0 n.succ_pos))
    have hlow (i : Nat) (hi : i < n) : (c >>> 1).getLsbD i = false := by
      rw [BitVec.getLsbD_ushiftRight]
      exact h (1 + i) (by omega)
    rw [crcShifts, hshift, ih hlow, ← BitVec.shiftRight_add, Nat.add_comm]

/-- A byte equal to the register's low byte cancels it and leaves the high byte (R160). -/
theorem crcByte_low (c : BitVec 16) : crcByte c (c.extractLsb' 0 8) = c >>> 8 := by
  have hlow (i : Nat) (hi : i < 8) : (c ^^^ (c.extractLsb' 0 8).setWidth 16).getLsbD i = false := by
    simp [hi, show i < 16 by omega]
  rw [crcByte, crcShifts_of_low_zero hlow]
  ext i hi
  simp

/-- A byte equal to the high byte the register had cancels what the low byte left (R160). -/
theorem crcByte_high (c : BitVec 16) : crcByte (c >>> 8) (c.extractLsb' 8 8) = 0 := by
  have hhigh : (c.extractLsb' 8 8).setWidth 16 = c >>> 8 := by
    ext i hi
    have hbit (h : c.getLsbD (8 + i) = true) : i < 8 :=
      Nat.lt_of_add_lt_add_left (BitVec.lt_of_getLsbD h : 8 + i < 8 + 8)
    simpa using hbit
  rw [crcByte, hhigh, BitVec.xor_self, crcShifts_of_low_zero (by simp)]
  rfl

/-- Settles O44: the two CRC bytes cancel the register's low byte, then its high byte. -/
theorem crcOfDataAndItsCrcIsZero : Obligations.CrcOfDataAndItsCrcIsZero := by
  intro data
  calc crc16 (data ++ [(crc16 data).extractLsb' 0 8, (crc16 data).extractLsb' 8 8])
      = crcByte (crcByte (crc16 data) ((crc16 data).extractLsb' 0 8)) ((crc16 data).extractLsb' 8 8) :=
        List.foldl_append
    _ = 0 := by rw [crcByte_low, crcByte_high]

/-! ### `CRC16` -/

/-- `CRC16` of a range that is not valid (R54, R161). -/
theorem exec_crc16_of_invalid {s : State} (h : s.params.memSize < s.operands.a0.toNat + s.operands.a1.toNat) :
    exec .crc16 s = .next (s.afterFault .badRange) :=
  congrArg Host.Outcome.next ((withSource_of_invalid _ h).trans (raiseFault_eq_afterFault ..))

/-- `CRC16` of a source with an undefined byte (R57, R161). -/
theorem exec_crc16_of_undefined {s : State} (hvalid : s.operands.a0.toNat + s.operands.a1.toNat ≤ s.params.memSize)
    (h : UndefinedIn s.mem s.operands.a0.toNat s.operands.a1.toNat) : exec .crc16 s = .next (undefinedRead s) :=
  congrArg Host.Outcome.next ((withSource_of_valid _ hvalid).trans (readSource_of_undefined _ h))

/-- `CRC16` of a defined source (R161). -/
theorem exec_crc16_of_holds {s : State} (hvalid : s.operands.a0.toNat + s.operands.a1.toNat ≤ s.params.memSize)
    {data : Bytes} (hlen : data.length = s.operands.a1.toNat) (hdata : Holds s.mem s.operands.a0.toNat data) :
    exec .crc16 s = .next (finish .ok ((crc16 data).setWidth 32) 0 Dstat.zero s) :=
  congrArg Host.Outcome.next ((withSource_of_valid _ hvalid).trans (readSource_of_holds _ hlen hdata))

/-- Settles O42: `CRC16` answers `Crc16` of its source, byte step and all (R160). -/
theorem crc16AnswersTheChecksum : Obligations.Crc16AnswersTheChecksum := by
  refine ⟨rfl, fun s p hp => ?_⟩
  rw [← operands_of_pending hp]
  refine ⟨exec_crc16_of_invalid, fun hvalid => ⟨fun hundef => ?_, fun data hlen hdata => ?_⟩⟩
  · exact ⟨_, exec_crc16_of_undefined hvalid hundef, undefinedRead_records s⟩
  · rw [exec_crc16_of_holds hvalid hlen hdata, crc16_eq_foldl_iterate]
    rfl

/-- Settles O43: both answers are the CRC of the same bytes. -/
theorem crc16IsDeterminedByItsBytes : Obligations.Crc16IsDeterminedByItsBytes := by
  intro s s' p p' data hp hp' hvalid hvalid' hlen hlen' hdata hdata'
  rw [← operands_of_pending hp] at hvalid hlen hdata
  rw [← operands_of_pending hp'] at hvalid' hlen' hdata'
  exact ⟨_, _, exec_crc16_of_holds hvalid hlen hdata, exec_crc16_of_holds hvalid' hlen' hdata', rfl⟩

end Sys2Proof.Machine

/-! ## Faults and completions: refused accesses, the ways a command ends, the sticky record, the order of causes -/

namespace Sys2Proof.Machine

/-! ### No state is stuck -/

/-- The engine's step answers a next state, for a legal word and an illegal one (R58, R75). -/
theorem engineStep_next (p : Pending) (s : State) : ∃ t, engineStep p s = .next t := by
  cases h : decode p.word with
  | ok i => rw [engineStep_of_decode h]; exact exec_next i s
  | error e => exact ⟨_, engineStep_of_decode_error h s⟩

/-- Settles O6: the engine's step, a host event and the idle step each answer a next state. -/
theorem everyStepGoesOn : Obligations.EveryStepGoesOn := by
  intro s
  rcases step_cases s with ⟨p, -, h⟩ | ⟨e, rest, -, h⟩ | ⟨-, -, h⟩ <;> rw [h]
  · exact engineStep_next p s
  · exact ⟨_, rfl⟩
  · exact ⟨_, rfl⟩

/-! ### Host accesses the block refuses -/

/-- Recording a fault, in the statements' own words (R174). -/
theorem recordFault_eq (c : FaultCode) (s : State) :
    recordFault c s = { s with fault := true, fcause := s.fcauseAfter c } := by
  rw [recordFault, firstCause_eq_fcauseAfter]

/-- Settles O13: a busy block answers the write to `CMD` by recording the fault. -/
theorem cmdWriteWhileBusyIsRefused : Obligations.CmdWriteWhileBusyIsRefused := by
  intro s p w rest hp hdue
  have hbusy : (advanceHost rest s).busy = true := by simp [State.busy, hp]
  rw [step_regWrite hdue (r := .cmd) rfl, hostWriteReg, hostWriteCmd, if_pos hbusy, recordFault_eq,
    advanceHost_of_pending hp]
  rfl

/-- A register access that reaches no register is one R51 or the reserved slots refuse (R21, R51). -/
theorem regAccess_eq_none {width : Nat} {offset : BitVec 6} :
    regAccess width offset = none ↔ width ≠ 4 ∨ offset.toNat % 4 ≠ 0 ∨ offset = 0x38 ∨ offset = 0x3C := by
  rw [← regAt_eq_none, regAccess]
  split <;> simp [*]

/-- The register an access reaches is the one at its offset (R21). -/
theorem offset_of_regAccess {width : Nat} {offset : BitVec 6} {r : Reg} (h : regAccess width offset = some r) :
    r.offset = offset := by
  rw [regAccess] at h
  split at h
  · exact offset_of_regAt h
  · cases h

/-- A write to a read-only register only records `BAD_ACCESS` (R21, R176). -/
theorem hostWriteReg_of_readOnly {r : Reg} (h : r.offset = 0x04 ∨ 0x18 ≤ r.offset.toNat) (v : Word) (s : State) :
    hostWriteReg r v s = recordFault .badAccess s := by
  cases r with
  | cmd | arg0 | arg1 | arg2 | arg3 => exact absurd h (by decide)
  | _ => rfl

/-- A refused register write (R21, R51, R176). -/
theorem hostRegWrite_of_refused {p : Params} {width : Nat} {offset : BitVec 6} {v : Word}
    (h : RefusedAccess p (.regWrite width offset v)) (s : State) :
    hostRegWrite width offset v s = badAccess .written s := by
  rw [hostRegWrite]
  cases hr : regAccess width offset with
  | none => rfl
  | some r =>
    have hreach : ¬(width ≠ 4 ∨ offset.toNat % 4 ≠ 0 ∨ offset = 0x38 ∨ offset = 0x3C) := by
      rw [← regAccess_eq_none, hr]
      exact nofun
    have hreadOnly : r.offset = 0x04 ∨ 0x18 ≤ r.offset.toNat := by
      rw [offset_of_regAccess hr]
      simp only [RefusedAccess] at h
      tauto
    exact congrArg (respond .written) (hostWriteReg_of_readOnly hreadOnly v s)

/-- A refused register read (R21, R51, R176). -/
theorem hostRegRead_of_refused {p : Params} {width : Nat} {offset : BitVec 6}
    (h : RefusedAccess p (.regRead width offset)) (s : State) :
    hostRegRead width offset s = badAccess (.data 0) s := by
  rw [hostRegRead, regAccess_eq_none.2 h]

/-- A refused write to `M`, which may be the hazard of R205 too (R52, R176). -/
theorem hostMemWrite_of_refused {s : State} {width addr : Nat} {v : Word}
    (h : RefusedAccess s.params (.memWrite width addr v)) :
    hostMemWrite width addr v s = badAccess .written (noteBusyAccess s) := by
  rw [hostMemWrite, if_neg fun hlegal => (memAccessLegal_iff_write s width addr v).1 hlegal h]

/-- A refused read of `M`, which may be the hazard of R205 too (R52, R176). -/
theorem hostMemRead_of_refused {s : State} {width addr : Nat} (h : RefusedAccess s.params (.memRead width addr)) :
    hostMemRead width addr s = badAccess (.data 0) (noteBusyAccess s) := by
  rw [hostMemRead, if_neg fun hlegal => (memAccessLegal_iff_read s width addr).1 hlegal h]

/-- Noting the hazard of R205 touches the model-only record and nothing else. -/
theorem noteBusyAccess_eq (s : State) :
    noteBusyAccess s = { s with modelFaults := (noteBusyAccess s).modelFaults } := by
  rw [noteBusyAccess]
  split <;> rfl

/-- A refused host event is a `badAccess`, beside which only an access to `M` while busy changes the model-only record
(R176, R205). -/
theorem hostStep_of_refused {s : State} {e : HostEvent} {rest : List HostEvent} (hhost : s.host = e :: rest)
    (h : RefusedAccess s.params e) :
    ∃ record, (s.pending = none ∨ ¬e.touchesMemory → record = s.modelFaults)
      ∧ hostStep s = badAccess e.refusedResponse { advanceHost rest s with modelFaults := record } := by
  have hidle (hp : s.pending = none) : (noteBusyAccess (advanceHost rest s)).modelFaults = s.modelFaults := by
    rw [noteBusyAccess_of_idle (by simp [hp]), advanceHost_modelFaults]
  rw [hostStep, hhost]
  cases e with
  | regWrite width offset v => exact ⟨_, fun _ => rfl, hostRegWrite_of_refused h _⟩
  | regRead width offset => exact ⟨_, fun _ => rfl, hostRegRead_of_refused h _⟩
  | memWrite width addr v =>
    refine ⟨_, fun hquiet => hidle (hquiet.resolve_right (not_not_intro trivial)), ?_⟩
    rw [← noteBusyAccess_eq]
    exact hostMemWrite_of_refused h
  | memRead width addr =>
    refine ⟨_, fun hquiet => hidle (hquiet.resolve_right (not_not_intro trivial)), ?_⟩
    rw [← noteBusyAccess_eq]
    exact hostMemRead_of_refused h
  | wait | reset => exact h.elim

/-- Settles O15: the step of a refused access is a `badAccess`. -/
theorem refusedAccessesRecordBadAccess : Obligations.RefusedAccessesRecordBadAccess := by
  intro s e rest hdue hrefused
  obtain ⟨record, hrecord, hstep⟩ := hostStep_of_refused hdue.1 hrefused
  refine ⟨record, hrecord, ?_⟩
  rw [step_of_hostDue hdue, hstep, badAccess, recordFault_eq]
  rfl

/-! ### The ways a command ends, and its codes -/

/-- Settles O21: the three ways are the constructors of `Ends`. -/
theorem commandsEndInOneOfThreeWays : Obligations.CommandsEndInOneOfThreeWays := by
  intro i s t h
  cases exec_ends h with
  | fault c _ => exact .inl ⟨c, raiseFault_eq_afterFault c s⟩
  | undefined =>
    exact .inr (.inl ⟨_, mem_recordModelFault .undefinedRead s, fun _ hf => mem_recordModelFault_of_mem hf, rfl⟩)
  | finished c r0 r1 d u _ hd hu =>
    cases hu
    exact .inr (.inr ⟨⟨c, rfl⟩, rfl, rfl, rfl, rfl, hd⟩)

/-- A new fault code is one the command may raise (R170). -/
theorem mayRaise_of_code {i : Instr} {s t : State} (h : exec i s = .next t) (hnew : t.code ≠ s.code) {c : FaultCode}
    (hc : t.code = .fault c) : MayRaise i c := by
  cases exec_ends h with
  | fault c' hmay => cases hc; exact hmay
  | undefined => exact absurd rfl hnew
  | finished => cases hc

/-- A new outcome code is one the command may answer (R170). -/
theorem mayAnswer_of_code {i : Instr} {s t : State} (h : exec i s = .next t) (hnew : t.code ≠ s.code) {c : OutcomeCode}
    (hc : t.code = .outcome c) : MayAnswer i c := by
  cases exec_ends h with
  | fault => cases hc
  | undefined => exact absurd rfl hnew
  | finished c' _ _ _ _ hmay => cases hc; exact hmay

/-- Settles O22: each clause is a row of `MayAnswer` or of `MayRaise`. -/
theorem codesComeOnlyFromTheirCommands : Obligations.CodesComeOnlyFromTheirCommands := fun _ _ _ h hnew =>
  ⟨mayAnswer_of_code h hnew, mayAnswer_of_code h hnew, mayAnswer_of_code h hnew, mayRaise_of_code h hnew,
    mayRaise_of_code h hnew, mayRaise_of_code h hnew, mayRaise_of_code h hnew, mayRaise_of_code h hnew,
    mayRaise_of_code h hnew, mayRaise_of_code h hnew⟩

/-! ### The sticky fault record -/

/-- From `s` to `t` no recorded fault is lost: `FAULT` stays set, `FCAUSE` keeps its code, the model-only record keeps its
faults (R32, R174). -/
def KeepsFaultRecord (s t : State) : Prop :=
  (s.fault = true → t.fault = true) ∧ (∀ c, s.fcause = some c → t.fcause = some c)
    ∧ ∀ f ∈ s.modelFaults, f ∈ t.modelFaults

theorem KeepsFaultRecord.refl (s : State) : KeepsFaultRecord s s := ⟨id, fun _ h => h, fun _ h => h⟩

theorem HostChanged.keepsFaultRecord {s t : State} (h : HostChanged s t) : KeepsFaultRecord s t := by
  obtain ⟨_, _, _, _, _, _, _, _, _, _, _, _, _, hf, hc, hm⟩ := h
  exact ⟨hf, hc, hm⟩

/-- The fault completion keeps an earlier first cause (R173, R174). -/
theorem keepsFaultRecord_raiseFault (c : FaultCode) (s : State) : KeepsFaultRecord s (raiseFault c s) :=
  ⟨fun _ => rfl, fun _ h => by rw [raiseFault_fcause, h, firstCause], fun _ h => h⟩

theorem keepsFaultRecord_exec {i : Instr} {s t : State} (h : exec i s = .next t) : KeepsFaultRecord s t := by
  cases exec_ends h with
  | fault c _ => exact keepsFaultRecord_raiseFault c s
  | undefined => exact ⟨id, fun _ h => h, fun _ h => mem_recordModelFault_of_mem h⟩
  | finished c r0 r1 d u _ _ hu =>
    cases hu
    exact .refl s

theorem keepsFaultRecord_engineStep {p : Pending} {s t : State} (h : engineStep p s = .next t) :
    KeepsFaultRecord s t := by
  rw [engineStep] at h
  split at h
  · exact keepsFaultRecord_exec h
  · cases h
    exact keepsFaultRecord_raiseFault .illegalCmd s

/-- Settles O26: the engine's step, a host event that is not reset and the idle step each keep the record. -/
theorem faultRecordIsStickyUntilReset : Obligations.FaultRecordIsStickyUntilReset := by
  intro s t hnoReset ht
  change KeepsFaultRecord s t
  rcases step_cases s with ⟨p, -, hstep⟩ | ⟨e, rest, hdue, -⟩ | ⟨-, -, hstep⟩
  · exact keepsFaultRecord_engineStep (hstep ▸ ht)
  · have he : e ≠ .reset := by
      rintro rfl
      exact hnoReset rest hdue
    exact (hostChanged_of_hostDue hdue he ht).keepsFaultRecord
  · rw [hstep] at ht
    cases ht
    exact .refl s

/-! ### The order of causes -/

/-- A codec command is what it does with its source, behind the checks of both ranges (R77, R175). -/
theorem exec_codec {i : Instr} (hi : i = .enc ∨ i = .dec ∨ i = .encpkt ∨ i = .decpkt) (s : State) :
    ∃ k, exec i s = .next (withSourceAndDest s k) := by
  rcases hi with rfl | rfl | rfl | rfl <;> exact ⟨_, rfl⟩

/-- A codec command with an invalid source or destination range (R54, R175). -/
theorem exec_codec_of_invalid {i : Instr} (hi : i = .enc ∨ i = .dec ∨ i = .encpkt ∨ i = .decpkt) {s : State} {p : Pending}
    (hp : s.pending = some p)
    (h : s.params.memSize < p.args.a0.toNat + p.args.a1.toNat ∨ s.params.memSize < p.args.a2.toNat + p.args.a3.toNat) :
    exec i s = .next (s.afterFault .badRange) := by
  obtain ⟨k, hk⟩ := exec_codec hi s
  exact (codecCommand_cases hp hk id).1 h

/-- A codec command with valid ranges and an undefined source byte (R57, R175). -/
theorem exec_codec_of_undefined {i : Instr} (hi : i = .enc ∨ i = .dec ∨ i = .encpkt ∨ i = .decpkt) {s : State}
    {p : Pending} (hp : s.pending = some p) (hsrc : p.args.a0.toNat + p.args.a1.toNat ≤ s.params.memSize)
    (hdst : p.args.a2.toNat + p.args.a3.toNat ≤ s.params.memSize)
    (hundef : UndefinedIn s.mem p.args.a0.toNat p.args.a1.toNat) :
    ∃ t, exec i s = .next t ∧ RecordsUndefinedRead s t := by
  obtain ⟨k, hk⟩ := exec_codec hi s
  exact ((codecCommand_cases hp hk id).2 hsrc hdst).1 hundef

/-- `RB_ADD` of a source there is room for that has an undefined byte (R57, R137, R175). -/
theorem exec_rbAdd_of_undefined {s : State} (hinit : s.init = true)
    (hvalid : s.operands.a0.toNat + s.operands.a1.toNat ≤ s.params.memSize) (hroom : s.operands.a1.toNat ≤ s.free)
    (h : UndefinedIn s.mem s.operands.a0.toNat s.operands.a1.toNat) : exec .rbAdd s = .next (undefinedRead s) := by
  rw [exec_eq_of_valid (i := .rbAdd) rfl hinit hvalid, if_neg (Nat.not_lt.2 hroom), readSource_of_undefined _ h]

/-- The gated ring commands before initialisation, whatever their operands (R133, R175). -/
theorem exec_gated_of_not_init {s : State} {i : Instr} (hinit : s.init = false)
    (hi : i = .rbEmpty ∨ i = .rbAdd ∨ i = .rbDeq ∨ (∃ d, i = .rbHasspan d) ∨ ∃ d, i = .rbDeqspan d) :
    exec i s = .next (s.afterFault .rbUninit) := by
  rcases hi with rfl | rfl | rfl | ⟨d, rfl⟩ | ⟨d, rfl⟩ <;> exact exec_eq_of_not_init rfl hinit

/-- A command with an invalid range `(a0, a1)`: the codec commands, `CRC16` and `RB_ADD` (R54, R175). -/
theorem exec_of_invalid_source {s : State} {p : Pending} {i : Instr} (hp : s.pending = some p)
    (hi : i = .enc ∨ i = .dec ∨ i = .encpkt ∨ i = .decpkt ∨ i = .crc16 ∨ (i = .rbAdd ∧ s.init = true))
    (h : s.params.memSize < p.args.a0.toNat + p.args.a1.toNat) : exec i s = .next (s.afterFault .badRange) := by
  have hops : s.params.memSize < s.operands.a0.toNat + s.operands.a1.toNat := by rwa [operands_of_pending hp]
  obtain hcodec | rfl | ⟨rfl, hinit⟩ : (i = .enc ∨ i = .dec ∨ i = .encpkt ∨ i = .decpkt) ∨ i = .crc16
      ∨ (i = .rbAdd ∧ s.init = true) := by tauto
  · exact exec_codec_of_invalid hcodec hp (.inl h)
  · exact exec_crc16_of_invalid hops
  · exact exec_eq_of_invalid rfl hinit hops

/-- A command with an invalid destination `(a2, a3)`: the codec commands and `RB_DEQSPAN` (R54, R175). -/
theorem exec_of_invalid_dest {s : State} {p : Pending} {i : Instr} (hp : s.pending = some p)
    (hi : i = .enc ∨ i = .dec ∨ i = .encpkt ∨ i = .decpkt ∨ ((∃ d, i = .rbDeqspan d) ∧ s.init = true))
    (h : s.params.memSize < p.args.a2.toNat + p.args.a3.toNat) : exec i s = .next (s.afterFault .badRange) := by
  obtain hcodec | ⟨⟨d, rfl⟩, hinit⟩ : (i = .enc ∨ i = .dec ∨ i = .encpkt ∨ i = .decpkt)
      ∨ ((∃ d, i = .rbDeqspan d) ∧ s.init = true) := by tauto
  · exact exec_codec_of_invalid hcodec hp (.inr h)
  · rw [← operands_of_pending hp] at h
    exact exec_eq_of_invalid rfl hinit h

/-- Settles O27: each clause is the lemma of its command and cause. -/
theorem firstCauseInPriorityOrderIsReported : Obligations.FirstCauseInPriorityOrderIsReported := by
  refine ⟨fun s p e hdue hdecode => ?illegalCmd, fun s i => exec_gated_of_not_init, fun s p i hp hcause => ?badRange,
    fun s p hp hcap => ?badCap, fun s p hp hinit hvalid hlong => ?rbOverflow,
    fun s p i hp hvalid hundef hi => ?undefinedRead,
    fun s p input hp hsrc hdst hlen hbytes => ⟨fun hlong => ?dec, fun hbad => ?decpkt⟩,
    fun s p d held hp hinit hvalid hheld hnone => ?rbDeqspan⟩
  case illegalCmd => rw [step_of_engineDue hdue, engineStep_of_decode_error hdecode]
  case badRange =>
    rcases hcause with ⟨hi, h⟩ | ⟨hi, h⟩ | ⟨rfl, hinit, h⟩
    · exact exec_of_invalid_source hp hi h
    · exact exec_of_invalid_dest hp hi h
    · rw [← operands_of_pending hp] at h
      exact exec_eq_of_invalid rfl hinit h
  case badCap =>
    rw [← operands_of_pending hp] at hcap
    exact exec_rbInit_of_badCap hcap
  case rbOverflow =>
    rw [← operands_of_pending hp] at hvalid hlong
    exact exec_rbAdd_of_overflow hinit hvalid hlong
  case undefinedRead =>
    rcases hi with rfl | ⟨hi, hdst⟩ | ⟨rfl, hinit, hroom⟩
    · rw [← operands_of_pending hp] at hvalid hundef
      exact ⟨_, exec_crc16_of_undefined hvalid hundef, undefinedRead_records s⟩
    · exact exec_codec_of_undefined hi hp hvalid hdst hundef
    · rw [← operands_of_pending hp] at hvalid hundef hroom
      exact ⟨_, exec_rbAdd_of_undefined hinit hvalid hroom hundef, undefinedRead_records s⟩
  case dec =>
    have hnext := ((codecCommand_cases (i := .dec) hp rfl id).2 hsrc hdst).2 input hlen hbytes
    exact ⟨_, hnext, congrArg State.code (deliver_eq_of_overflow hp _ _ _ hlong)⟩
  case decpkt =>
    have hnext := ((codecCommand_cases (i := .decpkt) hp rfl id).2 hsrc hdst).2 input hlen hbytes
    exact ⟨_, hnext, by simp [hbad]⟩
  case rbDeqspan =>
    rw [← operands_of_pending hp] at hvalid
    exact ⟨_, exec_rbDeqspan_of_none hinit hvalid hheld (findSpan_eq_none.2 hnone), rfl⟩

end Sys2Proof.Machine

/-! ## Reset and hazards: the reset input, accesses to `M` while busy, and the end of every pending command -/

namespace Sys2Proof.Machine

/-! ### The reset input -/

/-- Settles O8: the host's turn with the reset input is `resetBlock`. -/
theorem resetInputAbandonsThePendingCommand : Obligations.ResetInputAbandonsThePendingCommand := by
  intro s rest hdue
  rw [step_of_hostDue hdue, hostStep, hdue.1]
  rfl

/-! ### Accesses to `M` while busy -/

/-- With a command pending, taking an event off the list leaves the command in the slot, one access nearer (R210). -/
theorem advanceHost_pending_of_pending {s : State} {p : Pending} (hp : s.pending = some p) (rest : List HostEvent) :
    (advanceHost rest s).pending = some { p with wait := p.wait - 1 } := by
  rw [advanceHost_pending, hp, Option.map_some]

/-- A busy block notes an access to `M` as the hazard of R205. -/
theorem noteBusyAccess_of_pending {s : State} {p : Pending} (hp : s.pending = some p) :
    noteBusyAccess s = recordModelFault .hostAccessWhileBusy s := by
  rw [noteBusyAccess, if_pos (busy_eq_true.2 ⟨p, hp⟩)]

/-- A write to `M` that the block would take while idle stores nothing while busy (R205). -/
theorem hostMemWrite_of_pending {s : State} {p : Pending} {width addr : Nat} {v : Word} (hp : s.pending = some p)
    (hlegal : memAccessLegal s width addr = true) :
    hostMemWrite width addr v s = respond .written (recordModelFault .hostAccessWhileBusy s) := by
  rw [hostMemWrite, if_pos hlegal, if_pos (busy_eq_true.2 ⟨p, hp⟩), noteBusyAccess_of_pending hp]

/-- A read of `M` that the block would answer while idle gives no value while busy; an undefined byte is recorded beside the
hazard (R57, R205). -/
theorem hostMemRead_of_pending {s : State} {p : Pending} {width addr : Nat} (hp : s.pending = some p)
    (hlegal : memAccessLegal s width addr = true) :
    hostMemRead width addr s = respond .noValue (recordModelFault .hostAccessWhileBusy s)
      ∨ hostMemRead width addr s
        = respond .noValue (recordModelFault .undefinedRead (recordModelFault .hostAccessWhileBusy s)) := by
  rw [hostMemRead, if_pos hlegal, busy_eq_true.2 ⟨p, hp⟩, noteBusyAccess_of_pending hp]
  cases s.mem.readRange addr width with
  | some bs => exact .inl rfl
  | none => exact .inr rfl

/-- A refused access to `M` while busy is a `badAccess` beside the hazard (R176, R205). -/
theorem hostStep_of_refused_of_pending {s : State} {p : Pending} {e : HostEvent} {rest : List HostEvent}
    (hp : s.pending = some p) (hhost : s.host = e :: rest) (hmem : e.touchesMemory) (h : RefusedAccess s.params e) :
    hostStep s = badAccess e.refusedResponse (recordModelFault .hostAccessWhileBusy (advanceHost rest s)) := by
  rw [← noteBusyAccess_of_pending (advanceHost_pending_of_pending hp rest), hostStep, hhost]
  cases e with
  | memWrite width addr v => exact hostMemWrite_of_refused h
  | memRead width addr => exact hostMemRead_of_refused h
  | regWrite | regRead | wait | reset => exact hmem.elim

/-- An allowed access to `M` while busy adds to the model-only record and gives no value; nothing is stored (R205). -/
theorem hostStep_of_allowed_of_pending {s : State} {p : Pending} {e : HostEvent} {rest : List HostEvent}
    (hp : s.pending = some p) (hhost : s.host = e :: rest) (hmem : e.touchesMemory) (h : ¬RefusedAccess s.params e) :
    ∃ record answer, .hostAccessWhileBusy ∈ record ∧ (∀ f ∈ s.modelFaults, f ∈ record) ∧ (∀ v, answer ≠ .data v)
      ∧ hostStep s = respond answer { advanceHost rest s with modelFaults := record } := by
  have hp' := advanceHost_pending_of_pending hp rest
  have hnoted := mem_recordModelFault .hostAccessWhileBusy (advanceHost rest s)
  have hkept : ∀ f ∈ s.modelFaults, f ∈ (recordModelFault .hostAccessWhileBusy (advanceHost rest s)).modelFaults :=
    fun _ hf => mem_recordModelFault_of_mem hf
  rw [hostStep, hhost]
  cases e with
  | memWrite width addr v =>
    exact ⟨_, .written, hnoted, hkept, nofun, hostMemWrite_of_pending hp' ((memAccessLegal_iff_write s width addr v).2 h)⟩
  | memRead width addr =>
    rcases hostMemRead_of_pending hp' ((memAccessLegal_iff_read s width addr).2 h) with hread | hread
    · exact ⟨_, .noValue, hnoted, hkept, nofun, hread⟩
    · exact ⟨_, .noValue, mem_recordModelFault_of_mem hnoted, fun f hf => mem_recordModelFault_of_mem (hkept f hf), nofun,
        hread⟩
  | regWrite | regRead | wait | reset => exact hmem.elim

/-- Settles O19: a refused access is a `badAccess` beside the hazard, an allowed one is the hazard alone. -/
theorem memoryAccessWhileBusyIsRecorded : Obligations.MemoryAccessWhileBusyIsRecorded := by
  intro s p e rest hp hdue hmem
  rw [step_of_hostDue hdue]
  by_cases hrefused : RefusedAccess s.params e
  · refine ⟨_, true, s.fcauseAfter .badAccess, e.refusedResponse, mem_recordModelFault .hostAccessWhileBusy s,
      fun _ hf => mem_recordModelFault_of_mem hf, absurd hrefused, fun _ => ⟨rfl, rfl, rfl⟩, ?_⟩
    rw [hostStep_of_refused_of_pending hp hdue.1 hmem hrefused, advanceHost_of_pending hp, badAccess, recordFault_eq]
    rfl
  · obtain ⟨record, answer, hnoted, hkept, hvalue, hstep⟩ := hostStep_of_allowed_of_pending hp hdue.1 hmem hrefused
    refine ⟨record, s.fault, s.fcause, answer, hnoted, hkept, fun _ => ⟨rfl, rfl, hvalue⟩, fun h => absurd h hrefused, ?_⟩
    rw [hstep, advanceHost_of_pending hp]
    rfl

/-! ### Every pending command completes -/

/-- A write to a named register leaves the slot of a busy block, and the host's list, alone (R22, R177). -/
theorem hostWriteReg_pending_host {s : State} (hbusy : s.busy = true) (r : Reg) (v : Word) :
    (hostWriteReg r v s).pending = s.pending ∧ (hostWriteReg r v s).host = s.host := by
  cases r with
  | cmd =>
    rw [hostWriteReg, hostWriteCmd, if_pos hbusy]
    exact ⟨rfl, rfl⟩
  | _ => exact ⟨rfl, rfl⟩

/-- A register write leaves the slot of a busy block, and the host's list, alone (R51, R177). -/
theorem hostRegWrite_pending_host {s : State} (hbusy : s.busy = true) (width : Nat) (offset : BitVec 6) (v : Word) :
    (hostRegWrite width offset v s).pending = s.pending ∧ (hostRegWrite width offset v s).host = s.host := by
  rw [hostRegWrite]
  cases regAccess width offset with
  | some r => exact hostWriteReg_pending_host hbusy r v
  | none => exact ⟨rfl, rfl⟩

/-- A register read leaves the slot and the host's list alone (R59). -/
theorem hostRegRead_pending_host (width : Nat) (offset : BitVec 6) (s : State) :
    (hostRegRead width offset s).pending = s.pending ∧ (hostRegRead width offset s).host = s.host := by
  rw [hostRegRead]
  cases regAccess width offset with
  | some r => exact ⟨rfl, rfl⟩
  | none => exact ⟨rfl, rfl⟩

/-- With a command pending, a host event other than reset counts one access of the draw and leaves the rest of the slot
alone, and nothing new comes onto the host's list (R30, R210). -/
theorem step_of_hostDue_of_pending {s : State} {p : Pending} {e : HostEvent} {rest : List HostEvent}
    (hp : s.pending = some p) (hdue : HostDue s e rest) (he : e ≠ .reset) :
    ∃ t, step s = .next t ∧ t.pending = some { p with wait := p.wait - 1 } ∧ t.host ⊆ s.host := by
  obtain ⟨hhost, hwait⟩ := hdue
  have hp' := advanceHost_pending_of_pending hp rest
  have hrest : (advanceHost rest s).host ⊆ s.host := hhost ▸ List.subset_cons_self e rest
  cases e with
  | regWrite width offset v =>
    obtain ⟨hslot, hlist⟩ := hostRegWrite_pending_host (busy_eq_true.2 ⟨_, hp'⟩) width offset v
    have hstep : step s = .next (hostRegWrite width offset v (advanceHost rest s)) := by
      rw [step_of_hostDue ⟨hhost, hwait⟩, hostStep, hhost]
    exact ⟨_, hstep, hslot.trans hp', hlist ▸ hrest⟩
  | regRead width offset =>
    obtain ⟨hslot, hlist⟩ := hostRegRead_pending_host width offset (advanceHost rest s)
    have hstep : step s = .next (hostRegRead width offset (advanceHost rest s)) := by
      rw [step_of_hostDue ⟨hhost, hwait⟩, hostStep, hhost]
    exact ⟨_, hstep, hslot.trans hp', hlist ▸ hrest⟩
  | memWrite width addr v =>
    obtain ⟨_, _, _, _, -, -, -, -, hstep⟩ := memoryAccessWhileBusyIsRecorded s p _ rest hp ⟨hhost, hwait⟩ trivial
    exact ⟨_, hstep, rfl, hrest⟩
  | memRead width addr =>
    obtain ⟨_, _, _, _, -, -, -, -, hstep⟩ := memoryAccessWhileBusyIsRecorded s p _ rest hp ⟨hhost, hwait⟩ trivial
    exact ⟨_, hstep, rfl, hrest⟩
  | wait =>
    refine ⟨_, step_wait_of_pending hp hhost (hwait p hp), ?_⟩
    rw [State.retime_of_pending hp]
    exact ⟨rfl, List.Subset.refl s.host⟩
  | reset => exact absurd rfl he

/-- One more step at the end of a run. -/
theorem core_run_succ_of_run {n : Nat} {s t u : State} (hrun : Sys2Proof.core.run n s = .next t)
    (hstep : step t = .next u) : Sys2Proof.core.run (n + 1) s = .next u := by
  induction n generalizing s with
  | zero =>
    cases hrun
    exact core_run_succ 0 hstep
  | succ n ih =>
    obtain ⟨s', hs⟩ := everyStepGoesOn s
    rw [core_run_succ n hs] at hrun
    rw [core_run_succ (n + 1) hs]
    exact ih hrun

/-- Within its draw of steps, the engine step of a pending command is due, unless the reset input is due before (R200, R210). -/
theorem exists_run_engineDue_or_reset {s : State} {p : Pending} (hp : s.pending = some p) :
    ∃ n t, n ≤ p.wait ∧ Sys2Proof.core.run n s = .next t
      ∧ ((∃ w, EngineDue t { p with wait := w }) ∨ .reset ∈ s.host ∧ ∃ rest, HostDue t .reset rest) := by
  obtain ⟨word, args, wait⟩ := p
  induction wait generalizing s with
  | zero => exact ⟨0, s, le_rfl, rfl, .inl ⟨0, hp, .inl rfl⟩⟩
  | succ k ih =>
    cases hhost : s.host with
    | nil => exact ⟨0, s, Nat.zero_le _, rfl, .inl ⟨k + 1, hp, .inr hhost⟩⟩
    | cons e rest =>
      have hdue : HostDue s e rest := ⟨hhost, by rintro q hq; cases hp.symm.trans hq; exact k.succ_ne_zero⟩
      by_cases he : e = .reset
      · subst he
        exact ⟨0, s, Nat.zero_le _, rfl, .inr ⟨List.mem_cons_self, rest, hdue⟩⟩
      · obtain ⟨s', hstep, hp', hlist⟩ := step_of_hostDue_of_pending hp hdue he
        obtain ⟨n, t, hn, hrun, hend⟩ := ih hp'
        exact ⟨n + 1, t, Nat.succ_le_succ hn, (core_run_succ n hstep).trans hrun,
          hend.imp_right (And.imp_left fun hreset => hhost ▸ hlist hreset)⟩

/-- Settles O59: the step that is due after the draw, the engine's or the reset input's, empties the slot; with no reset to
come it is the engine's, which is the decoded command or the `ILLEGAL_CMD` completion. -/
theorem pendingCommandCompletes : Obligations.PendingCommandCompletes := by
  intro s p hp
  obtain ⟨n, t, hn, hrun, hend⟩ := exists_run_engineDue_or_reset hp
  refine ⟨?_, fun hnoReset => ?_⟩
  · rcases hend with ⟨w, hdue⟩ | ⟨-, rest, hdue⟩
    · obtain ⟨u, hu⟩ := engineStep_next { p with wait := w } t
      exact ⟨n + 1, u, Nat.succ_le_succ hn, core_run_succ_of_run hrun ((step_of_engineDue hdue).trans hu),
        (engineStep_pending_host hu).1⟩
    · exact ⟨n + 1, _, Nat.succ_le_succ hn,
        core_run_succ_of_run hrun (resetInputAbandonsThePendingCommand t rest hdue), rfl⟩
  · obtain ⟨w, hdue⟩ := hend.resolve_right fun hreset => hnoReset hreset.1
    obtain ⟨u, hu⟩ := engineStep_next { p with wait := w } t
    refine ⟨n, w, t, u, hn, hrun, hdue, core_run_succ_of_run hrun ((step_of_engineDue hdue).trans hu),
      (engineStep_pending_host hu).1, fun i hdecode => ?_, fun e hdecode => ?_⟩
    · exact (engineStep_of_decode hdecode t).symm.trans hu
    · cases (engineStep_of_decode_error (p := { p with wait := w }) hdecode t).symm.trans hu
      rfl

end Sys2Proof.Machine
